-- ==== Sys2Proof/Word.lean ====
section
/-! DEFINITION. The machine's plain number types (00_scope.md R10 and R13; 10_state.md R31). -/

namespace Sys2Proof

/-- One byte of a byte sequence or of PBUF (20_memory.md R80). -/
abbrev Byte := BitVec 8

/-- One 64-bit register value (10_state.md R31; 20_memory.md R82). -/
abbrev Word := BitVec 64

/-- The number of a general register X0–X31 (10_state.md R31). -/
abbrev Reg := Fin 32

/-- A CSR number, 12 bits (20_memory.md R82). -/
abbrev CsrNum := BitVec 12

end Sys2Proof
end

