-- ==== Sys2Proof/Config.lean ====
section
/-! DEFINITION. What one machine fixes: the named parameters of 00_scope.md R10, and the free values. -/

namespace Sys2Proof

/-- The parameters the model takes as arguments (00_scope.md R10; 70_reset_and_hazards.md R421): fixed for the life of a
machine. `State` carries them, so that a statement about every state is a statement about every choice of them (log 1). -/
structure Params where
  /-- PBUF_SIZE: bytes in the packet buffer. -/
  pbufSize : Nat
  /-- ARP_SETS: sets of the ARP cache. -/
  arpSets : Nat
  /-- ARP_WAYS: ways in each set. -/
  arpWays : Nat
  /-- ARP_TIMEOUT_RESET: the reset value of ARP_TIMEOUT, in ticks. -/
  arpTimeoutReset : Word
  /-- TICK_UNIT: the real time of one tick of NOW; no rule depends on it (R10). -/
  tickUnit : Nat
deriving DecidableEq, Repr

namespace Config

/-- FREE VALUE. The byte PBUF holds at an address that nothing has written since reset number `epoch`: "each byte any
value" (10_state.md R54, 93 U1). Nothing constrains it (log 3). -/
opaque pbufDraw (epoch address : Nat) : Byte

/-- FREE VALUE. ARP_TIMEOUT_RESET of the machine `State.reset` describes; OPEN in the spec (R10, D26; log 2). -/
opaque arpTimeoutReset : Word

/-- FREE VALUE. TICK_UNIT of the machine `State.reset` describes; OPEN in the spec (R10, D24; log 2). -/
opaque tickUnit : Nat

end Config

/-- The parameters of the machine `State.reset` describes: the sizes the spec's vectors use (R10; DESIGN CHOICE, log 1)
and the open values (log 2). -/
def Params.vectors : Params :=
  { pbufSize := 65536, arpSets := 1, arpWays := 8,
    arpTimeoutReset := Config.arpTimeoutReset, tickUnit := Config.tickUnit }

end Sys2Proof
end

