-- ==== Sys2Proof/Syntax.lean ====
section
/-! DEFINITION. The commands of the engine (30_encoding.md R112) and the interactions of the host, the time base and the
reset line (70_reset_and_hazards.md R425). -/

namespace Sys2Proof

/-- The 27 commands of spec/opcode_table.json. A command word holds no operand (30_encoding.md R114), so no constructor
has a field. -/
inductive Instr where
  -- checksum
  | ckClear | ckAccum | ckFinal | cksum | ckVerify
  -- Ethernet
  | ethParse | ethClassify | ethBuild
  -- ARP packet
  | arpParse | arpBuildReq | arpBuildReply | arpHandle
  -- ARP cache
  | arpcInsert | arpcLookup | arpcSweep | arpcRemove | arpcCount
  -- IPv4
  | ip4Parse | ip4Build | ip4Emit
  -- ICMP
  | icmpParse | icmpEmit | icmpBuildReply
  -- UDP
  | udpParse | udpBuild | udpBuildEcho
  -- pipeline
  | processFrame
deriving DecidableEq, Repr

/-- One interaction of the environment with the block: the six rows of 70_reset_and_hazards.md R425. -/
inductive HostOp where
  /-- A 64-bit write of a CSR; of CMD, it starts a command. -/
  | csrWrite (csr : CsrNum) (value : Word)
  /-- A 64-bit read of a CSR. -/
  | csrRead (csr : CsrNum)
  /-- A write of one PBUF byte. -/
  | pbufWrite (address : Nat) (byte : Byte)
  /-- A read of one PBUF byte. -/
  | pbufRead (address : Nat)
  /-- One tick of the time base (10_state.md R46). -/
  | tick
  /-- The reset event (70 R420). -/
  | reset
deriving DecidableEq, Repr

/-- What the host gets back from a read (the column "host gets back" of 70 R425). -/
inductive HostReply where
  | csrValue (csr : CsrNum) (value : Word)
  | pbufByte (address : Nat) (byte : Byte)
deriving DecidableEq, Repr

end Sys2Proof
end

