-- ==== Sys2Proof/WellFormed.lean ====
section
/-! DEFINITION. What may be written at all: a legal choice of parameters (00_scope.md R10), an assigned command word
(30_encoding.md R113), an interaction the host may make (70_reset_and_hazards.md R426). A command itself has no fields, so
every term of `Instr` is well-formed. -/

namespace Sys2Proof

/-- The legal values of the parameters (00_scope.md R10, third column). ARP_TIMEOUT_RESET and TICK_UNIT take any value. -/
def Params.legal (p : Params) : Bool :=
  decide (64 ≤ p.pbufSize) && decide (p.pbufSize ≤ 2 ^ 31)
    && decide (1 ≤ p.arpSets) && decide (p.arpSets ≤ 2 ^ 16) && decide (2 ^ p.arpSets.log2 = p.arpSets)
    && decide (1 ≤ p.arpWays) && decide (p.arpWays ≤ 2 ^ 16)

/-- The OPC values that name no command, range by range as 30_encoding.md R113 lists them. -/
def opcReserved (opc : Byte) : Bool :=
  let n := opc.toNat
  decide (n = 0x00)
    || (decide (0x06 ≤ n) && decide (n ≤ 0x0F)) || (decide (0x13 ≤ n) && decide (n ≤ 0x1F))
    || (decide (0x24 ≤ n) && decide (n ≤ 0x27)) || (decide (0x2D ≤ n) && decide (n ≤ 0x2F))
    || (decide (0x33 ≤ n) && decide (n ≤ 0x3F)) || (decide (0x43 ≤ n) && decide (n ≤ 0x4F))
    || (decide (0x53 ≤ n) && decide (n ≤ 0x5F)) || decide (0x61 ≤ n)

/-- A command word that names a command: RSV (bits 31:8) is 0 and OPC (bits 7:0) is assigned (30_encoding.md R110, R113). -/
def wordWellFormed (w : BitVec 32) : Bool :=
  decide (w.extractLsb' 8 24 = 0#24) && !opcReserved (w.extractLsb' 0 8)

/-- The host's duty of 70 R425: a PBUF access is in range. Every other interaction is always allowed. -/
def HostOp.wellFormed (p : Params) : HostOp → Bool
  | .pbufWrite a _ => decide (a < p.pbufSize)
  | .pbufRead a => decide (a < p.pbufSize)
  | .csrWrite _ _ => true
  | .csrRead _ => true
  | .tick => true
  | .reset => true

end Sys2Proof
end

