-- ==== Sys2Proof/Decode.lean ====
section
/-! DEFINITION. The command word (30_encoding.md R110–R113): decoding it, total on every 32-bit word and rejecting by
name, and encoding a command. -/

namespace Sys2Proof

/-- Why a word is no command (30_encoding.md R111). -/
inductive DecodeError where
  /-- Bits 31:8 are not all zero: IllegalCommand sub 1. -/
  | reservedBits
  /-- OPC names no command: IllegalCommand sub 0. -/
  | unknownOpc
deriving DecidableEq, Repr

/-- The opcode map, row by row (30_encoding.md R112). -/
def opcodeMap : List (Byte × Instr) :=
  [(0x01, .ckClear), (0x02, .ckAccum), (0x03, .ckFinal), (0x04, .cksum), (0x05, .ckVerify),
   (0x10, .ethParse), (0x11, .ethClassify), (0x12, .ethBuild),
   (0x20, .arpParse), (0x21, .arpBuildReq), (0x22, .arpBuildReply), (0x23, .arpHandle),
   (0x28, .arpcInsert), (0x29, .arpcLookup), (0x2A, .arpcSweep), (0x2B, .arpcRemove), (0x2C, .arpcCount),
   (0x30, .ip4Parse), (0x31, .ip4Build), (0x32, .ip4Emit),
   (0x40, .icmpParse), (0x41, .icmpEmit), (0x42, .icmpBuildReply),
   (0x50, .udpParse), (0x51, .udpBuild), (0x52, .udpBuildEcho),
   (0x60, .processFrame)]

/-- The command a row of the opcode map gives to an OPC, if any. -/
def instrOfOpc (opc : Byte) : Option Instr :=
  opcodeMap.lookup opc

/-- Decode a command word: the reserved bits first, then OPC (30_encoding.md R111). -/
def decode (w : BitVec 32) : Except DecodeError Instr :=
  if w.extractLsb' 8 24 ≠ 0#24 then .error .reservedBits
  else match instrOfOpc (w.extractLsb' 0 8) with
    | some i => .ok i
    | none => .error .unknownOpc

/-- The OPC of a command (30_encoding.md R112, first column). -/
def opcOf : Instr → Byte
  | .ckClear => 0x01
  | .ckAccum => 0x02
  | .ckFinal => 0x03
  | .cksum => 0x04
  | .ckVerify => 0x05
  | .ethParse => 0x10
  | .ethClassify => 0x11
  | .ethBuild => 0x12
  | .arpParse => 0x20
  | .arpBuildReq => 0x21
  | .arpBuildReply => 0x22
  | .arpHandle => 0x23
  | .arpcInsert => 0x28
  | .arpcLookup => 0x29
  | .arpcSweep => 0x2A
  | .arpcRemove => 0x2B
  | .arpcCount => 0x2C
  | .ip4Parse => 0x30
  | .ip4Build => 0x31
  | .ip4Emit => 0x32
  | .icmpParse => 0x40
  | .icmpEmit => 0x41
  | .icmpBuildReply => 0x42
  | .udpParse => 0x50
  | .udpBuild => 0x51
  | .udpBuildEcho => 0x52
  | .processFrame => 0x60

/-- The command word: RSV = 0 above OPC (30_encoding.md R110). -/
def encode (i : Instr) : BitVec 32 :=
  0#24 ++ opcOf i

/-- The command the decoder reads from an opcode-table word of `nbits` bits. A command word is written to CMD as one
64-bit CSR value, of which CMD keeps bits 31:0 (10_state.md R35). -/
def decodeTableWord (nbits w : Nat) : Option Instr :=
  (decode (BitVec.ofNat 32 (w % 2 ^ nbits))).toOption

end Sys2Proof
end

