-- ==== Sys2Proof/Machine/State.lean ====
section
/-! DEFINITION. The machine's state as plain data (10_state.md R30, R54), its value after reset, and the ways a step can
stop. -/

namespace Sys2Proof.Machine

/-- STATUS, by field (10_state.md R36); its other bits are reserved and read 0. -/
structure StatusReg where
  busy : Bool
  done : Bool
  fail : Bool
  lastOpc : BitVec 8
deriving DecidableEq, Repr

/-- ERR, by field (10_state.md R37); bits 63:24 are reserved and read 0. -/
structure ErrReg where
  code : BitVec 8
  sub : BitVec 8
  layer : BitVec 8
deriving DecidableEq, Repr

/-- The checksum accumulator (10_state.md R48), shown by CK_STATE (R44). -/
structure Accumulator where
  /-- ACC: the one's-complement sum of the complete words fed. -/
  acc : BitVec 16
  /-- PV: a byte is pending. -/
  pv : Bool
  /-- PB: the pending byte. -/
  pb : BitVec 8
deriving DecidableEq, Repr

/-- The fields of a valid ARP cache entry, V = 1 (10_state.md R49). -/
structure CacheEntry where
  ip : BitVec 32
  mac : BitVec 48
  /-- TS: NOWs of the insert that wrote the entry. -/
  ts : Word
deriving DecidableEq, Repr

/-- One way of a set: `none` is V = 0, whose other fields nothing can observe (10_state.md R49, 93 U2; log 9). -/
abbrev Slot := Option CacheEntry

/-- The ARP cache array: the list of its sets, each the list of its ways (10_state.md R49). -/
abbrev Cache := List (List Slot)

/-- PBUF's contents: the bytes written since reset, addresses strictly rising. An address that is not listed has no
written byte (log 3, log 4). -/
abbrev Memory := List Host.Cell

/-- The whole machine. Every field up to `pbuf` is the spec's (10_state.md R30; 00_scope.md R10); the last three are the
model's own (log 3, log 5, log 7). -/
structure State where
  /-- The parameters, which no step changes (70 R421); ARP_GEOM and PBUF_SIZE read them (10 R45). -/
  params : Params
  /-- X0–X31 (R31). -/
  x : Vector Word 32
  /-- CMD.COMMAND (R35). -/
  cmd : BitVec 32
  /-- STATUS (R36). -/
  status : StatusReg
  /-- ERR (R37). -/
  err : ErrReg
  /-- ERRINFO (R38). -/
  errInfo : Word
  /-- OUR_MAC.MAC (R39). -/
  ourMac : BitVec 48
  /-- OUR_IP.IP (R40). -/
  ourIp : BitVec 32
  /-- ARP_TIMEOUT (R41). -/
  arpTimeout : Word
  /-- NOW (R42). -/
  now : Word
  /-- REPLY_TTL.TTL (R43). -/
  replyTtl : BitVec 8
  /-- ACC, PV, PB (R44, R48). -/
  ck : Accumulator
  /-- The ARP cache array (R49). -/
  cache : Cache
  /-- PBUF (20 R80). -/
  pbuf : Memory
  /-- How many resets there have been: it picks the free draw of PBUF's bytes (log 3). -/
  resetCount : Nat
  /-- The interactions of the environment still to come, oldest first (log 5). -/
  pending : List HostOp
  /-- What the host's reads have returned, newest first (log 7). -/
  replies : List HostReply
deriving DecidableEq, Repr

/-- A fault of the machine. There is none: "An error is not a fault of the machine" (60_exceptions.md R385); an error of a
command is a next state that carries the report (R384). -/
inductive Fault where
deriving DecidableEq, Repr

/-- Why the model has no next state. -/
inductive Refusal where
  /-- The command of this mnemonic has no meaning yet. Raised by `exec` alone; safe. -/
  | notModelled (mnemonic : String)
  /-- The host read or wrote a PBUF byte at an address ≥ PBUF_SIZE, which "has no defined effect" and which a model
  refuses (70_reset_and_hazards.md R426, 93 U8). Raised by the two PBUF interactions; safe (log 10). -/
  | hostPbufOutOfRange
deriving DecidableEq, Repr

/-- What a step of this machine answers. -/
abbrev Result := Host.Outcome State Fault Refusal

/-- The machine with parameters `p` right after its first reset: every field at the value of 10_state.md R54. -/
def State.resetWith (p : Params) : State :=
  { params := p
    x := Vector.replicate 32 0#64
    cmd := 0#32
    status := { busy := false, done := false, fail := false, lastOpc := 0#8 }
    err := { code := 0#8, sub := 0#8, layer := 0#8 }
    errInfo := 0#64
    ourMac := 0#48
    ourIp := 0#32
    arpTimeout := p.arpTimeoutReset
    now := 0#64
    replyTtl := 64#8
    ck := { acc := 0#16, pv := false, pb := 0#8 }
    cache := List.replicate p.arpSets (List.replicate p.arpWays none)
    pbuf := []
    resetCount := 0
    pending := []
    replies := [] }

/-- The machine right after reset (70 R420), with the parameters of the spec's vectors (log 1, log 2). -/
def State.reset : State := State.resetWith Params.vectors

end Sys2Proof.Machine
end

