-- ==== Sys2Proof/Machine/Bytes.lean ====
section
/-! DEFINITION. Byte sequences and the big-endian fields in them (00_scope.md R13, R14; 20_memory.md R86). -/

namespace Sys2Proof.Machine

/-- b[k]. -/
def byteOf (b : List Byte) (k : Nat) : Byte := b.getD k 0#8

/-- be16(b, k): the most significant byte is at the lower offset (R13). -/
def be16 (b : List Byte) (k : Nat) : BitVec 16 := byteOf b k ++ byteOf b (k + 1)

/-- be32(b, k) (R13). -/
def be32 (b : List Byte) (k : Nat) : BitVec 32 := be16 b k ++ be16 b (k + 2)

/-- be48(b, k) (R13). -/
def be48 (b : List Byte) (k : Nat) : BitVec 48 := be16 b k ++ be32 b (k + 2)

/-- put16(v): the bytes of v, most significant first (R13). -/
def put16 (v : BitVec 16) : List Byte := [v.extractLsb' 8 8, v.extractLsb' 0 8]

/-- put32(v) (R13). -/
def put32 (v : BitVec 32) : List Byte := put16 (v.extractLsb' 16 16) ++ put16 (v.extractLsb' 0 16)

/-- put48(v) (R13). -/
def put48 (v : BitVec 48) : List Byte := put16 (v.extractLsb' 32 16) ++ put32 (v.extractLsb' 0 32)

/-- b[i..j): the bytes i to j−1 (R14). -/
def slice (b : List Byte) (i j : Nat) : List Byte := (b.take j).drop i

/-- zeros(n) (R14). -/
def zeros (n : Nat) : List Byte := List.replicate n 0#8

/-- A field value in a 64-bit register: zero-extended (R14: X[i] <- v). -/
def zext64 {w : Nat} (v : BitVec w) : Word := v.setWidth 64

/-- A count, address or length in a 64-bit register. -/
def word64 (n : Nat) : Word := BitVec.ofNat 64 n

end Sys2Proof.Machine
end

