-- ==== Sys2Proof/Machine/Errors.lean ====
section
/-! DEFINITION. The errors a command can end with, and the report each makes (60_exceptions.md R380–R382). -/

namespace Sys2Proof.Machine

/-- A protocol layer, as ERR.LAYER names it (10_state.md R37). -/
inductive Layer where
  | ethernet | arp | ipv4 | icmp | udp
deriving DecidableEq, Repr

/-- ERR.LAYER of a protocol layer (10_state.md R37). -/
def Layer.code : Layer → BitVec 8
  | .ethernet => 1
  | .arp => 2
  | .ipv4 => 3
  | .icmp => 4
  | .udp => 5

/-- The raise forms of R381. CHECKSUM_MISMATCH, IO and CONNECTION_FAILED (codes 0x02–0x04) are raised by no command
(R380), so no form raises them. -/
inductive CmdError where
  /-- raise InvalidPacket(layer, sub, avail, need). -/
  | invalidPacket (layer : Layer) (sub : BitVec 8) (avail need : Nat)
  /-- raise IllegalCommand(sub, info = the command word). -/
  | illegalCommand (sub : BitVec 8) (word : BitVec 32)
  /-- raise BufferRange(addr, n): sub 0 by MemRead, 1 by MemWrite. -/
  | bufferRange (sub : BitVec 8) (addr : Word)
  /-- raise LengthOverflow(sub, info = the length). -/
  | lengthOverflow (sub : BitVec 8) (len : Nat)
deriving DecidableEq, Repr

/-- The error kinds of R380 with their codes, those that nothing raises among them. -/
inductive ErrorKind where
  | none | invalidPacket | checksumMismatch | io | connectionFailed | illegalCommand | bufferRange | lengthOverflow
deriving DecidableEq, Repr

/-- ERR.CODE of each kind (R380, first column). -/
def ErrorKind.code : ErrorKind → BitVec 8
  | .none => 0x00
  | .invalidPacket => 0x01
  | .checksumMismatch => 0x02
  | .io => 0x03
  | .connectionFailed => 0x04
  | .illegalCommand => 0x10
  | .bufferRange => 0x11
  | .lengthOverflow => 0x12

/-- The kind a raise form reports (R381). -/
def CmdError.kind : CmdError → ErrorKind
  | .invalidPacket .. => .invalidPacket
  | .illegalCommand .. => .illegalCommand
  | .bufferRange .. => .bufferRange
  | .lengthOverflow .. => .lengthOverflow

/-- ERR.SUB (R381). -/
def CmdError.subCode : CmdError → BitVec 8
  | .invalidPacket _ sub _ _ => sub
  | .illegalCommand sub _ => sub
  | .bufferRange sub _ => sub
  | .lengthOverflow sub _ => sub

/-- ERR.LAYER (R381): 6 is the command and buffer layer. -/
def CmdError.layerCode : CmdError → BitVec 8
  | .invalidPacket layer _ _ _ => layer.code
  | .illegalCommand _ _ => 6
  | .bufferRange _ _ => 6
  | .lengthOverflow sub _ => if sub = 0#8 then 3 else 5

/-- ERRINFO (R381, R382): for InvalidPacket, (N << 32) | A. -/
def CmdError.info : CmdError → Word
  | .invalidPacket _ _ avail need => word64 ((need <<< 32) ||| avail)
  | .illegalCommand _ word => zext64 word
  | .bufferRange _ addr => addr
  | .lengthOverflow _ len => word64 len

/-- The contents of ERR for an error (R384). -/
def CmdError.errReg (e : CmdError) : ErrReg :=
  { code := e.kind.code, sub := e.subCode, layer := e.layerCode }

/-- The contents of ERR after a command that succeeds: ERR ← 0 (R384). -/
def errNone : ErrReg := { code := ErrorKind.none.code, sub := 0#8, layer := 0#8 }

end Sys2Proof.Machine
end

