-- ==== Sys2Proof/Machine/Flags.lean ====
section
/-! DEFINITION. STATUS, the block's only status flags (10_state.md R36, R51), and the 64-bit words a host reads from
STATUS, ERR and CK_STATE. -/

namespace Sys2Proof.Machine

/-- STATUS while a command executes: BUSY = 1 (10_state.md R36). -/
def statusAtStart (st : StatusReg) : StatusReg := { st with busy := true }

/-- STATUS at a command's end: DONE ← 1, FAIL ← (error ? 1 : 0), LAST_OPC ← trunc_8(command word), BUSY back to 0
(10_state.md R36; 60_exceptions.md R384). -/
def statusAtEnd (word : BitVec 32) (failed : Bool) : StatusReg :=
  { busy := false, done := true, fail := failed, lastOpc := word.setWidth 8 }

/-- STATUS as the host reads it: BUSY bit 0, DONE bit 1, FAIL bit 2, LAST_OPC bits 15:8 (10_state.md R36). -/
def StatusReg.word (st : StatusReg) : Word :=
  (zext64 st.lastOpc <<< 8) ||| (zext64 (BitVec.ofBool st.fail) <<< 2)
    ||| (zext64 (BitVec.ofBool st.done) <<< 1) ||| zext64 (BitVec.ofBool st.busy)

/-- ERR as the host reads it: CODE bits 7:0, SUB bits 15:8, LAYER bits 23:16 (10_state.md R37). -/
def ErrReg.word (e : ErrReg) : Word :=
  (zext64 e.layer <<< 16) ||| (zext64 e.sub <<< 8) ||| zext64 e.code

/-- CK_STATE as the host reads it: ACC bits 15:0, PV bit 16, PB bits 31:24 (10_state.md R44). -/
def Accumulator.word (c : Accumulator) : Word :=
  (zext64 c.pb <<< 24) ||| (zext64 (BitVec.ofBool c.pv) <<< 16) ||| zext64 c.acc

end Sys2Proof.Machine
end

