-- ==== Sys2Proof/Machine/Ops.lean ====
section
/-! DEFINITION. The shared operations over registers and PBUF, and the end of a command: committing its effects, or the
error report alone (20_memory.md R80–R88; 60_exceptions.md R384). -/

namespace Sys2Proof.Machine

/-! ### PBUF as a list of written bytes -/

/-- The byte written at an address since reset, if any. -/
def Memory.read? : Memory → Nat → Option Byte
  | [], _ => none
  | (k, b) :: m, a => if a = k then some b else Memory.read? m a

/-- Write one byte, keeping the addresses strictly rising. -/
def Memory.write : Memory → Nat → Byte → Memory
  | [], a, v => [(a, v)]
  | (k, b) :: m, a, v =>
    if a < k then (a, v) :: (k, b) :: m
    else if a = k then (a, v) :: m
    else (k, b) :: Memory.write m a v

/-- Write consecutive bytes from an address upwards. -/
def Memory.writeBytes : Memory → Nat → List Byte → Memory
  | m, _, [] => m
  | m, a, b :: bs => Memory.writeBytes (m.write a b) (a + 1) bs

/-- The canonical form: the addresses strictly rise, so each is listed once. -/
abbrev Memory.wf (m : Memory) : Prop := List.Pairwise (fun c d => c.1 < d.1) m

/-- Every listed address exists in a PBUF of `size` bytes (20_memory.md R80). -/
abbrev Memory.within (m : Memory) (size : Nat) : Prop := ∀ c ∈ m, c.1 < size

/-! ### Reading the state -/

/-- X[i]. -/
def State.reg (s : State) (r : Reg) : Word := s.x[r.val]

/-- X[i] <- v. -/
def State.setReg (s : State) (r : Reg) (v : Word) : State := { s with x := s.x.set r.val v }

/-- PBUF[a]: the byte written there since reset, or else any value at all, the free draw (R80, 70 R422). -/
def State.byteAt (s : State) (a : Nat) : Byte :=
  (Memory.read? s.pbuf a).getD (Config.pbufDraw s.resetCount a)

/-- [PBUF[a], …, PBUF[a + n − 1]]. -/
def State.bytesAt (s : State) (a n : Nat) : List Byte :=
  (List.range n).map fun i => s.byteAt (a + i)

/-! ### The access primitives -/

/-- A descriptor is in range iff addr + n ≤ PBUF_SIZE, on mathematical integers (R83). -/
def State.inRange (s : State) (addr n : Nat) : Bool := decide (addr + n ≤ s.params.pbufSize)

/-- MemRead(addr, n) (R84). -/
def State.memRead (s : State) (addr n : Word) : Except CmdError (List Byte) :=
  if s.inRange addr.toNat n.toNat then .ok (s.bytesAt addr.toNat n.toNat)
  else .error (.bufferRange 0 addr)

/-- A write that a command has recorded and that its commit performs (R85). -/
structure Store where
  addr : Nat
  bytes : List Byte
deriving DecidableEq, Repr

/-- MemWrite(addr, len(bytes), bytes) (R85): the check, and the write recorded for the commit. -/
def State.memWrite (s : State) (addr : Word) (bytes : List Byte) : Except CmdError Store :=
  if s.inRange addr.toNat bytes.length then .ok { addr := addr.toNat, bytes := bytes }
  else .error (.bufferRange 1 addr)

/-! ### The end of a command -/

/-- All a command changes when it succeeds: the results it names, and nothing else (10_state.md R33; 20 R88). -/
structure Effects where
  /-- Result registers and their new values. -/
  regs : List (Reg × Word) := []
  /-- The accumulator's new value, if the command writes it. -/
  ck : Option Accumulator := none
  /-- The cache's new contents, if the command writes it. -/
  cache : Option Cache := none
  /-- The bytes the command stores, if it stores any. -/
  store : Option Store := none
deriving DecidableEq, Repr

/-- X[i] <- v for each result in turn. -/
def writeRegs : Vector Word 32 → List (Reg × Word) → Vector Word 32
  | x, [] => x
  | x, (r, v) :: rest => writeRegs (x.set r.val v) rest

/-- The recorded write, performed (R85). -/
def writeStore (m : Memory) : Option Store → Memory
  | none => m
  | some st => m.writeBytes st.addr st.bytes

/-- The end of a command that succeeds: all its effects at once, with STATUS, ERR ← 0 and ERRINFO ← 0 (R88; 60 R384). -/
def State.complete (s : State) (e : Effects) : State :=
  { s with
    x := writeRegs s.x e.regs
    ck := e.ck.getD s.ck
    cache := e.cache.getD s.cache
    pbuf := writeStore s.pbuf e.store
    status := statusAtEnd s.cmd false
    err := errNone
    errInfo := 0#64 }

/-- The error commit, this block's only exception entry: the report in STATUS, ERR and ERRINFO, and nothing else
(60_exceptions.md R384, R388). There is no return from it (R389): the engine is idle, as after a success. -/
def State.raise (s : State) (e : CmdError) : State :=
  { s with
    status := statusAtEnd s.cmd true
    err := e.errReg
    errInfo := e.info }

/-- How every command ends: its effects committed, or its error reported; always a next state (R385, 70 R431). -/
def finish (s : State) : Except CmdError Effects → Result
  | .ok e => .next (s.complete e)
  | .error e => .next (s.raise e)

/-- The end of a command word that names no command (30_encoding.md R111). -/
def illegalCommand (e : DecodeError) (s : State) : Result :=
  match e with
  | .reservedBits => finish s (.error (.illegalCommand 1 s.cmd))
  | .unknownOpc => finish s (.error (.illegalCommand 0 s.cmd))

end Sys2Proof.Machine
end

