-- ==== Sys2Proof/Machine/Operands.lean ====
section
/-! DEFINITION. The operand forms of 30_encoding.md R114 and 10_state.md R33, R34: truncated fields of X4–X15, the input
descriptor (X1, X2) and the output address X3. -/

namespace Sys2Proof.Machine

/-- trunc_N(X[i]): an N-bit field operand; bits 63:N are ignored (10_state.md R34). -/
def State.field (s : State) (n : Nat) (r : Reg) : BitVec n := (s.reg r).setWidth n

/-- A MAC address operand, 48 bits. -/
def State.macField (s : State) (r : Reg) : BitVec 48 := s.field 48 r

/-- An IPv4 address operand, 32 bits. -/
def State.ipField (s : State) (r : Reg) : BitVec 32 := s.field 32 r

/-- A 16-bit operand: EtherType, port, identifier, sequence, total length, identification, checksum. -/
def State.half (s : State) (r : Reg) : BitVec 16 := s.field 16 r

/-- An 8-bit operand: protocol, TTL, TOS, ICMP type and code. -/
def State.byteField (s : State) (r : Reg) : Byte := s.field 8 r

/-- X1 as an address of PBUF. -/
def State.inAddr (s : State) : Nat := (s.reg 1).toNat

/-- X2 as a length in bytes. -/
def State.inLen (s : State) : Nat := (s.reg 2).toNat

/-- MemRead(X1, X2): the bytes of the input descriptor, or BufferRange sub 0. -/
def State.input (s : State) : Except CmdError (List Byte) := s.memRead (s.reg 1) (s.reg 2)

/-- MemWrite(X3, …): the bytes recorded at the output address, or BufferRange sub 1. -/
def State.output (s : State) (bytes : List Byte) : Except CmdError Store := s.memWrite (s.reg 3) bytes

/-- The end of every builder: the built bytes stored at X3 and their number in X0 (10_state.md R33). -/
def State.emit (s : State) (bytes : List Byte) : Except CmdError Effects :=
  (s.output bytes).map fun st => { regs := [(0, word64 bytes.length)], store := some st }

/-- The first check of every parser: `need` bytes at least, or InvalidPacket sub 0 of its layer (60_exceptions.md R380). -/
def requireLen (layer : Layer) (bytes : List Byte) (need : Nat) : Except CmdError Unit :=
  if bytes.length < need then .error (.invalidPacket layer 0 bytes.length need) else .ok ()

end Sys2Proof.Machine
end

