-- ==== Sys2Proof/Machine/ArpCache.lean ====
section
/-! DEFINITION. The ARP cache: a set-associative table with age-based expiry, and its five commands (43_arp_cache.md). -/

namespace Sys2Proof.Machine

/-! ### Organisation -/

/-- idx(ip) = ip mod ARP_SETS (R250). -/
def setIndex (p : Params) (ip : BitVec 32) : Nat := ip.toNat % p.arpSets

/-- age(TS) at time NOWs: saturating at 0 for a timestamp in the future (R251). -/
def age (now ts : Word) : Nat := if now.toNat ≥ ts.toNat then now.toNat - ts.toNat else 0

/-- An entry with V = 1 is live iff its age is below ARP_TIMEOUT, and stale otherwise (R254). -/
def CacheEntry.live (now timeout : Word) (e : CacheEntry) : Bool := decide (age now e.ts < timeout.toNat)

/-- live(s, w) (R254). -/
def Slot.live (now timeout : Word) : Slot → Bool
  | none => false
  | some e => e.live now timeout

/-- stale(s, w): V = 1 and not live (R254). -/
def Slot.stale (now timeout : Word) : Slot → Bool
  | none => false
  | some e => !e.live now timeout

/-- V = 1 and IP = ip. -/
def Slot.holds (ip : BitVec 32) : Slot → Bool
  | none => false
  | some e => decide (e.ip = ip)

/-- V = 1 and TS = t. -/
def Slot.stamped (t : Word) : Slot → Bool
  | none => false
  | some e => decide (e.ts = t)

/-- The ways of a set. -/
def Cache.ways (c : Cache) (set : Nat) : List Slot := c.getD set []

/-- (V, IP, MAC, TS)[set][way] <- slot. -/
def Cache.put (c : Cache) (set way : Nat) (slot : Slot) : Cache := c.set set ((c.ways set).set way slot)

/-- The way of ip's set that has V = 1 and IP = ip, if any. -/
def findWay (ways : List Slot) (ip : BitVec 32) : Option Nat := ways.findIdx? (Slot.holds ip)

/-- The slot of ip's set that holds ip, if any, with its way. -/
def Cache.find (c : Cache) (p : Params) (ip : BitVec 32) : Option (Nat × CacheEntry) :=
  match findWay (c.ways (setIndex p ip)) ip with
  | none => none
  | some w => match (c.ways (setIndex p ip)).getD w none with
    | none => none
    | some e => some (w, e)

/-! ### Insertion -/

/-- The smallest TS among the valid ways of a set. -/
def smallestTs : List Slot → Option Word
  | [] => none
  | none :: rest => smallestTs rest
  | some e :: rest => match smallestTs rest with
    | none => some e.ts
    | some t => some (if e.ts.toNat ≤ t.toNat then e.ts else t)

/-- The way with the smallest TS, the lowest-numbered among equal ones (R253, last case). -/
def oldestWay (ways : List Slot) : Nat :=
  match smallestTs ways with
  | none => 0
  | some t => (ways.findIdx? (Slot.stamped t)).getD 0

/-- w* and the return code of cache_insert (R253, R256): the way that holds ip, else the lowest free way, else the lowest
stale way, else the oldest. -/
def victim (now timeout : Word) (ways : List Slot) (ip : BitVec 32) : Nat × Nat :=
  match findWay ways ip with
  | some w => (w, 0)
  | none => match ways.findIdx? Option.isNone with
    | some w => (w, 1)
    | none => match ways.findIdx? (Slot.stale now timeout) with
      | some w => (w, 2)
      | none => (oldestWay ways, 3)

/-- cache_insert(ip, mac, now): the cache after it, and its return code (R256). -/
def cacheInsert (p : Params) (timeout now : Word) (c : Cache) (ip : BitVec 32) (mac : BitVec 48) : Cache × Nat :=
  let set := setIndex p ip
  let (way, code) := victim now timeout (c.ways set) ip
  (c.put set way (some { ip := ip, mac := mac, ts := now }), code)

/-- cache_insert with the machine's own time and timeout, sampled when the command starts (10_state.md R47, R260). -/
def State.insert (s : State) (ip : BitVec 32) (mac : BitVec 48) : Cache × Nat :=
  cacheInsert s.params s.arpTimeout s.now s.cache ip mac

/-! ### The whole array -/

/-- The number of slots of the array for which a test holds. -/
def Cache.count (c : Cache) (test : Slot → Bool) : Nat := (c.map (List.countP test)).sum

/-- V <- 0 for every stale entry (R257). -/
def Cache.sweep (c : Cache) (now timeout : Word) : Cache :=
  c.map (List.map fun slot => if Slot.stale now timeout slot then none else slot)

/-! ### The commands -/

/-- ARPC_INSERT (R256). -/
def execArpcInsert (s : State) : Result :=
  finish s <| .ok <|
    let (cache, code) := s.insert (s.ipField 4) (s.macField 5)
    { regs := [(0, word64 code)], cache := some cache }

/-- ARPC_LOOKUP (R255): a live match is reported, a stale one removed. -/
def execArpcLookup (s : State) : Result :=
  let ip := s.ipField 4
  finish s <| .ok <|
    match s.cache.find s.params ip with
    | none => { regs := [(0, 0#64), (16, 0#64)] }
    | some (w, e) =>
      if e.live s.now s.arpTimeout then { regs := [(0, 1#64), (16, zext64 e.mac)] }
      else { regs := [(0, 0#64), (16, 0#64)], cache := some (s.cache.put (setIndex s.params ip) w none) }

/-- ARPC_SWEEP (R257). -/
def execArpcSweep (s : State) : Result :=
  finish s (.ok
    { regs := [(0, word64 (s.cache.count (Slot.stale s.now s.arpTimeout)))]
      cache := some (s.cache.sweep s.now s.arpTimeout) })

/-- ARPC_REMOVE (R258). -/
def execArpcRemove (s : State) : Result :=
  let ip := s.ipField 4
  finish s <| .ok <|
    match s.cache.find s.params ip with
    | none => { regs := [(0, 0#64)] }
    | some (w, e) =>
      { regs := [(0, if e.live s.now s.arpTimeout then 1#64 else 0#64)]
        cache := some (s.cache.put (setIndex s.params ip) w none) }

/-- ARPC_COUNT (R259). -/
def execArpcCount (s : State) : Result :=
  finish s (.ok { regs := [(0, word64 (s.cache.count (Slot.live s.now s.arpTimeout)))] })

end Sys2Proof.Machine
end

