-- ==== Sys2Proof/Machine/Arp.lean ====
section
/-! DEFINITION. ARP packets: the parsed packet, the reply function, and the four commands (30_encoding.md R122, R123;
42_arp.md). -/

namespace Sys2Proof.Machine

/-- The parsed ARP packet (R220). -/
structure ArpPacket where
  htype : BitVec 16
  ptype : BitVec 16
  hlen : Byte
  plen : Byte
  oper : BitVec 16
  sha : BitVec 48
  spa : BitVec 32
  tha : BitVec 48
  tpa : BitVec 32
deriving DecidableEq, Repr

/-- arp_parse(b), for len(b) ≥ 28 (R221). -/
def arpParse (b : List Byte) : ArpPacket :=
  { htype := be16 b 0, ptype := be16 b 2, hlen := byteOf b 4, plen := byteOf b 5, oper := be16 b 6
    sha := be48 b 8, spa := be32 b 14, tha := be48 b 18, tpa := be32 b 24 }

/-- The 28 bytes of an ARP packet (R122). -/
def ArpPacket.bytes (p : ArpPacket) : List Byte :=
  put16 p.htype ++ put16 p.ptype ++ [p.hlen, p.plen] ++ put16 p.oper
    ++ put48 p.sha ++ put32 p.spa ++ put48 p.tha ++ put32 p.tpa

/-- The operation class: v for 1 ≤ v ≤ 4, else 0 (R123). -/
def arpClass (oper : BitVec 16) : BitVec 16 := if 1 ≤ oper.toNat ∧ oper.toNat ≤ 4 then oper else 0#16

/-- The request of ARP_BUILD_REQ: Request = 1, target MAC zeroed, htype 1, ptype 0x0800, hlen 6, plen 4 (R223; log 16). -/
def arpRequest (ourMac : BitVec 48) (ourIp targetIp : BitVec 32) : ArpPacket :=
  { htype := 1, ptype := 0x0800, hlen := 6, plen := 4, oper := 1
    sha := ourMac, spa := ourIp, tha := 0, tpa := targetIp }

/-- arp_reply(q, our_mac): Reply = 2, sender us at the IP asked for, target the requester; the rest copied (R225). -/
def arpReply (q : ArpPacket) (ourMac : BitVec 48) : ArpPacket :=
  { htype := q.htype, ptype := q.ptype, hlen := q.hlen, plen := q.plen, oper := 2
    sha := ourMac, spa := q.tpa, tha := q.sha, tpa := q.spa }

/-- The handler's condition: operation = Request and target_ip = our_ip (R227). -/
def State.answersArp (s : State) (p : ArpPacket) : Bool := decide (p.oper = 1#16) && decide (p.tpa = s.ourIp)

/-- ARP_PARSE (R222). -/
def execArpParse (s : State) : Result :=
  finish s do
    let b ← s.input
    requireLen .arp b 28
    let p := arpParse b
    return { regs :=
      [(16, zext64 p.htype), (17, zext64 p.ptype), (18, zext64 p.hlen), (19, zext64 p.plen), (20, zext64 p.oper),
       (21, zext64 p.sha), (22, zext64 p.spa), (23, zext64 p.tha), (24, zext64 p.tpa),
       (25, zext64 (arpClass p.oper))] }

/-- ARP_BUILD_REQ (R223). -/
def execArpBuildReq (s : State) : Result :=
  finish s (s.emit (arpRequest (s.macField 4) (s.ipField 5) (s.ipField 6)).bytes)

/-- ARP_BUILD_REPLY (R224). -/
def execArpBuildReply (s : State) : Result :=
  finish s do
    let b ← s.input
    requireLen .arp b 28
    s.emit (arpReply (arpParse b) (s.macField 4)).bytes

/-- ARP_HANDLE (R227): always learn the sender; answer a Request for OUR_IP. -/
def execArpHandle (s : State) : Result :=
  finish s do
    let b ← s.input
    requireLen .arp b 28
    let p := arpParse b
    let (cache, _) := s.insert p.spa p.sha
    if s.answersArp p then
      let reply ← s.emit (arpReply p s.ourMac).bytes
      return { reply with cache := some cache }
    else
      return { regs := [(0, 0#64)], cache := some cache }

end Sys2Proof.Machine
end

