-- ==== Sys2Proof/Machine/Ethernet.lean ====
section
/-! DEFINITION. Ethernet: the frame format and its three commands (30_encoding.md R120, R121; 41_ethernet.md). -/

namespace Sys2Proof.Machine

/-- The EtherType classes (R121). -/
inductive EtherClass where
  | unknown | arp | ipv4 | ipv6
deriving DecidableEq, Repr

/-- The class of an EtherType value (R121). -/
def etherClass (t : BitVec 16) : EtherClass :=
  if t = 0x0806#16 then .arp else if t = 0x0800#16 then .ipv4 else if t = 0x86DD#16 then .ipv6 else .unknown

/-- The class codes (R121). -/
def EtherClass.code : EtherClass → Word
  | .unknown => 0
  | .arp => 1
  | .ipv4 => 2
  | .ipv6 => 3

/-- The bytes of a frame (R120). -/
def etherFrame (dst src : BitVec 48) (etherType : BitVec 16) (payload : List Byte) : List Byte :=
  put48 dst ++ put48 src ++ put16 etherType ++ payload

/-- ETH_PARSE (R201). -/
def execEthParse (s : State) : Result :=
  finish s do
    let b ← s.input
    requireLen .ethernet b 14
    return { regs :=
      [(16, zext64 (be48 b 0)), (17, zext64 (be48 b 6)), (18, zext64 (be16 b 12)),
       (19, (etherClass (be16 b 12)).code), (28, s.reg 1 + 14#64), (29, s.reg 2 - 14#64)] }

/-- ETH_CLASSIFY (R202). -/
def execEthClassify (s : State) : Result :=
  finish s (.ok { regs := [(0, (etherClass (s.half 4)).code)] })

/-- ETH_BUILD (R203). -/
def execEthBuild (s : State) : Result :=
  finish s do
    let p ← s.input
    s.emit (etherFrame (s.macField 4) (s.macField 5) (s.half 6) p)

end Sys2Proof.Machine
end

