-- ==== Sys2Proof/Machine/Checksum.lean ====
section
/-! DEFINITION. The Internet checksum (40_checksum.md): the function of R170 and R171, the accumulator of R172–R174, and
the five commands of R176–R180. -/

namespace Sys2Proof.Machine

/-! ### The function -/

/-- The integer sum of a sequence's 16-bit big-endian words, the final odd byte the high byte of a padded word (R170). -/
def wordSum : List Byte → Nat
  | [] => 0
  | [hi] => hi.toNat * 256
  | hi :: lo :: rest => hi.toNat * 256 + lo.toNat + wordSum rest

/-- while S > 0xFFFF: S = (S & 0xFFFF) + (S >> 16) (R170). Each round lowers S, so S rounds are enough. -/
def foldCarry : Nat → Nat → Nat
  | 0, S => S
  | fuel + 1, S => if S > 0xFFFF then foldCarry fuel ((S &&& 0xFFFF) + (S >>> 16)) else S

/-- osum(b) (R170). -/
def osum (b : List Byte) : Nat := foldCarry (wordSum b) (wordSum b)

/-- cksum(b) = 0xFFFF − osum(b) (R171). -/
def cksum (b : List Byte) : BitVec 16 := BitVec.ofNat 16 (0xFFFF - osum b)

/-- A message with the 16-bit field at offset k replaced by a checksum, written as put16 (R171). -/
def withChecksum (b : List Byte) (k : Nat) (c : BitVec 16) : List Byte :=
  slice b 0 k ++ put16 c ++ b.drop (k + 2)

/-! ### The accumulator -/

/-- add1c(a, w): the end-around-carry add (R172). -/
def add1c (a w : BitVec 16) : BitVec 16 :=
  let s := a.toNat + w.toNat
  BitVec.ofNat 16 (if s > 0xFFFF then s - 0xFFFF else s)

/-- feed(c) (R173). -/
def Accumulator.feed (k : Accumulator) (c : Byte) : Accumulator :=
  if k.pv then { acc := add1c k.acc (k.pb ++ c), pv := false, pb := 0#8 }
  else { k with pv := true, pb := c }

/-- Feeding a sequence is feeding its bytes in order (R173). -/
def Accumulator.feedAll (k : Accumulator) (b : List Byte) : Accumulator := b.foldl Accumulator.feed k

/-- fin(ACC, PV, PB) (R174). -/
def Accumulator.fin (k : Accumulator) : BitVec 16 :=
  if k.pv then add1c k.acc (k.pb ++ 0#8) else k.acc

/-- (ACC, PV, PB) = (0, 0, 0). -/
def Accumulator.clear : Accumulator := { acc := 0#16, pv := false, pb := 0#8 }

/-! ### The commands -/

/-- CK_CLEAR (R176). -/
def execCkClear (s : State) : Result :=
  finish s (.ok { ck := some Accumulator.clear })

/-- CK_ACCUM (R177). -/
def execCkAccum (s : State) : Result :=
  finish s do
    let bytes ← s.input
    return { ck := some (s.ck.feedAll bytes) }

/-- CK_FINAL (R178): X0 the checksum, X16 the sum; the accumulator stays. -/
def execCkFinal (s : State) : Result :=
  finish s (.ok { regs := [(0, zext64 (0xFFFF#16 - s.ck.fin)), (16, zext64 s.ck.fin)] })

/-- CKSUM (R179): clear, feed, and read. -/
def execCksum (s : State) : Result :=
  finish s do
    let bytes ← s.input
    let k := Accumulator.clear.feedAll bytes
    return { regs := [(0, zext64 (0xFFFF#16 - k.fin)), (16, zext64 k.fin)], ck := some k }

/-- CK_VERIFY (R180): as CKSUM, with X0 telling whether the sum is all ones. -/
def execCkVerify (s : State) : Result :=
  finish s do
    let bytes ← s.input
    let k := Accumulator.clear.feedAll bytes
    return { regs := [(0, if k.fin = 0xFFFF#16 then 1#64 else 0#64), (16, zext64 k.fin)], ck := some k }

end Sys2Proof.Machine
end

