-- ==== Sys2Proof/Machine/Icmp.lean ====
section
/-! DEFINITION. ICMP messages: building with the whole-message checksum, the echo reply, and the three commands
(30_encoding.md R128, R129; 45_icmp.md). -/

namespace Sys2Proof.Machine

/-- The type class code: 1 for Echo Reply (0), 2 for Echo Request (8), else 0 (R129; log 16). -/
def icmpClass (t : Byte) : Word := if t = 0#8 then 1 else if t = 8#8 then 2 else 0

/-- A message with its checksum written over the zeroed field at offset 2 (R322). -/
def icmpSeal (m0 : List Byte) : List Byte := withChecksum m0 2 (cksum m0)

/-- The bytes of a message given field by field (R322). -/
def icmpMessage (type code : Byte) (identifier sequence : BitVec 16) (payload : List Byte) : List Byte :=
  icmpSeal ([type, code, 0#8, 0#8] ++ put16 identifier ++ put16 sequence ++ payload)

/-- The bytes of the echo reply to a request of at least 8 bytes: type 0, code 0, the rest verbatim (R323). -/
def icmpReply (request : List Byte) : List Byte :=
  icmpSeal ([0#8, 0#8, 0#8, 0#8] ++ slice request 4 8 ++ request.drop 8)

/-- ICMP_PARSE (R321). -/
def execIcmpParse (s : State) : Result :=
  finish s do
    let b ← s.input
    requireLen .icmp b 8
    return { regs :=
      [(16, zext64 (byteOf b 0)), (17, zext64 (byteOf b 1)), (18, zext64 (be16 b 2)), (19, zext64 (be16 b 4)),
       (20, zext64 (be16 b 6)), (21, icmpClass (byteOf b 0)), (28, s.reg 1 + 8#64), (29, s.reg 2 - 8#64)] }

/-- ICMP_EMIT (R322). -/
def execIcmpEmit (s : State) : Result :=
  finish s do
    let p ← s.input
    s.emit (icmpMessage (s.byteField 4) (s.byteField 5) (s.half 6) (s.half 7) p)

/-- ICMP_BUILD_REPLY (R323). -/
def execIcmpBuildReply (s : State) : Result :=
  finish s do
    let b ← s.input
    requireLen .icmp b 8
    s.emit (icmpReply b)

end Sys2Proof.Machine
end

