-- ==== Sys2Proof/Machine/Ipv4.lean ====
section
/-! DEFINITION. The IPv4 header: the parsed packet, packing, and the three commands (30_encoding.md R124–R126; 44_ipv4.md). -/

namespace Sys2Proof.Machine

/-- The fields of the fixed 20-byte header (R124, R290). -/
structure Ip4Header where
  version : BitVec 4
  ihl : BitVec 4
  tos : Byte
  totalLength : BitVec 16
  identification : BitVec 16
  flags : BitVec 3
  fragmentOffset : BitVec 13
  ttl : Byte
  protocol : Byte
  checksum : BitVec 16
  src : BitVec 32
  dst : BitVec 32
deriving DecidableEq, Repr

/-- A parsed packet (R290): the header, the options it carries and the payload. -/
structure Ip4Packet where
  header : Ip4Header
  options : List Byte
  payload : List Byte
deriving DecidableEq, Repr

/-- The fields at their fixed offsets (R124), the two packed ones extracted as R125 says. -/
def ip4Header (b : List Byte) : Ip4Header :=
  { version := (byteOf b 0 >>> 4).setWidth 4
    ihl := (byteOf b 0 &&& 0x0F#8).setWidth 4
    tos := byteOf b 1
    totalLength := be16 b 2
    identification := be16 b 4
    flags := (be16 b 6 >>> 13).setWidth 3
    fragmentOffset := (be16 b 6 &&& 0x1FFF#16).setWidth 13
    ttl := byteOf b 8
    protocol := byteOf b 9
    checksum := be16 b 10
    src := be32 b 12
    dst := be32 b 16 }

/-- The header's 20 bytes, packed as R125 says. -/
def Ip4Header.bytes (h : Ip4Header) : List Byte :=
  [(h.version.setWidth 8 <<< 4) ||| h.ihl.setWidth 8, h.tos]
    ++ put16 h.totalLength ++ put16 h.identification
    ++ put16 ((h.flags.setWidth 16 <<< 13) ||| h.fragmentOffset.setWidth 16)
    ++ [h.ttl, h.protocol] ++ put16 h.checksum
    ++ put32 h.src ++ put32 h.dst

/-- The header's length in bytes: IHL · 4 (R126). -/
def Ip4Header.length (h : Ip4Header) : Nat := h.ihl.toNat * 4

/-- ip_parse(b, n), with its checks in this order (R291). -/
def ip4Parse (b : List Byte) : Except CmdError Ip4Packet :=
  let n := b.length
  let h := ip4Header b
  if n < 20 then .error (.invalidPacket .ipv4 0 n 20)
  else if h.ihl.toNat < 5 then .error (.invalidPacket .ipv4 1 n h.ihl.toNat)
  else if h.length > n then .error (.invalidPacket .ipv4 2 n h.length)
  else .ok { header := h, options := slice b 20 h.length, payload := b.drop h.length }

/-- The header `build` emits before its checksum is known: version 4, IHL 5, TOS, identification, flags and offset 0
(R293). -/
def ip4BuildHeader (src dst : BitVec 32) (protocol ttl : Byte) (totalLength : Nat) : Ip4Header :=
  { version := 4, ihl := 5, tos := 0, totalLength := BitVec.ofNat 16 totalLength, identification := 0
    flags := 0, fragmentOffset := 0, ttl := ttl, protocol := protocol, checksum := 0, src := src, dst := dst }

/-- The bytes of `build(src, dst, protocol, ttl, payload)` (R293): the checksum covers the 20 header bytes only. -/
def ip4Build (src dst : BitVec 32) (protocol ttl : Byte) (payload : List Byte) : Except CmdError (List Byte) :=
  let total := 20 + payload.length
  if total > 0xFFFF then .error (.lengthOverflow 0 total)
  else
    let h0 := (ip4BuildHeader src dst protocol ttl total).bytes
    .ok (withChecksum h0 10 (cksum h0) ++ payload)

/-- IP4_PARSE (R292). -/
def execIp4Parse (s : State) : Result :=
  finish s do
    let b ← s.input
    let q ← ip4Parse b
    let h := q.header
    return { regs :=
      [(16, zext64 h.version), (17, zext64 h.ihl), (18, zext64 h.tos), (19, zext64 h.totalLength),
       (20, zext64 h.identification), (21, zext64 h.flags), (22, zext64 h.fragmentOffset), (23, zext64 h.ttl),
       (24, zext64 h.protocol), (25, zext64 h.checksum), (26, zext64 h.src), (27, zext64 h.dst),
       (28, s.reg 1 + word64 h.length), (29, s.reg 2 - word64 h.length),
       (30, s.reg 1 + 20#64), (31, word64 (h.length - 20))] }

/-- IP4_BUILD (R293). -/
def execIp4Build (s : State) : Result :=
  finish s do
    let p ← s.input
    let out ← ip4Build (s.ipField 4) (s.ipField 5) (s.byteField 6) (s.byteField 7) p
    s.emit out

/-- The header IP4_EMIT writes: every field as given, truncated to its width (R294). -/
def State.emitHeader (s : State) : Ip4Header :=
  { version := s.field 4 4, ihl := s.field 4 5, tos := s.byteField 6, totalLength := s.half 7
    identification := s.half 8, flags := s.field 3 9, fragmentOffset := s.field 13 10, ttl := s.byteField 11
    protocol := s.byteField 12, checksum := s.half 13, src := s.ipField 14, dst := s.ipField 15 }

/-- IP4_EMIT (R294). -/
def execIp4Emit (s : State) : Result :=
  finish s do
    let p ← s.input
    s.emit (s.emitHeader.bytes ++ p)

end Sys2Proof.Machine
end

