-- ==== Sys2Proof/Machine/Udp.lean ====
section
/-! DEFINITION. UDP datagrams: the pseudo-header checksum and the three commands (30_encoding.md R130, R131; 46_udp.md). -/

namespace Sys2Proof.Machine

/-- The pseudo-header's 12 bytes (R131). -/
def udpPseudoHeader (sa da : BitVec 32) (length : Nat) : List Byte :=
  put32 sa ++ put32 da ++ [0#8, 17#8] ++ put16 (BitVec.ofNat 16 length)

/-- The datagram with its checksum field zeroed (R340). -/
def udpUnsealed (sp dp : BitVec 16) (payload : List Byte) : List Byte :=
  put16 sp ++ put16 dp ++ put16 (BitVec.ofNat 16 (8 + payload.length)) ++ [0#8, 0#8] ++ payload

/-- udp_bytes(sa, da, sp, dp, p) (R340): the checksum over pseudo-header and datagram, written as computed. -/
def udpBytes (sa da : BitVec 32) (sp dp : BitVec 16) (payload : List Byte) : Except CmdError (List Byte) :=
  let length := 8 + payload.length
  if length > 0xFFFF then .error (.lengthOverflow 1 length)
  else
    let u0 := udpUnsealed sp dp payload
    .ok (withChecksum u0 6 (cksum (udpPseudoHeader sa da length ++ u0)))

/-- UDP_PARSE (R341). -/
def execUdpParse (s : State) : Result :=
  finish s do
    let b ← s.input
    requireLen .udp b 8
    return { regs :=
      [(16, zext64 (be16 b 0)), (17, zext64 (be16 b 2)), (18, zext64 (be16 b 4)), (19, zext64 (be16 b 6)),
       (28, s.reg 1 + 8#64), (29, s.reg 2 - 8#64)] }

/-- UDP_BUILD (R342). -/
def execUdpBuild (s : State) : Result :=
  finish s do
    let p ← s.input
    let u ← udpBytes (s.ipField 4) (s.ipField 5) (s.half 6) (s.half 7) p
    s.emit u

/-- UDP_BUILD_ECHO (R343): the request's ports swapped, its payload copied. -/
def execUdpBuildEcho (s : State) : Result :=
  finish s do
    let b ← s.input
    requireLen .udp b 8
    let u ← udpBytes (s.ipField 4) (s.ipField 5) (be16 b 2) (be16 b 0) (b.drop 8)
    s.emit u

end Sys2Proof.Machine
end

