-- ==== Sys2Proof/Machine/Pipeline.lean ====
section
/-! DEFINITION. PROCESS_FRAME: one received frame through parse, dispatch and reply (47_pipeline.md). -/

namespace Sys2Proof.Machine

/-- The dispositions of R362. -/
inductive Disposition where
  | dropEthertype | dropIpv6 | arpLearned | arpReplied | icmpReplied | icmpIgnored | udpDelivered | dropIpproto
deriving DecidableEq, Repr

/-- X0's value for a disposition (R362). -/
def Disposition.code : Disposition → Word
  | .dropEthertype => 0
  | .dropIpv6 => 1
  | .arpLearned => 2
  | .arpReplied => 3
  | .icmpReplied => 4
  | .icmpIgnored => 5
  | .udpDelivered => 6
  | .dropIpproto => 7

/-- The result registers X0, X16–X20, X28, X29: what a disposition does not list is written 0 (R362). -/
def frameRegs (d : Disposition) (x16 x17 x18 x19 x20 x28 x29 : Word) : List (Reg × Word) :=
  [(0, d.code), (16, x16), (17, x17), (18, x18), (19, x19), (20, x20), (28, x28), (29, x29)]

/-- The ARP step (R363, R364), on the Ethernet payload e of a frame from smac. -/
def arpStep (s : State) (smac : BitVec 48) (e : List Byte) : Except CmdError Effects := do
  requireLen .arp e 28
  let p := arpParse e
  let (cache, _) := s.insert p.spa p.sha
  if s.answersArp p then
    let st ← s.output (etherFrame smac s.ourMac 0x0806#16 (arpReply p s.ourMac).bytes)
    return { regs := frameRegs .arpReplied 42 (zext64 p.spa) (zext64 p.sha) 0 0 0 0
             cache := some cache, store := some st }
  else
    return { regs := frameRegs .arpLearned 0 (zext64 p.spa) (zext64 p.sha) 0 0 0 0
             cache := some cache }

/-- The ICMP step (R365), on the IPv4 payload of q: an Echo Request (8) is answered, every other type ignored. -/
def icmpStep (s : State) (smac : BitVec 48) (q : Ip4Packet) : Except CmdError Effects := do
  requireLen .icmp q.payload 8
  let t := byteOf q.payload 0
  let src := zext64 q.header.src
  let dst := zext64 q.header.dst
  if t = 8#8 then
    let ip ← ip4Build q.header.dst q.header.src 1 s.replyTtl (icmpReply q.payload)
    let st ← s.output (etherFrame smac s.ourMac 0x0800#16 ip)
    return { regs := frameRegs .icmpReplied (word64 (34 + q.payload.length)) src dst (zext64 t) 0 0 0
             store := some st }
  else
    return { regs := frameRegs .icmpIgnored 0 src dst (zext64 t) 0 0 0 }

/-- The UDP step (R367), on the IPv4 payload of q, which lies at address ua. -/
def udpStep (ua : Word) (q : Ip4Packet) : Except CmdError Effects := do
  let u := q.payload
  requireLen .udp u 8
  return { regs := frameRegs .udpDelivered 0 (zext64 q.header.src) (zext64 q.header.dst)
             (zext64 (be16 u 0)) (zext64 (be16 u 2)) (ua + 8#64) (word64 (u.length - 8)) }

/-- The IPv4 step (R366), on the Ethernet payload e at address ea of a frame from smac. -/
def ip4Step (s : State) (smac : BitVec 48) (ea : Word) (e : List Byte) : Except CmdError Effects := do
  let q ← ip4Parse e
  if q.header.protocol = 1#8 then icmpStep s smac q
  else if q.header.protocol = 17#8 then udpStep (ea + word64 q.header.length) q
  else
    return { regs := frameRegs .dropIpproto 0 (zext64 q.header.src) (zext64 q.header.dst)
               (zext64 q.header.protocol) 0 0 0 }

/-- PROCESS_FRAME (R361). -/
def execProcessFrame (s : State) : Result :=
  finish s do
    let b ← s.input
    requireLen .ethernet b 14
    let smac := be48 b 6
    let et := be16 b 12
    let e := b.drop 14
    match etherClass et with
    | .unknown => return { regs := frameRegs .dropEthertype 0 0 0 (zext64 et) 0 0 0 }
    | .ipv6 => return { regs := frameRegs .dropIpv6 0 0 0 (zext64 et) 0 0 0 }
    | .arp => arpStep s smac e
    | .ipv4 => ip4Step s smac (s.reg 1 + 14#64) e

end Sys2Proof.Machine
end

