-- ==== Sys2Proof/Machine/Dispatch.lean ====
section
/-! DEFINITION. The meaning of each command: one arm per constructor of `Instr` (30_encoding.md R112). -/

namespace Sys2Proof.Machine

def exec (i : Instr) (s : State) : Host.Outcome State Fault Refusal :=
  match i with
  -- checksum (40_checksum.md R176–R180)
  | .ckClear => Sys2Proof.Machine.execCkClear s
  | .ckAccum => Sys2Proof.Machine.execCkAccum s
  | .ckFinal => Sys2Proof.Machine.execCkFinal s
  | .cksum => Sys2Proof.Machine.execCksum s
  | .ckVerify => Sys2Proof.Machine.execCkVerify s
  -- Ethernet (41_ethernet.md R201–R203)
  | .ethParse => Sys2Proof.Machine.execEthParse s
  | .ethClassify => Sys2Proof.Machine.execEthClassify s
  | .ethBuild => Sys2Proof.Machine.execEthBuild s
  -- ARP packet (42_arp.md R222–R227)
  | .arpParse => Sys2Proof.Machine.execArpParse s
  | .arpBuildReq => Sys2Proof.Machine.execArpBuildReq s
  | .arpBuildReply => Sys2Proof.Machine.execArpBuildReply s
  | .arpHandle => Sys2Proof.Machine.execArpHandle s
  -- ARP cache (43_arp_cache.md R255–R259)
  | .arpcInsert => Sys2Proof.Machine.execArpcInsert s
  | .arpcLookup => Sys2Proof.Machine.execArpcLookup s
  | .arpcSweep => Sys2Proof.Machine.execArpcSweep s
  | .arpcRemove => Sys2Proof.Machine.execArpcRemove s
  | .arpcCount => Sys2Proof.Machine.execArpcCount s
  -- IPv4 (44_ipv4.md R292–R294)
  | .ip4Parse => Sys2Proof.Machine.execIp4Parse s
  | .ip4Build => Sys2Proof.Machine.execIp4Build s
  | .ip4Emit => Sys2Proof.Machine.execIp4Emit s
  -- ICMP (45_icmp.md R321–R323)
  | .icmpParse => Sys2Proof.Machine.execIcmpParse s
  | .icmpEmit => Sys2Proof.Machine.execIcmpEmit s
  | .icmpBuildReply => Sys2Proof.Machine.execIcmpBuildReply s
  -- UDP (46_udp.md R341–R343)
  | .udpParse => Sys2Proof.Machine.execUdpParse s
  | .udpBuild => Sys2Proof.Machine.execUdpBuild s
  | .udpBuildEcho => Sys2Proof.Machine.execUdpBuildEcho s
  -- pipeline (47_pipeline.md R361)
  | .processFrame => Sys2Proof.Machine.execProcessFrame s

end Sys2Proof.Machine
end

