-- ==== Sys2Proof/Machine/HostAccess.lean ====
section
/-! DEFINITION. The interactions of the environment with the block (70_reset_and_hazards.md R425): CSR and PBUF accesses,
the tick, the reset, and the start of a command by a CMD write. -/

namespace Sys2Proof.Machine

/-! ### CSR numbers (20_memory.md R82); 0x000–0x01F are X0–X31 -/

namespace Csr
def cmd : CsrNum := 0x020
def status : CsrNum := 0x021
def err : CsrNum := 0x022
def errInfo : CsrNum := 0x023
def ourMac : CsrNum := 0x030
def ourIp : CsrNum := 0x031
def arpTimeout : CsrNum := 0x032
def now : CsrNum := 0x033
def replyTtl : CsrNum := 0x034
def ckState : CsrNum := 0x040
def arpGeom : CsrNum := 0x041
def pbufSize : CsrNum := 0x042
end Csr

/-- ARP_GEOM: ARP_SETS in bits 31:0, ARP_WAYS in bits 63:32 (10_state.md R45). -/
def Params.geometryWord (p : Params) : Word := BitVec.ofNat 32 p.arpWays ++ BitVec.ofNat 32 p.arpSets

/-- The value a CSR read returns (20_memory.md R82): reserved numbers and reserved fields read 0. -/
def State.readCsr (s : State) (n : CsrNum) : Word :=
  if h : n.toNat < 32 then s.reg ⟨n.toNat, h⟩
  else if n = Csr.cmd then zext64 s.cmd
  else if n = Csr.status then s.status.word
  else if n = Csr.err then s.err.word
  else if n = Csr.errInfo then s.errInfo
  else if n = Csr.ourMac then zext64 s.ourMac
  else if n = Csr.ourIp then zext64 s.ourIp
  else if n = Csr.arpTimeout then s.arpTimeout
  else if n = Csr.now then s.now
  else if n = Csr.replyTtl then zext64 s.replyTtl
  else if n = Csr.ckState then s.ck.word
  else if n = Csr.arpGeom then Params.geometryWord s.params
  else if n = Csr.pbufSize then word64 s.params.pbufSize
  else 0#64

/-- A host write of a CSR other than CMD: a RW register stores the value truncated to its fields; RO and reserved numbers
ignore it (20_memory.md R82; 70 R425). -/
def State.writeCsr (s : State) (n : CsrNum) (v : Word) : State :=
  if h : n.toNat < 32 then s.setReg ⟨n.toNat, h⟩ v
  else if n = Csr.ourMac then { s with ourMac := v.setWidth 48 }
  else if n = Csr.ourIp then { s with ourIp := v.setWidth 32 }
  else if n = Csr.arpTimeout then { s with arpTimeout := v }
  else if n = Csr.now then { s with now := v }
  else if n = Csr.replyTtl then { s with replyTtl := v.setWidth 8 }
  else s

/-- A host read: the block changes nothing, the host gets the value (70 R425; log 7). -/
def State.reply (s : State) (r : HostReply) : State := { s with replies := r :: s.replies }

/-- A host write of one PBUF byte (20_memory.md R89). -/
def State.storeByte (s : State) (a : Nat) (b : Byte) : State := { s with pbuf := s.pbuf.write a b }

/-- NOW <- trunc_64(NOW + 1) (10_state.md R46). -/
def State.tick (s : State) : State := { s with now := s.now + 1#64 }

/-- The reset event (70 R420): every element at its reset value, PBUF a new free draw; the parameters stay (R421), and so
does what belongs to the environment: the interactions still to come and the replies it has had (log 5, log 7). -/
def State.resetEvent (s : State) : State :=
  { State.resetWith s.params with
    resetCount := s.resetCount + 1, pending := s.pending, replies := s.replies }

/-- One interaction that starts no command (70 R425). A PBUF access out of range has no move (R426; log 10). -/
def hostAccess (op : HostOp) (s : State) : Result :=
  match op with
  | .csrWrite n v => .next (s.writeCsr n v)
  | .csrRead n => .next (s.reply (.csrValue n (s.readCsr n)))
  | .pbufWrite a b =>
    if a < s.params.pbufSize then .next (s.storeByte a b) else .refused .hostPbufOutOfRange
  | .pbufRead a =>
    if a < s.params.pbufSize then .next (s.reply (.pbufByte a (s.byteAt a))) else .refused .hostPbufOutOfRange
  | .tick => .next s.tick
  | .reset => .next s.resetEvent

/-- The value an interaction writes to CMD, if it is a write of CMD (10_state.md R35). -/
def cmdWrite : HostOp → Option Word
  | .csrWrite n v => if n = Csr.cmd then some v else none
  | .csrRead _ => none
  | .pbufWrite _ _ => none
  | .pbufRead _ => none
  | .tick => none
  | .reset => none

/-- A CMD write stores trunc_32(v) and the engine is busy until the command ends (10_state.md R35, R36). -/
def State.beginCommand (s : State) (v : Word) : State :=
  { s with cmd := v.setWidth 32, status := statusAtStart s.status }

/-- The interaction at the head of the list has been taken. -/
def State.taken (s : State) : State := { s with pending := s.pending.tail }

/-- The interaction of the environment that comes next: the machine's counterpart of fetching (10_state.md R32). -/
def State.nextOp (s : State) : Option HostOp := s.pending.head?

/-- No interaction is pending: the engine is idle and all state is retained (60_exceptions.md R398; log 6). -/
def State.idle (s : State) : State := s

/-- The interaction by which the host issues a command word of `nbits` bits: a write of CMD. -/
def issueOp (nbits w : Nat) : HostOp := .csrWrite Csr.cmd (word64 (w % 2 ^ nbits))

end Sys2Proof.Machine
end

