-- ==== Sys2Proof/Machine/Step.lean ====
section
/-! DEFINITION. One step: the next interaction of the environment, a CMD write together with the whole command it starts
(20_memory.md R81; 70_reset_and_hazards.md R425, R430). -/

namespace Sys2Proof.Machine

/-- A command, from the CMD write of v to its end: one indivisible step (20_memory.md R81). -/
def command (v : Word) (s : State) : Result :=
  match decode (s.beginCommand v).cmd with
  | .ok i => exec i (s.beginCommand v)
  | .error e => illegalCommand e (s.beginCommand v)

/-- One step of the machine. -/
def step (s : State) : Host.Outcome State Fault Refusal :=
  match s.nextOp with
  | none => .next s.idle
  | some op => match cmdWrite op with
    | some v => command v s.taken
    | none => hostAccess op s.taken

/-- The state in which the host's next interaction issues the command word w: the very next step runs it (log 12). -/
def State.withFetchWord (s : State) (nbits w : Nat) : State :=
  { s with pending := issueOp nbits w :: s.pending }

end Sys2Proof.Machine
end

