-- ==== Sys2Proof/Machine/Script.lean ====
section
/-! DEFINITION. Host scripts: the script operations and pseudo-instructions with their expansions into interactions
(30_encoding.md R133, R134), and the reading of a script's text. -/

namespace Sys2Proof.Machine

/-- One operation of a host script (R133), the pseudo-instructions of R134 among them. -/
inductive ScriptOp where
  | csrw (csr : CsrNum) (value : Word)
  | csrr (csr : CsrNum)
  | sb (address : Nat) (bytes : List Byte)
  | lb (address n : Nat)
  | tick (n : Nat)
  | cmd (i : Instr)
  /-- ARP_RESOLVE: ARPC_LOOKUP under the source's name (R134). -/
  | arpResolve
  /-- li x<i>, v. -/
  | li (r : Reg) (value : Word)
  /-- desc a, n: the input descriptor. -/
  | desc (address n : Word)
  /-- out a: the output address. -/
  | out (address : Word)
deriving DecidableEq, Repr

/-- The CSR number of a general register (20_memory.md R82). -/
def Csr.ofReg (r : Reg) : CsrNum := BitVec.ofNat 12 r.val

/-- The interaction that issues a command: a write of its word to CMD (R133). -/
def issue (i : Instr) : HostOp := .csrWrite Csr.cmd (zext64 (encode i))

/-- Writes of consecutive PBUF bytes (R133, `sb`). -/
def storeOps (address : Nat) : List Byte → List HostOp
  | [] => []
  | b :: bs => .pbufWrite address b :: storeOps (address + 1) bs

/-- The interactions a script operation stands for (R133, R134). -/
def ScriptOp.expand : ScriptOp → List HostOp
  | .csrw csr v => [.csrWrite csr v]
  | .csrr csr => [.csrRead csr]
  | .sb a bytes => storeOps a bytes
  | .lb a n => (List.range n).map fun k => .pbufRead (a + k)
  | .tick n => List.replicate n .tick
  | .cmd i => [issue i]
  | .arpResolve => [issue .arpcLookup]
  | .li r v => [.csrWrite (Csr.ofReg r) v]
  | .desc a n => [.csrWrite (Csr.ofReg 1) a, .csrWrite (Csr.ofReg 2) n]
  | .out a => [.csrWrite (Csr.ofReg 3) a]

/-! ### The text of a script -/

/-- The mnemonics of R112. -/
def mnemonic : Instr → String
  | .ckClear => "CK_CLEAR"
  | .ckAccum => "CK_ACCUM"
  | .ckFinal => "CK_FINAL"
  | .cksum => "CKSUM"
  | .ckVerify => "CK_VERIFY"
  | .ethParse => "ETH_PARSE"
  | .ethClassify => "ETH_CLASSIFY"
  | .ethBuild => "ETH_BUILD"
  | .arpParse => "ARP_PARSE"
  | .arpBuildReq => "ARP_BUILD_REQ"
  | .arpBuildReply => "ARP_BUILD_REPLY"
  | .arpHandle => "ARP_HANDLE"
  | .arpcInsert => "ARPC_INSERT"
  | .arpcLookup => "ARPC_LOOKUP"
  | .arpcSweep => "ARPC_SWEEP"
  | .arpcRemove => "ARPC_REMOVE"
  | .arpcCount => "ARPC_COUNT"
  | .ip4Parse => "IP4_PARSE"
  | .ip4Build => "IP4_BUILD"
  | .ip4Emit => "IP4_EMIT"
  | .icmpParse => "ICMP_PARSE"
  | .icmpEmit => "ICMP_EMIT"
  | .icmpBuildReply => "ICMP_BUILD_REPLY"
  | .udpParse => "UDP_PARSE"
  | .udpBuild => "UDP_BUILD"
  | .udpBuildEcho => "UDP_BUILD_ECHO"
  | .processFrame => "PROCESS_FRAME"

/-- The words of a line, in lower case: blanks and commas separate, `;` starts a comment (R133). `cur` is the word being
read, backwards. -/
def splitWords (cur : List Char) : List Char → List (List Char)
  | [] => if cur.isEmpty then [] else [cur.reverse]
  | c :: cs =>
    if c = ';' then (if cur.isEmpty then [] else [cur.reverse])
    else if c = ' ' ∨ c = ',' ∨ c = '\t' then
      (if cur.isEmpty then splitWords [] cs else cur.reverse :: splitWords [] cs)
    else splitWords (c.toLower :: cur) cs

/-- The value of a digit below a base. -/
def digitValue (base : Nat) (c : Char) : Option Nat :=
  let v := if '0' ≤ c ∧ c ≤ '9' then c.toNat - '0'.toNat
    else if 'a' ≤ c ∧ c ≤ 'f' then c.toNat - 'a'.toNat + 10 else 16
  if v < base then some v else none

/-- The number a non-empty run of digits stands for. -/
def digitsValue (base : Nat) : List Char → Option Nat
  | [] => none
  | cs => cs.foldlM (fun acc c => (digitValue base c).map (acc * base + ·)) 0

/-- `0x` is hexadecimal, `0b` binary, otherwise decimal (00_scope.md R12). -/
def readNumber : List Char → Option Nat
  | '0' :: 'x' :: ds => digitsValue 16 ds
  | '0' :: 'b' :: ds => digitsValue 2 ds
  | ds => digitsValue 10 ds

/-- A number of at most w bits. -/
def readBits (w : Nat) (word : List Char) : Option (BitVec w) := do
  let n ← readNumber word
  if n < 2 ^ w then some (BitVec.ofNat w n) else none

/-- `x0` to `x31`. -/
def readReg : List Char → Option Reg
  | 'x' :: ds => do
    let n ← digitsValue 10 ds
    if h : n < 32 then some ⟨n, h⟩ else none
  | _ => none

/-- The names of 10_state.md for the CSRs above the general registers (R133). -/
def csrNames : List (String × CsrNum) :=
  [("cmd", Csr.cmd), ("status", Csr.status), ("err", Csr.err), ("errinfo", Csr.errInfo),
   ("our_mac", Csr.ourMac), ("our_ip", Csr.ourIp), ("arp_timeout", Csr.arpTimeout), ("now", Csr.now),
   ("reply_ttl", Csr.replyTtl), ("ck_state", Csr.ckState), ("arp_geom", Csr.arpGeom), ("pbuf_size", Csr.pbufSize)]

/-- A CSR: a number or a name (R133). -/
def readCsrName (word : List Char) : Option CsrNum :=
  match readReg word with
  | some r => some (Csr.ofReg r)
  | none => match csrNames.find? (fun row => row.1.toList == word) with
    | some row => some row.2
    | none => readBits 12 word

/-- A command's mnemonic, case-insensitive (R133). -/
def readMnemonic (word : List Char) : Option Instr :=
  (opcodeMap.find? fun row => (mnemonic row.2).toList.map Char.toLower == word).map (·.2)

/-- A line of one word: a command's mnemonic, or ARP_RESOLVE (R133, R134). -/
def readBareWord (word : List Char) : Option ScriptOp :=
  if word == "arp_resolve".toList then some .arpResolve else (readMnemonic word).map .cmd

/-- A script operation with its operands (R133, R134). -/
def readOperation (op : List Char) (args : List (List Char)) : Option ScriptOp :=
  if op == "csrw".toList then
    match args with
    | [c, v] => do return .csrw (← readCsrName c) (← readBits 64 v)
    | _ => none
  else if op == "csrr".toList then
    match args with
    | [c] => do return .csrr (← readCsrName c)
    | _ => none
  else if op == "sb".toList then
    match args with
    | a :: b :: bs => do return .sb (← readNumber a) (← (b :: bs).mapM (readBits 8))
    | _ => none
  else if op == "lb".toList then
    match args with
    | [a, n] => do return .lb (← readNumber a) (← readNumber n)
    | _ => none
  else if op == "tick".toList then
    match args with
    | [n] => do return .tick (← readNumber n)
    | _ => none
  else if op == "cmd".toList then
    match args with
    | [m] => do return .cmd (← readMnemonic m)
    | _ => none
  else if op == "li".toList then
    match args with
    | [r, v] => do return .li (← readReg r) (← readBits 64 v)
    | _ => none
  else if op == "desc".toList then
    match args with
    | [a, n] => do return .desc (← readBits 64 a) (← readBits 64 n)
    | _ => none
  else if op == "out".toList then
    match args with
    | [a] => do return .out (← readBits 64 a)
    | _ => none
  else none

/-- The interactions of one line of a script; an empty line or a comment has none, and a line that is no script operation
is not read (R133). -/
def assembleLine (line : String) : Option (List HostOp) :=
  match splitWords [] line.toList with
  | [] => some []
  | [w] => (readBareWord w).map ScriptOp.expand
  | w :: args => (readOperation w args).map ScriptOp.expand

/-- The interactions of a script, line by line (R133). -/
def assemble (lines : List String) : Option (List HostOp) :=
  (lines.mapM assembleLine).map List.flatten

end Sys2Proof.Machine
end

