-- ==== Sys2Proof/Safety.lean ====
section
/-! DEFINITION. The terms claims are written in: how a command ends and what it leaves alone, the invariant of the
machine, the clean entry of a run, and the source's map that the ARP cache stands for. -/

namespace Sys2Proof.Machine

/-! ### How a command ends (60_exceptions.md R384) -/

/-- The report of a command that succeeds: DONE = 1, FAIL = 0, LAST_OPC, ERR = 0 and ERRINFO = 0 (R384). -/
def Completed (s t : State) : Prop :=
  t.status = { busy := false, done := true, fail := false, lastOpc := s.cmd.setWidth 8 }
    ∧ t.err = { code := 0#8, sub := 0#8, layer := 0#8 } ∧ t.errInfo = 0#64

/-- The state a failing command leaves: the report, and everything else as before the command (R384). -/
def State.report (s : State) (code sub layer : BitVec 8) (info : Word) : State :=
  { s with
    status := { busy := false, done := true, fail := true, lastOpc := s.cmd.setWidth 8 }
    err := { code := code, sub := sub, layer := layer }
    errInfo := info }

/-- What no command ever changes, and every general register but the named results. -/
structure Keeps (s t : State) (results : List Reg) : Prop where
  regs : ∀ r, r ∉ results → t.reg r = s.reg r
  params : t.params = s.params
  cmd : t.cmd = s.cmd
  ourMac : t.ourMac = s.ourMac
  ourIp : t.ourIp = s.ourIp
  arpTimeout : t.arpTimeout = s.arpTimeout
  now : t.now = s.now
  replyTtl : t.replyTtl = s.replyTtl
  resetCount : t.resetCount = s.resetCount
  pending : t.pending = s.pending
  replies : t.replies = s.replies

/-- Every byte of PBUF reads as before. -/
def SamePbuf (s t : State) : Prop := ∀ a, t.byteAt a = s.byteAt a

/-- The bytes stand at addr, and every byte of PBUF outside them reads as before. -/
def Stored (s t : State) (addr : Nat) (bytes : List Byte) : Prop :=
  (∀ k, (h : k < bytes.length) → t.byteAt (addr + k) = bytes[k])
    ∧ ∀ a, a < addr ∨ addr + bytes.length ≤ a → t.byteAt a = s.byteAt a

/-- A command that succeeds and writes the named registers and nothing else. -/
def WritesOnly (s t : State) (results : List Reg) : Prop :=
  Completed s t ∧ Keeps s t results ∧ t.ck = s.ck ∧ t.cache = s.cache ∧ SamePbuf s t

/-- A builder that succeeds: its bytes at X3, their number in X0, and nothing else (10_state.md R33). -/
def Builds (s t : State) (bytes : List Byte) : Prop :=
  Completed s t ∧ Keeps s t [0] ∧ t.ck = s.ck ∧ t.cache = s.cache
    ∧ t.reg 0 = word64 bytes.length ∧ Stored s t (s.reg 3).toNat bytes

/-- The registers a command writes: the X registers of the column "results written" of 30_encoding.md R112. -/
def resultsOf : Instr → List Reg
  | .ckClear => []
  | .ckAccum => []
  | .ckFinal => [0, 16]
  | .cksum => [0, 16]
  | .ckVerify => [0, 16]
  | .ethParse => [16, 17, 18, 19, 28, 29]
  | .ethClassify => [0]
  | .ethBuild => [0]
  | .arpParse => [16, 17, 18, 19, 20, 21, 22, 23, 24, 25]
  | .arpBuildReq => [0]
  | .arpBuildReply => [0]
  | .arpHandle => [0]
  | .arpcInsert => [0]
  | .arpcLookup => [0, 16]
  | .arpcSweep => [0]
  | .arpcRemove => [0]
  | .arpcCount => [0]
  | .ip4Parse => [16, 17, 18, 19, 20, 21, 22, 23, 24, 25, 26, 27, 28, 29, 30, 31]
  | .ip4Build => [0]
  | .ip4Emit => [0]
  | .icmpParse => [16, 17, 18, 19, 20, 21, 28, 29]
  | .icmpEmit => [0]
  | .icmpBuildReply => [0]
  | .udpParse => [16, 17, 18, 19, 28, 29]
  | .udpBuild => [0]
  | .udpBuildEcho => [0]
  | .processFrame => [0, 16, 17, 18, 19, 20, 28, 29]

/-- The register in which a command that stores reports the number of bytes stored: X16 of PROCESS_FRAME (47_pipeline.md
R362), X0 of the builders and of ARP_HANDLE (10_state.md R33; 42_arp.md R227). -/
def countReg (i : Instr) : Reg := if i = .processFrame then 16 else 0

/-- The input descriptor (X1, X2) is in range (20_memory.md R83). -/
def InputInRange (s : State) : Prop := (s.reg 1).toNat + (s.reg 2).toNat ≤ s.params.pbufSize

/-- n bytes at the output address X3 are in range (20_memory.md R83). -/
def OutputInRange (s : State) (n : Nat) : Prop := (s.reg 3).toNat + n ≤ s.params.pbufSize

/-- The bytes the input descriptor names. -/
def inputBytes (s : State) : List Byte := s.bytesAt (s.reg 1).toNat (s.reg 2).toNat

/-! ### The invariant -/

/-- Entry (set, way) of the cache array (10_state.md R49). -/
def Cache.slot (c : Cache) (set way : Nat) : Slot := (c.ways set).getD way none

/-- The shape of the cache array, and key uniqueness (10_state.md R49; 43_arp_cache.md R252). -/
structure CacheInv (p : Params) (c : Cache) : Prop where
  /-- ARP_SETS sets. -/
  sets : c.length = p.arpSets
  /-- ARP_WAYS ways in each. -/
  ways : ∀ ws ∈ c, ws.length = p.arpWays
  /-- A valid entry is in the set of its address. -/
  placed : ∀ set way e, c.slot set way = some e → set = setIndex p e.ip
  /-- Two valid entries of a set have different addresses. -/
  unique : ∀ set way way' e e', c.slot set way = some e → c.slot set way' = some e' → e.ip = e'.ip → way = way'

/-- What holds of the machine between any two steps. -/
structure MachineInv (s : State) : Prop where
  /-- The parameters are legal (00_scope.md R10). -/
  legal : s.params.legal = true
  /-- PBUF's written bytes are in canonical form (log 4). -/
  canonical : Memory.wf s.pbuf
  /-- Every written byte lies in PBUF (20_memory.md R80). -/
  within : Memory.within s.pbuf s.params.pbufSize
  /-- The cache (43_arp_cache.md R252). -/
  cache : CacheInv s.params s.cache
  /-- BUSY is never observed (20_memory.md R81). -/
  idle : s.status.busy = false
  /-- LAST_OPC is bits 7:0 of the last command word (10_state.md R36). -/
  lastOpc : s.status.lastOpc = s.cmd.setWidth 8
  /-- FAIL = 1 exactly while ERR reports an error (60_exceptions.md R384). -/
  failReported : s.status.fail = true ↔ s.err.code ≠ 0#8
  /-- With no error reported, ERR and ERRINFO are 0 (10_state.md R37, R38). -/
  noError : s.err.code = 0#8 → s.err.sub = 0#8 ∧ s.err.layer = 0#8 ∧ s.errInfo = 0#64
  /-- ERR.CODE never holds a reserved code (60_exceptions.md R380; 93 U14). -/
  codes : s.err.code ∈ [0x00#8, 0x01#8, 0x10#8, 0x11#8, 0x12#8]
  /-- Before the first command STATUS is 0 (10_state.md R36). -/
  notDone : s.status.done = false → s.cmd = 0#32 ∧ s.status.fail = false

/-! ### Runs -/

/-- The clean entry of a run: the reset state, then any boot writes of OUR_MAC, OUR_IP, ARP_TIMEOUT, NOW and REPLY_TTL
(70_reset_and_hazards.md R423, R424). -/
def TpeClean (s : State) : Prop :=
  s.params.legal = true ∧
  s = { State.resetWith s.params with
        ourMac := s.ourMac, ourIp := s.ourIp, arpTimeout := s.arpTimeout, now := s.now, replyTtl := s.replyTtl
        resetCount := s.resetCount, pending := s.pending, replies := s.replies }

/-- A run: every interaction of the list performed, in order (R427). -/
def runOps (s : State) (ops : List HostOp) : Result := Host.Core.run core ops.length { s with pending := ops }

/-! ### The source's ARP cache (43_arp_cache.md R262) -/

/-- "mapping from IPv4 address to (MAC address, timestamp-of-insertion), keys unique", unbounded. -/
abbrev SourceMap := BitVec 32 → Option (BitVec 48 × Word)

/-- "unconditionally overwrites any existing entry for `ip`". -/
def SourceMap.insert (m : SourceMap) (ip : BitVec 32) (mac : BitVec 48) (now : Word) : SourceMap :=
  fun k => if k = ip then some (mac, now) else m k

/-- The entry for ip, removed. -/
def SourceMap.remove (m : SourceMap) (ip : BitVec 32) : SourceMap := fun k => if k = ip then none else m k

/-- The entries with `now - timestamp < timeout`: what a sweep leaves. -/
def SourceMap.liveAt (m : SourceMap) (now timeout : Word) : SourceMap :=
  fun k => (m k).filter fun e => decide (age now e.2 < timeout.toNat)

/-- What a command that ended in t inserted, if anything (43_arp_cache.md R256; 42_arp.md R227; 47_pipeline.md R363). -/
def insertedBy (i : Instr) (s t : State) : Option (BitVec 32 × BitVec 48) :=
  match i with
  | .arpcInsert => some ((s.reg 4).setWidth 32, (s.reg 5).setWidth 48)
  | .arpHandle => if t.status.fail then none else some (be32 (inputBytes s) 14, be48 (inputBytes s) 8)
  | .processFrame =>
    if t.status.fail = false ∧ be16 (inputBytes s) 12 = 0x0806 then some (be32 (inputBytes s) 28, be48 (inputBytes s) 22)
    else none
  | .ckClear | .ckAccum | .ckFinal | .cksum | .ckVerify | .ethParse | .ethClassify | .ethBuild | .arpParse | .arpBuildReq
  | .arpBuildReply | .arpcLookup | .arpcSweep | .arpcRemove | .arpcCount | .ip4Parse | .ip4Build | .ip4Emit | .icmpParse
  | .icmpEmit | .icmpBuildReply | .udpParse | .udpBuild | .udpBuildEcho => none

/-- The code R256 returns for an insert of (ip, mac): 3 displaces a live entry. -/
def State.insertCode (s : State) (ip : BitVec 32) (mac : BitVec 48) : Nat :=
  (cacheInsert s.params s.arpTimeout s.now s.cache ip mac).2

/-- The source's map after the command i, from s to t: what was inserted overwrites; a lookup removes a stale entry; a
sweep leaves the live ones; an eviction removes. -/
def SourceMap.afterCommand (m : SourceMap) (i : Instr) (s t : State) : SourceMap :=
  let ip := (s.reg 4).setWidth 32
  match insertedBy i s t with
  | some (ip, mac) => m.insert ip mac s.now
  | none =>
    if i = .arpcLookup then (if (m.liveAt s.now s.arpTimeout ip).isSome then m else m.remove ip)
    else if i = .arpcSweep then m.liveAt s.now s.arpTimeout
    else if i = .arpcRemove then m.remove ip
    else m

/-- The command the next step runs, if its interaction writes a decodable word to CMD. -/
def State.nextCommand (s : State) : Option Instr :=
  match s.nextOp with
  | some (.csrWrite n v) => if n = 0x020 then (decode (v.setWidth 32)).toOption else none
  | _ => none

/-- The source's map after the step from s to t: empty after a reset, else as the step's command leaves it. -/
def SourceMap.afterStep (m : SourceMap) (s t : State) : SourceMap :=
  if s.nextOp = some .reset then fun _ => none
  else match s.nextCommand with
    | some i => m.afterCommand i s t
    | none => m

/-- The live entry of the engine's cache for ip, if any: its MAC and TS. -/
def State.liveEntry (s : State) (ip : BitVec 32) : Option (BitVec 48 × Word) :=
  match s.cache.find s.params ip with
  | none => none
  | some (_, e) => if e.live s.now s.arpTimeout then some (e.mac, e.ts) else none

/-- The engine's cache and the source's map have the same live entries. -/
def AgreesWith (s : State) (m : SourceMap) : Prop :=
  ∀ ip, s.liveEntry ip = m.liveAt s.now s.arpTimeout ip

end Sys2Proof.Machine
end

