-- ==== Sys2Proof/Certificates/Slice0/Obligations.lean ====
section
/-! DEFINITION. The statements about the machine, each with the rule or section of spec/ it formalises. `log n` is
notes/assumptions/n.md; a statement that rests on such an entry says so. -/

open Sys2Proof Sys2Proof.Machine

/-! ## Encoding and decoding -/

/-- 30_encoding.md section 1: encoding a command and decoding the word gives the command back, and no other word decodes
to it. -/
def Obligations.DecodeAndEncodeAgree : Prop :=
  (∀ i, decode (encode i) = .ok i) ∧ ∀ w i, decode w = .ok i → w = encode i

/-- 30_encoding.md R113: every unassigned OPC and every word with RSV ≠ 0 is illegal, and every other word is a command;
R111: the reserved bits are looked at first. -/
def Obligations.ReservedWordsAreIllegal : Prop :=
  ∀ w : BitVec 32,
    (decode w = .error .reservedBits ↔ w.extractLsb' 8 24 ≠ 0#24) ∧
    (decode w = .error .unknownOpc ↔ w.extractLsb' 8 24 = 0#24 ∧ opcReserved (w.extractLsb' 0 8) = true) ∧
    (wordWellFormed w = true → ∃ i, decode w = .ok i)

/-- Command words written out from the table of 30_encoding.md R112, one for each family. -/
def Obligations.WrittenOutWordsDecode : Prop :=
  decode 0b00000000000000000000000000000010#32 = .ok .ckAccum ∧
  decode 0b00000000000000000000000000010001#32 = .ok .ethClassify ∧
  decode 0b00000000000000000000000000100011#32 = .ok .arpHandle ∧
  decode 0b00000000000000000000000000101010#32 = .ok .arpcSweep ∧
  decode 0b00000000000000000000000000110010#32 = .ok .ip4Emit ∧
  decode 0b00000000000000000000000001000010#32 = .ok .icmpBuildReply ∧
  decode 0b00000000000000000000000001010001#32 = .ok .udpBuild ∧
  decode 0b00000000000000000000000001100000#32 = .ok .processFrame

/-! ## The step -/

/-- When the host's next interaction writes CMD with a word that decodes to a command, the step is that command at the
state whose CMD holds the word, whose interaction has been taken and whose BUSY is 1 (10_state.md R35, R36; the list of
interactions is the model's, log 5). -/
def Obligations.StepRunsTheDecodedCommand : Prop :=
  ∀ (s : State) (v : Word) (rest : List HostOp) (i : Instr),
    s.pending = .csrWrite 0x020 v :: rest → decode (v.setWidth 32) = .ok i →
    step s = exec i { s with pending := rest, cmd := v.setWidth 32, status := { s.status with busy := true } }

/-- 30_encoding.md R111: a word with c[31:8] ≠ 0 raises IllegalCommand sub 1; a word whose OPC is not assigned raises
IllegalCommand sub 0; ERRINFO is the word; else the command of that OPC executes (log 5). -/
def Obligations.CmdWriteDecodesAsRuled : Prop :=
  ∀ (s : State) (v : Word) (rest : List HostOp) (c : BitVec 32),
    s.pending = .csrWrite 0x020 v :: rest → c = v.setWidth 32 →
    let s1 := { s with pending := rest, cmd := c, status := { s.status with busy := true } }
    (c.extractLsb' 8 24 ≠ 0#24 → step s = .next (s1.report 0x10 1 6 (c.setWidth 64))) ∧
    (c.extractLsb' 8 24 = 0#24 → (∀ i, opcOf i ≠ c.extractLsb' 0 8) →
      step s = .next (s1.report 0x10 0 6 (c.setWidth 64))) ∧
    (∀ i, c.extractLsb' 8 24 = 0#24 → opcOf i = c.extractLsb' 0 8 → step s = exec i s1)

/-- 70_reset_and_hazards.md R426: a host PBUF access at an address ≥ PBUF_SIZE has no move, and nothing else has none
(log 5, log 10). -/
def Obligations.OnlyHostPbufOutOfRangeIsRefused : Prop :=
  ∀ (s : State) (r : Refusal),
    step s = .refused r ↔
      r = .hostPbufOutOfRange ∧ ∃ a rest, s.params.pbufSize ≤ a ∧
        (s.pending = .pbufRead a :: rest ∨ ∃ b, s.pending = .pbufWrite a b :: rest)

/-- The invariant holds after reset, for every legal choice of the parameters, and so of `State.reset`; and at the clean
entry of a run (70_reset_and_hazards.md section 2). -/
def Obligations.ResetMeetsTheInvariant : Prop :=
  (∀ p : Params, p.legal = true → MachineInv (State.resetWith p)) ∧ MachineInv State.reset ∧
    ∀ s : State, TpeClean s → MachineInv s

/-- Every step keeps the invariant: legal parameters, PBUF's canonical form (log 4) and bounds, the cache's shape and the
uniqueness of its keys (43_arp_cache.md R252), BUSY = 0 (log 8), LAST_OPC (log 11), and an error report that agrees with STATUS. -/
def Obligations.StepKeepsTheInvariant : Prop :=
  ∀ s t, MachineInv s → step s = .next t → MachineInv t

/-! ## Reset and the host's interactions -/

/-- 10_state.md R54: the reset event happens, and gives every state element the value of the table; of PBUF no byte has a
value of its own (log 3, log 5; the 64 of REPLY_TTL is general knowledge of the spec's, log 16). -/
def Obligations.ResetGivesTheTableValues : Prop :=
  ∀ (s : State) (rest : List HostOp), s.pending = .reset :: rest →
    ∃ t, step s = .next t ∧
      (∀ r, t.reg r = 0#64) ∧ t.cmd = 0#32
      ∧ t.status = { busy := false, done := false, fail := false, lastOpc := 0#8 }
      ∧ t.err = { code := 0#8, sub := 0#8, layer := 0#8 } ∧ t.errInfo = 0#64
      ∧ t.ourMac = 0#48 ∧ t.ourIp = 0#32 ∧ t.arpTimeout = s.params.arpTimeoutReset ∧ t.now = 0#64
      ∧ t.replyTtl = 64#8 ∧ t.ck = { acc := 0#16, pv := false, pb := 0#8 } ∧ t.params = s.params
      ∧ t.cache.length = s.params.arpSets
      ∧ (∀ ws ∈ t.cache, ws.length = s.params.arpWays ∧ ∀ slot ∈ ws, slot = none)
      ∧ t.pbuf = []

/-- 10_state.md R46: a tick adds 1 to NOW, modulo 2^64, and changes nothing else; no tick takes effect during a command, so
a command leaves NOW alone (log 5). -/
def Obligations.TickAdvancesNow : Prop :=
  (∀ (s : State) (rest : List HostOp), s.pending = .tick :: rest →
    ∃ n : Word, n.toNat = (s.now.toNat + 1) % 2 ^ 64 ∧ step s = .next { s with pending := rest, now := n }) ∧
  ∀ i s t, exec i s = .next t → t.now = s.now

/-- 20_memory.md R82: a CSR write changes that register's defined fields alone; writes to RO and reserved numbers are
ignored. (A write of CMD also starts a command: StepRunsTheDecodedCommand; log 5.) -/
def Obligations.CsrWritesStoreDefinedFields : Prop :=
  ∀ (s : State) (n : CsrNum) (v : Word) (rest : List HostOp), s.pending = .csrWrite n v :: rest → n ≠ 0x020 →
    ∃ t, step s = .next t ∧
      (n.toNat < 32 → t = { s with pending := rest, x := s.x.set (n.toNat % 32) v (Nat.mod_lt _ (by decide)) }) ∧
      (n = 0x030 → t = { s with pending := rest, ourMac := v.extractLsb' 0 48 }) ∧
      (n = 0x031 → t = { s with pending := rest, ourIp := v.extractLsb' 0 32 }) ∧
      (n = 0x032 → t = { s with pending := rest, arpTimeout := v }) ∧
      (n = 0x033 → t = { s with pending := rest, now := v }) ∧
      (n = 0x034 → t = { s with pending := rest, replyTtl := v.extractLsb' 0 8 }) ∧
      (32 ≤ n.toNat → n ∉ [0x030, 0x031, 0x032, 0x033, 0x034] → t = { s with pending := rest })

/-- 20_memory.md R82 and 10_state.md R35–R45: what a CSR read returns, field by field; reserved numbers and fields read 0;
a read changes nothing (the reply is the model's record of it, log 7; log 5). -/
def Obligations.CsrReadsReturnTheirFields : Prop :=
  ∀ (s : State) (n : CsrNum) (rest : List HostOp), s.pending = .csrRead n :: rest →
    ∃ v : Word, step s = .next { s with pending := rest, replies := .csrValue n v :: s.replies } ∧
      (∀ h : n.toNat < 32, v = s.x[n.toNat]) ∧
      (n = 0x020 → v.toNat = s.cmd.toNat) ∧
      (n = 0x021 → v.toNat = s.status.lastOpc.toNat * 2 ^ 8 + s.status.fail.toNat * 4 + s.status.done.toNat * 2
        + s.status.busy.toNat) ∧
      (n = 0x022 → v.toNat = s.err.layer.toNat * 2 ^ 16 + s.err.sub.toNat * 2 ^ 8 + s.err.code.toNat) ∧
      (n = 0x023 → v = s.errInfo) ∧
      (n = 0x030 → v.toNat = s.ourMac.toNat) ∧
      (n = 0x031 → v.toNat = s.ourIp.toNat) ∧
      (n = 0x032 → v = s.arpTimeout) ∧
      (n = 0x033 → v = s.now) ∧
      (n = 0x034 → v.toNat = s.replyTtl.toNat) ∧
      (n = 0x040 → v.toNat = s.ck.pb.toNat * 2 ^ 24 + s.ck.pv.toNat * 2 ^ 16 + s.ck.acc.toNat) ∧
      (n = 0x041 → s.params.legal = true → v.toNat = s.params.arpWays * 2 ^ 32 + s.params.arpSets) ∧
      (n = 0x042 → s.params.legal = true → v.toNat = s.params.pbufSize) ∧
      (32 ≤ n.toNat → n ∉ [0x020, 0x021, 0x022, 0x023, 0x030, 0x031, 0x032, 0x033, 0x034, 0x040, 0x041, 0x042] → v = 0#64)

/-- Host PBUF accesses in range (70_reset_and_hazards.md section 3; 20_memory.md section 2): a write stores its byte alone,
a read returns the byte and changes nothing (the reply is the model's record of it, log 7; log 5). -/
def Obligations.HostPbufAccessesMoveOneByte : Prop :=
  ∀ (s : State) (a : Nat) (rest : List HostOp), a < s.params.pbufSize →
    (∀ b, s.pending = .pbufWrite a b :: rest →
      ∃ t, step s = .next t ∧ t = { s with pending := rest, pbuf := t.pbuf } ∧ t.byteAt a = b ∧
        ∀ a', a' ≠ a → t.byteAt a' = s.byteAt a') ∧
    (s.pending = .pbufRead a :: rest →
      step s = .next { s with pending := rest, replies := .pbufByte a (s.byteAt a) :: s.replies })

/-- The script operation `sb` (30_encoding.md section 3), run as one host write after another (70_reset_and_hazards.md
section 3; the list of interactions is the model's, log 5): bytes that fit in PBUF are stored, and nothing else changes. -/
def Obligations.ScriptStoreWritesItsBytes : Prop :=
  ∀ (s : State) (a : Nat) (bytes : List Byte), Memory.wf s.pbuf → a + bytes.length ≤ s.params.pbufSize →
    ∃ t, runOps s (ScriptOp.sb a bytes).expand = .next t ∧ t = { s with pending := [], pbuf := t.pbuf } ∧
      Memory.wf t.pbuf ∧ Stored s t a bytes

/-! ## What every command does and does not do -/

/-- 60_exceptions.md R384: every command ends in a next state; a failing one writes STATUS, ERR and ERRINFO and nothing
else; a successful one writes STATUS, ERR ← 0 and ERRINFO ← 0; no host interaction but a CMD write (or the reset) clears
the report (log 5, log 11). -/
def Obligations.FailedCommandChangesOnlyTheReport : Prop :=
  (∀ i s, ∃ t, exec i s = .next t ∧
    (t.status.fail = true →
      t = { s with status := t.status, err := t.err, errInfo := t.errInfo } ∧
      t.status = { busy := false, done := true, fail := true, lastOpc := s.cmd.setWidth 8 } ∧ t.err.code ≠ 0#8) ∧
    (t.status.fail = false → Completed s t)) ∧
  ∀ (s t : State) (op : HostOp) (rest : List HostOp), s.pending = op :: rest → op ≠ .reset →
    (∀ v, op ≠ .csrWrite 0x020 v) → step s = .next t →
    t.status = s.status ∧ t.err = s.err ∧ t.errInfo = s.errInfo

/-- The frame of every command: it leaves every register but its results (the column "results written" of 30_encoding.md
section 1), the CSRs the host configures, NOW, CMD, the parameters and the environment's lists alone (10_state.md section 1
and section 2); only the commands named here write the accumulator, the cache or PBUF (10_state.md section 3); and a command
that stores changes no byte outside those it reports, from X3 on: X0 of them, X16 for PROCESS_FRAME, none if it fails. -/
def Obligations.CommandFrames : Prop :=
  ∀ i s t, exec i s = .next t →
    Keeps s t (resultsOf i) ∧
    (i ∉ [.ckClear, .ckAccum, .cksum, .ckVerify] → t.ck = s.ck) ∧
    (i ∉ [.arpcInsert, .arpcLookup, .arpcSweep, .arpcRemove, .arpHandle, .processFrame] → t.cache = s.cache) ∧
    (i ∉ [.ethBuild, .arpBuildReq, .arpBuildReply, .arpHandle, .ip4Build, .ip4Emit, .icmpEmit, .icmpBuildReply,
      .udpBuild, .udpBuildEcho, .processFrame] → SamePbuf s t) ∧
    (t.status.fail = true → SamePbuf s t) ∧
    (s.params.legal = true → ∀ a, a < (s.reg 3).toNat ∨ (s.reg 3).toNat + (t.reg (countReg i)).toNat ≤ a →
      t.byteAt a = s.byteAt a)

/-- "Operand registers and result registers are disjoint" (10_state.md section 1): what X0 and X16–X31 hold before a command
changes nothing but what the registers it does not write hold after it. -/
def Obligations.ResultRegistersAreNeverRead : Prop :=
  ∀ i s r v t, (r.val = 0 ∨ 16 ≤ r.val) → exec i s = .next t →
    ∃ t', exec i (s.setReg r v) = .next t' ∧ t' = { t with x := t'.x } ∧
      (∀ q, q ≠ r → t'.reg q = t.reg q) ∧ (t'.reg r = t.reg r ∨ t'.reg r = v ∧ t.reg r = s.reg r)

/-- 20_memory.md R84 with 60_exceptions.md R383: an input descriptor that runs past PBUF_SIZE raises BufferRange sub 0 with
ERRINFO = X1, before any other check of the command. -/
def Obligations.InputOutOfRangeIsReportedFirst : Prop :=
  ∀ (s : State) (i : Instr), ¬ InputInRange s →
    i ∈ [.ckAccum, .cksum, .ckVerify, .ethParse, .ethBuild, .arpParse, .arpBuildReply, .arpHandle, .ip4Parse, .ip4Build,
      .ip4Emit, .icmpParse, .icmpEmit, .icmpBuildReply, .udpParse, .udpBuild, .udpBuildEcho, .processFrame] →
    exec i s = .next (s.report 0x11 0 6 (s.reg 1))

/-- The input checks of 60_exceptions.md section 1 (InvalidPacket): an input in range but shorter than its layer's header
is sub 0 of that layer, with ERRINFO the bytes needed above the bytes available; an IPv4 header with IHL < 5 is sub 1, and
then one whose IHL · 4 bytes run past the input is sub 2, in IP4_PARSE and in PROCESS_FRAME alike. -/
def Obligations.MalformedInputIsInvalidPacket : Prop :=
  (∀ (s : State) (i : Instr) (layer : BitVec 8) (need : Nat), s.params.legal = true → InputInRange s →
    (i, layer, need) ∈ [(.ethParse, 1#8, 14), (.arpParse, 2#8, 28), (.arpBuildReply, 2#8, 28), (.arpHandle, 2#8, 28),
      (.ip4Parse, 3#8, 20), (.icmpParse, 4#8, 8), (.icmpBuildReply, 4#8, 8), (.udpParse, 5#8, 8),
      (.udpBuildEcho, 5#8, 8), (.processFrame, 1#8, 14)] →
    (s.reg 2).toNat < need →
    exec i s = .next (s.report 0x01 0 layer (BitVec.ofNat 64 (need * 2 ^ 32 + (s.reg 2).toNat)))) ∧
  (∀ s : State, s.params.legal = true → InputInRange s → 20 ≤ (s.reg 2).toNat →
    let ihl := ((inputBytes s).getD 0 0).toNat % 16
    (ihl < 5 → exec .ip4Parse s = .next (s.report 0x01 1 3 (BitVec.ofNat 64 (ihl * 2 ^ 32 + (s.reg 2).toNat)))) ∧
    (5 ≤ ihl → (s.reg 2).toNat < ihl * 4 →
      exec .ip4Parse s = .next (s.report 0x01 2 3 (BitVec.ofNat 64 (ihl * 4 * 2 ^ 32 + (s.reg 2).toNat))))) ∧
  ∀ s : State, s.params.legal = true → InputInRange s → 14 ≤ (s.reg 2).toNat → be16 (inputBytes s) 12 = 0x0800 →
    let n := (s.reg 2).toNat - 14
    let ihl := ((inputBytes s).getD 14 0).toNat % 16
    (n < 20 → exec .processFrame s = .next (s.report 0x01 0 3 (BitVec.ofNat 64 (20 * 2 ^ 32 + n)))) ∧
    (20 ≤ n → ihl < 5 → exec .processFrame s = .next (s.report 0x01 1 3 (BitVec.ofNat 64 (ihl * 2 ^ 32 + n)))) ∧
    (20 ≤ n → 5 ≤ ihl → n < ihl * 4 →
      exec .processFrame s = .next (s.report 0x01 2 3 (BitVec.ofNat 64 (ihl * 4 * 2 ^ 32 + n))))

/-- The output check of every builder, the last of its checks: bytes that would run past PBUF_SIZE raise BufferRange sub 1
with ERRINFO = X3, and nothing is written (20_memory.md section 2; 60_exceptions.md section 1). ARP_BUILD_REQ reads no input
descriptor; for the other builders the input is in range. -/
def Obligations.OutputOutOfRangeIsReported : Prop :=
  ∀ (s : State) (i : Instr) (n : Nat), ¬ OutputInRange s n →
    (i = .arpBuildReq ∧ n = 28 ∨ InputInRange s ∧
      ((i = .ethBuild ∧ n = 14 + (s.reg 2).toNat)
      ∨ (i = .arpBuildReply ∧ 28 ≤ (s.reg 2).toNat ∧ n = 28)
      ∨ (i = .ip4Build ∧ n = 20 + (s.reg 2).toNat ∧ n ≤ 0xFFFF) ∨ (i = .ip4Emit ∧ n = 20 + (s.reg 2).toNat)
      ∨ (i = .icmpEmit ∧ n = 8 + (s.reg 2).toNat) ∨ (i = .icmpBuildReply ∧ 8 ≤ n ∧ n = (s.reg 2).toNat)
      ∨ (i = .udpBuild ∧ n = 8 + (s.reg 2).toNat ∧ n ≤ 0xFFFF)
      ∨ (i = .udpBuildEcho ∧ 8 ≤ n ∧ n = (s.reg 2).toNat ∧ n ≤ 0xFFFF))) →
    exec i s = .next (s.report 0x11 1 6 (s.reg 3))

/-- A length that does not fit 16 bits raises LengthOverflow, with ERRINFO the length, whatever X3 holds (44_ipv4.md,
46_udp.md section on building; 60_exceptions.md section 1). -/
def Obligations.OverlongBuildIsLengthOverflow : Prop :=
  ∀ s : State, InputInRange s →
    (0xFFFF < 20 + (s.reg 2).toNat → exec .ip4Build s = .next (s.report 0x12 0 3 (20 + s.reg 2))) ∧
    (0xFFFF < 8 + (s.reg 2).toNat → exec .udpBuild s = .next (s.report 0x12 1 5 (8 + s.reg 2))) ∧
    (0xFFFF < (s.reg 2).toNat → exec .udpBuildEcho s = .next (s.report 0x12 1 5 (s.reg 2)))

/-! ## Byte sequences -/

/-- 00_scope.md R13: be16, be32 and be48 are big-endian values, and put16, put32, put48 give the bytes back. -/
def Obligations.FieldsAreBigEndian : Prop :=
  (∀ b k, (be16 b k).toNat = (b.getD k 0).toNat * 256 + (b.getD (k + 1) 0).toNat) ∧
  (∀ b k, (be32 b k).toNat = (be16 b k).toNat * 65536 + (be16 b (k + 2)).toNat) ∧
  (∀ b k, (be48 b k).toNat = (be16 b k).toNat * 2 ^ 32 + (be32 b (k + 2)).toNat) ∧
  (∀ v rest, be16 (put16 v ++ rest) 0 = v) ∧ (∀ v rest, be32 (put32 v ++ rest) 0 = v) ∧
  ∀ v rest, be48 (put48 v ++ rest) 0 = v

/-! ## The checksum -/

/-- 40_checksum.md section 1: osum is the sum over the word positions k < ⌈n/2⌉, folded to 16 bits with end-around carry, and
cksum its complement. The fold is stated in the form that section 2 derives in R172: the unique value of 0 … 0xFFFF that is
congruent to the sum mod 0xFFFF and is 0 only when the sum is 0. -/
def Obligations.OsumFoldsTheWordSum : Prop :=
  ∀ b : List Byte,
    let S := ((List.range ((b.length + 1) / 2)).map fun k => (b.getD (2 * k) 0).toNat * 256 + (b.getD (2 * k + 1) 0).toNat).sum
    osum b ≤ 0xFFFF ∧ osum b % 0xFFFF = S % 0xFFFF ∧ (osum b = 0 ↔ S = 0) ∧ (S ≤ 0xFFFF → osum b = S) ∧
      (cksum b).toNat = 0xFFFF - osum b

/-- The law of 40_checksum.md section 2: the streaming accumulator computes osum, wherever the pieces of the sequence are
cut. -/
def Obligations.StreamedSumIsOsum : Prop :=
  ∀ (b : List Byte) (pieces : List (List Byte)), pieces.flatten = b →
    ((pieces.foldl Accumulator.feedAll Accumulator.clear).fin).toNat = osum b

/-- The verification form of 40_checksum.md section 2: a sequence whose checksum stands at an even offset sums to 0xFFFF. -/
def Obligations.EmbeddedChecksumSumsToAllOnes : Prop :=
  ∀ (b : List Byte) (k : Nat), k % 2 = 0 → k + 1 < b.length →
    let b0 := b.take k ++ [0#8, 0#8] ++ b.drop (k + 2)
    let sealed := b.take k ++ put16 (cksum b0) ++ b.drop (k + 2)
    osum sealed = 0xFFFF ∧ cksum sealed = 0#16

/-- Laws of 40_checksum.md section 4: osum is 0 only of zero bytes, appended zero bytes do not change it, and it may be
computed in two pieces at an even cut, or with the words in any order. -/
def Obligations.ChecksumLaws : Prop :=
  (∀ b, osum b = 0 ↔ ∀ x ∈ b, x = 0#8) ∧
  (∀ b n, osum (b ++ zeros (2 * n)) = osum b) ∧ (∀ b, b.length % 2 = 1 → osum (b ++ [0#8]) = osum b) ∧
  (∀ a c, a.length % 2 = 0 → osum (a ++ c) = foldCarry (osum a + osum c) (osum a + osum c)) ∧
  ∀ us vs : List (Byte × Byte), us.Perm vs →
    osum (us.flatMap fun u => [u.1, u.2]) = osum (vs.flatMap fun u => [u.1, u.2])

/-- 40_checksum.md R176 and R178, CK_CLEAR and CK_FINAL: their words; clearing writes (0, 0, 0); reading writes X0 and X16
and leaves the accumulator, a pending byte counting as the high byte of a padded word; neither raises an error. -/
def Obligations.CkClearAndCkFinalResults : Prop :=
  encode .ckClear = 0x00000001 ∧ encode .ckFinal = 0x00000003 ∧ ∀ s : State,
    (∃ t, exec .ckClear s = .next t ∧ Completed s t ∧ Keeps s t [] ∧ t.cache = s.cache ∧ SamePbuf s t ∧
      t.ck = { acc := 0#16, pv := false, pb := 0#8 }) ∧
    ∃ t sum, exec .ckFinal s = .next t ∧ WritesOnly s t [0, 16] ∧
      t.reg 16 = BitVec.ofNat 64 sum ∧ t.reg 0 = BitVec.ofNat 64 (0xFFFF - sum) ∧ sum ≤ 0xFFFF ∧
      (s.ck.pv = false → sum = s.ck.acc.toNat) ∧
      (s.ck.pv = true →
        sum = if s.ck.acc.toNat + s.ck.pb.toNat * 256 > 0xFFFF then s.ck.acc.toNat + s.ck.pb.toNat * 256 - 0xFFFF
          else s.ck.acc.toNat + s.ck.pb.toNat * 256)

/-- CK_ACCUM (40_checksum.md section 2 and section 3) of an input in range, from any accumulator: a byte fed completes the
pending byte or becomes it; and from the accumulator of a stream fed since a clear, it leaves the accumulator of the
longer stream. No X register changes. -/
def Obligations.CkAccumFeedsTheInput : Prop :=
  ∀ s : State, InputInRange s →
    ∃ t, exec .ckAccum s = .next t ∧ Completed s t ∧ Keeps s t [] ∧ t.cache = s.cache ∧ SamePbuf s t ∧
      ((s.reg 2).toNat = 0 → t.ck = s.ck) ∧
      ((s.reg 2).toNat = 1 → s.ck.pv = false →
        t.ck = { acc := s.ck.acc, pv := true, pb := s.byteAt (s.reg 1).toNat }) ∧
      ((s.reg 2).toNat = 1 → s.ck.pv = true → t.ck.pv = false ∧ t.ck.pb = 0#8 ∧
        t.ck.acc.toNat =
          (let w := s.ck.acc.toNat + (s.ck.pb.toNat * 256 + (s.byteAt (s.reg 1).toNat).toNat)
           if w > 0xFFFF then w - 0xFFFF else w)) ∧
      ∀ fed : List Byte, s.ck = Accumulator.clear.feedAll fed →
        t.ck = Accumulator.clear.feedAll (fed ++ inputBytes s) ∧ t.ck.fin.toNat = osum (fed ++ inputBytes s) ∧
        (t.ck.pv = true ↔ (fed ++ inputBytes s).length % 2 = 1)

/-- 40_checksum.md R179: CKSUM clears, feeds the input and reads: X0 = cksum, X16 = osum, the accumulator as after
feeding. -/
def Obligations.CksumOfTheInput : Prop :=
  ∀ s : State, InputInRange s →
    ∃ t, exec .cksum s = .next t ∧ Completed s t ∧ Keeps s t [0, 16] ∧ t.cache = s.cache ∧ SamePbuf s t ∧
      t.reg 0 = BitVec.ofNat 64 (0xFFFF - osum (inputBytes s)) ∧ t.reg 16 = BitVec.ofNat 64 (osum (inputBytes s)) ∧
      t.ck = Accumulator.clear.feedAll (inputBytes s)

/-- 40_checksum.md R180: CK_VERIFY answers 1 exactly when the input's one's-complement sum is all ones; a mismatch is the
result 0, not an error. -/
def Obligations.CkVerifyTestsForAllOnes : Prop :=
  ∀ s : State, InputInRange s →
    ∃ t, exec .ckVerify s = .next t ∧ Completed s t ∧ Keeps s t [0, 16] ∧ t.cache = s.cache ∧ SamePbuf s t ∧
      t.reg 0 = (if osum (inputBytes s) = 0xFFFF then 1#64 else 0#64) ∧ t.reg 16 = BitVec.ofNat 64 (osum (inputBytes s)) ∧
      t.ck = Accumulator.clear.feedAll (inputBytes s)

/-! ## Ethernet -/

/-- 41_ethernet.md R201, ETH_PARSE: its word, its two errors, and of an input in range and of 14 bytes or more the fields,
the class and the payload descriptor. -/
def Obligations.EthParseDecodesTheFrame : Prop :=
  encode .ethParse = 0x00000010 ∧ ∀ s : State,
    (¬ InputInRange s → exec .ethParse s = .next (s.report 0x11 0 6 (s.reg 1))) ∧
    (InputInRange s → (s.reg 2).toNat < 14 →
      exec .ethParse s = .next (s.report 0x01 0 1 (BitVec.ofNat 64 (14 * 2 ^ 32 + (s.reg 2).toNat)))) ∧
    (InputInRange s → 14 ≤ (s.reg 2).toNat →
      ∃ t, exec .ethParse s = .next t ∧ WritesOnly s t [16, 17, 18, 19, 28, 29] ∧
        let b := inputBytes s
        t.reg 16 = (be48 b 0).setWidth 64 ∧ t.reg 17 = (be48 b 6).setWidth 64 ∧ t.reg 18 = (be16 b 12).setWidth 64 ∧
        t.reg 19 = (if be16 b 12 = 0x0806 then 1 else if be16 b 12 = 0x0800 then 2 else if be16 b 12 = 0x86DD then 3 else 0) ∧
        t.reg 28 = s.reg 1 + 14 ∧ t.reg 29 = s.reg 2 - 14)

/-- 41_ethernet.md R202, ETH_CLASSIFY: its word, and the class of bits 15:0 of X4. -/
def Obligations.EthClassifyDispatches : Prop :=
  encode .ethClassify = 0x00000011 ∧ ∀ s : State, ∃ t, exec .ethClassify s = .next t ∧ WritesOnly s t [0] ∧
    let v := (s.reg 4).toNat % 2 ^ 16
    t.reg 0 = if v = 0x0806 then 1 else if v = 0x0800 then 2 else if v = 0x86DD then 3 else 0

/-- 41_ethernet.md R203, ETH_BUILD: its word, its two errors, and of an input and an output in range the 14-byte header and
the payload, read before the write. -/
def Obligations.EthBuildWritesTheFrame : Prop :=
  encode .ethBuild = 0x00000012 ∧ ∀ s : State,
    (¬ InputInRange s → exec .ethBuild s = .next (s.report 0x11 0 6 (s.reg 1))) ∧
    (InputInRange s → ¬ OutputInRange s (14 + (s.reg 2).toNat) →
      exec .ethBuild s = .next (s.report 0x11 1 6 (s.reg 3))) ∧
    (InputInRange s → OutputInRange s (14 + (s.reg 2).toNat) →
      ∃ t, exec .ethBuild s = .next t ∧
        Builds s t (put48 ((s.reg 4).setWidth 48) ++ put48 ((s.reg 5).setWidth 48) ++ put16 ((s.reg 6).setWidth 16)
          ++ inputBytes s))

/-- The round trip of 41_ethernet.md: parsing what ETH_BUILD wrote returns the fields and the payload, and building what
ETH_PARSE returned rewrites the bytes. -/
def Obligations.EthernetRoundTrip : Prop :=
  (∀ s t u : State, s.params.legal = true → exec .ethBuild s = .next t → t.status.fail = false →
    exec .ethParse ((t.setReg 1 (s.reg 3)).setReg 2 (t.reg 0)) = .next u →
    u.reg 16 = ((s.reg 4).setWidth 48).setWidth 64 ∧ u.reg 17 = ((s.reg 5).setWidth 48).setWidth 64 ∧
    u.reg 18 = ((s.reg 6).setWidth 16).setWidth 64 ∧ u.reg 28 = s.reg 3 + 14 ∧ u.reg 29 = s.reg 2 ∧
    u.bytesAt (u.reg 28).toNat (u.reg 29).toNat = inputBytes s) ∧
  ∀ s t u : State, s.params.legal = true → exec .ethParse s = .next t → t.status.fail = false →
    exec .ethBuild ((((((t.setReg 1 (t.reg 28)).setReg 2 (t.reg 29)).setReg 3 (s.reg 1)).setReg 4 (t.reg 16)).setReg 5
      (t.reg 17)).setReg 6 (t.reg 18)) = .next u → u.reg 0 = s.reg 2 ∧ SamePbuf s u

/-! ## ARP packets -/

/-- 42_arp.md R222 (the operation numbers are general knowledge of the spec's, log 16), of an input in range
and of 28 bytes or more: every field at its fixed offset, and the operation class (1 to 4, else 0). -/
def Obligations.ArpParseDecodesThePacket : Prop :=
  ∀ s : State, InputInRange s → 28 ≤ (s.reg 2).toNat →
    ∃ t, exec .arpParse s = .next t ∧ WritesOnly s t [16, 17, 18, 19, 20, 21, 22, 23, 24, 25] ∧
      let b := inputBytes s
      t.reg 16 = (be16 b 0).setWidth 64 ∧ t.reg 17 = (be16 b 2).setWidth 64 ∧
      t.reg 18 = (b.getD 4 0).setWidth 64 ∧ t.reg 19 = (b.getD 5 0).setWidth 64 ∧ t.reg 20 = (be16 b 6).setWidth 64 ∧
      t.reg 21 = (be48 b 8).setWidth 64 ∧ t.reg 22 = (be32 b 14).setWidth 64 ∧
      t.reg 23 = (be48 b 18).setWidth 64 ∧ t.reg 24 = (be32 b 24).setWidth 64 ∧
      t.reg 25 = if 1 ≤ (be16 b 6).toNat ∧ (be16 b 6).toNat ≤ 4 then (be16 b 6).setWidth 64 else 0

/-- ARP_BUILD_REQ (42_arp.md), with the constants the spec marks as general knowledge (log 16): htype 1, ptype 0x0800,
hlen 6, plen 4, Request 1. -/
def Obligations.ArpBuildReqWritesTheRequest : Prop :=
  ∀ s : State, OutputInRange s 28 →
    ∃ t, exec .arpBuildReq s = .next t ∧
      Builds s t ([0x00, 0x01, 0x08, 0x00, 0x06, 0x04, 0x00, 0x01] ++ put48 ((s.reg 4).setWidth 48)
        ++ put32 ((s.reg 5).setWidth 32) ++ [0, 0, 0, 0, 0, 0] ++ put32 ((s.reg 6).setWidth 32))

/-- ARP_BUILD_REPLY (42_arp.md): operation Reply (2, which the spec marks as general knowledge, log 16), the sender us at
the IP asked for, the target the requester, the first six bytes the request's. -/
def Obligations.ArpBuildReplySwapsAndSubstitutes : Prop :=
  ∀ s : State, InputInRange s → 28 ≤ (s.reg 2).toNat → OutputInRange s 28 →
    ∃ t, exec .arpBuildReply s = .next t ∧
      let b := inputBytes s
      Builds s t (b.take 6 ++ [0x00, 0x02] ++ put48 ((s.reg 4).setWidth 48) ++ (b.take 28).drop 24 ++ (b.take 14).drop 8
        ++ (b.take 18).drop 14)

/-- ARP_HANDLE (42_arp.md; the Request value 1 and the Reply value 2 are general knowledge of the spec's, log 16): every
packet of 28 bytes or more is learned; a Request for OUR_IP is answered at X3; otherwise X0 = 0, nothing is written and X3
is not looked at. -/
def Obligations.ArpHandleLearnsAndAnswers : Prop :=
  ∀ s : State, InputInRange s → 28 ≤ (s.reg 2).toNat →
    let b := inputBytes s
    let learned := (cacheInsert s.params s.arpTimeout s.now s.cache (be32 b 14) (be48 b 8)).1
    (be16 b 6 = 1 ∧ be32 b 24 = s.ourIp → OutputInRange s 28 →
      ∃ t, exec .arpHandle s = .next t ∧ Completed s t ∧ Keeps s t [0] ∧ t.ck = s.ck ∧ t.cache = learned ∧
        t.reg 0 = 28 ∧
        Stored s t (s.reg 3).toNat (b.take 6 ++ [0x00, 0x02] ++ put48 s.ourMac ++ put32 s.ourIp ++ (b.take 14).drop 8
          ++ (b.take 18).drop 14)) ∧
    (be16 b 6 = 1 ∧ be32 b 24 = s.ourIp → ¬ OutputInRange s 28 →
      exec .arpHandle s = .next (s.report 0x11 1 6 (s.reg 3))) ∧
    (¬ (be16 b 6 = 1 ∧ be32 b 24 = s.ourIp) →
      ∃ t, exec .arpHandle s = .next t ∧ Completed s t ∧ Keeps s t [0] ∧ t.ck = s.ck ∧ t.cache = learned ∧
        t.reg 0 = 0 ∧ SamePbuf s t)

/-- The laws of 42_arp.md: parsing a built request returns its fields; parsing the reply to a packet returns the swapped
ones; replying to the reply swaps back. -/
def Obligations.ArpRoundTrip : Prop :=
  (∀ p : ArpPacket, arpParse p.bytes = p ∧ p.bytes.length = 28) ∧
  (∀ s t u : State, s.params.legal = true → exec .arpBuildReq s = .next t → t.status.fail = false →
    exec .arpParse ((t.setReg 1 (s.reg 3)).setReg 2 (t.reg 0)) = .next u →
    u.reg 16 = 1 ∧ u.reg 17 = 0x0800 ∧ u.reg 18 = 6 ∧ u.reg 19 = 4 ∧ u.reg 20 = 1 ∧
    u.reg 21 = ((s.reg 4).setWidth 48).setWidth 64 ∧ u.reg 22 = ((s.reg 5).setWidth 32).setWidth 64 ∧ u.reg 23 = 0 ∧
    u.reg 24 = ((s.reg 6).setWidth 32).setWidth 64) ∧
  (∀ (s t u v : State), s.params.legal = true → exec .arpBuildReply s = .next t → t.status.fail = false →
    exec .arpParse s = .next u → exec .arpParse ((t.setReg 1 (s.reg 3)).setReg 2 (t.reg 0)) = .next v →
    v.reg 16 = u.reg 16 ∧ v.reg 17 = u.reg 17 ∧ v.reg 18 = u.reg 18 ∧ v.reg 19 = u.reg 19 ∧ v.reg 20 = 2 ∧
    v.reg 21 = ((s.reg 4).setWidth 48).setWidth 64 ∧ v.reg 22 = u.reg 24 ∧ v.reg 23 = u.reg 21 ∧ v.reg 24 = u.reg 22) ∧
  ∀ (q : ArpPacket) (m : BitVec 48),
    let r := arpReply (arpParse (arpReply q m).bytes) q.sha
    r.sha = q.sha ∧ r.spa = q.spa ∧ r.tha = m ∧ r.tpa = q.tpa

/-! ## The ARP cache -/

/-- 43_arp_cache.md R256 with the victim of R253: code 0 overwrites the entry of ip, 1 takes the lowest free way, 2 the
lowest stale one, 3 the way of the smallest TS, the lowest among equals. -/
def Obligations.ArpcInsertChoosesTheVictim : Prop :=
  ∀ s : State, MachineInv s →
    let ip := (s.reg 4).setWidth 32
    let set := ip.toNat % s.params.arpSets
    let holds := fun w => ∃ e, s.cache.slot set w = some e ∧ e.ip = ip
    let free := fun w => w < s.params.arpWays ∧ s.cache.slot set w = none
    let stale := fun w => ∃ e, s.cache.slot set w = some e ∧ s.arpTimeout.toNat ≤ age s.now e.ts
    ∃ t way, exec .arpcInsert s = .next t ∧ Completed s t ∧ Keeps s t [0] ∧ t.ck = s.ck ∧ SamePbuf s t ∧
      way < s.params.arpWays ∧
      t.cache.slot set way = some { ip := ip, mac := (s.reg 5).setWidth 48, ts := s.now } ∧
      (∀ set' way', (set', way') ≠ (set, way) → t.cache.slot set' way' = s.cache.slot set' way') ∧
      ((t.reg 0 = 0 ∧ holds way) ∨
       (t.reg 0 = 1 ∧ (∀ w, ¬ holds w) ∧ free way ∧ ∀ w < way, ¬ free w) ∨
       (t.reg 0 = 2 ∧ (∀ w, ¬ holds w) ∧ (∀ w, ¬ free w) ∧ stale way ∧ ∀ w < way, ¬ stale w) ∨
       (t.reg 0 = 3 ∧ (∀ w, ¬ holds w) ∧ (∀ w, ¬ free w) ∧ (∀ w, ¬ stale w) ∧
         ∃ e, s.cache.slot set way = some e ∧ ∀ w e', s.cache.slot set w = some e' →
           e.ts.toNat ≤ e'.ts.toNat ∧ (w < way → e.ts.toNat < e'.ts.toNat)))

/-- 43_arp_cache.md R255: a live match is returned and not refreshed; a stale match is removed and missed; a miss changes
nothing. -/
def Obligations.ArpcLookupReturnsOnlyLiveEntries : Prop :=
  ∀ s : State, MachineInv s →
    let ip := (s.reg 4).setWidth 32
    let set := ip.toNat % s.params.arpSets
    ∃ t, exec .arpcLookup s = .next t ∧ Completed s t ∧ Keeps s t [0, 16] ∧ t.ck = s.ck ∧ SamePbuf s t ∧
      (∀ w e, s.cache.slot set w = some e → e.ip = ip → age s.now e.ts < s.arpTimeout.toNat →
        t.reg 0 = 1 ∧ t.reg 16 = e.mac.setWidth 64 ∧ t.cache = s.cache) ∧
      (∀ w e, s.cache.slot set w = some e → e.ip = ip → s.arpTimeout.toNat ≤ age s.now e.ts →
        t.reg 0 = 0 ∧ t.reg 16 = 0 ∧ t.cache.slot set w = none ∧
        ∀ set' w', (set', w') ≠ (set, w) → t.cache.slot set' w' = s.cache.slot set' w') ∧
      ((∀ w e, s.cache.slot set w = some e → e.ip ≠ ip) → t.reg 0 = 0 ∧ t.reg 16 = 0 ∧ t.cache = s.cache)

/-- 43_arp_cache.md R258: the entry of ip is removed, live or stale; X0 = 1 exactly when it was live. -/
def Obligations.ArpcRemoveReportsLiveEntries : Prop :=
  ∀ s : State, MachineInv s →
    let ip := (s.reg 4).setWidth 32
    let set := ip.toNat % s.params.arpSets
    ∃ t, exec .arpcRemove s = .next t ∧ Completed s t ∧ Keeps s t [0] ∧ t.ck = s.ck ∧ SamePbuf s t ∧
      (∀ w e, s.cache.slot set w = some e → e.ip = ip →
        t.reg 0 = (if age s.now e.ts < s.arpTimeout.toNat then 1 else 0) ∧ t.cache.slot set w = none ∧
        ∀ set' w', (set', w') ≠ (set, w) → t.cache.slot set' w' = s.cache.slot set' w') ∧
      ((∀ w e, s.cache.slot set w = some e → e.ip ≠ ip) → t.reg 0 = 0 ∧ t.cache = s.cache)

/-- 43_arp_cache.md R257 and R259: a sweep clears exactly the stale entries and returns their number; a count returns the
number of live entries and changes nothing. The number is that of the (set, way) pairs whose entry is stale, or live. -/
def Obligations.ArpcSweepAndCountUseOneStaleness : Prop :=
  ∀ s : State, MachineInv s →
    let stale := fun e : CacheEntry => decide (s.arpTimeout.toNat ≤ age s.now e.ts)
    let number := fun test : CacheEntry → Bool => ((List.range s.params.arpSets).map fun set =>
      (List.range s.params.arpWays).countP fun w => (s.cache.slot set w).any test).sum
    (∃ t, exec .arpcSweep s = .next t ∧ Completed s t ∧ Keeps s t [0] ∧ t.ck = s.ck ∧ SamePbuf s t ∧
      (∀ set w, t.cache.slot set w = (s.cache.slot set w).filter fun e => !stale e) ∧
      (t.reg 0).toNat = number stale) ∧
    ∃ t, exec .arpcCount s = .next t ∧ WritesOnly s t [0] ∧ (t.reg 0).toNat = number fun e => !stale e

/-- The time and overwrite properties of 43_arp_cache.md section 4: inserted at t, an address is found at every time from t
to t + T − 1, with its MAC, and missed at every time from t + T on, after which the cache no longer holds it; and once an
ARP packet that ARP_HANDLE sees has inserted the address again, a live lookup returns the packet's MAC. -/
def Obligations.CacheTimeAndOverwriteProperties : Prop :=
  (∀ (s t v : State) (later : Word), MachineInv s → exec .arpcInsert s = .next t → s.now.toNat ≤ later.toNat →
    exec .arpcLookup { t with now := later } = .next v →
    (later.toNat < s.now.toNat + s.arpTimeout.toNat →
      v.reg 0 = 1 ∧ v.reg 16 = ((s.reg 5).setWidth 48).setWidth 64) ∧
    (s.now.toNat + s.arpTimeout.toNat ≤ later.toNat →
      v.reg 0 = 0 ∧ ∀ set w e, v.cache.slot set w = some e → e.ip ≠ (s.reg 4).setWidth 32)) ∧
  ∀ s t u : State, MachineInv s → exec .arpHandle s = .next t → t.status.fail = false → s.arpTimeout ≠ 0#64 →
    exec .arpcLookup (t.setReg 4 ((be32 (inputBytes s) 14).setWidth 64)) = .next u →
    u.reg 0 = 1 ∧ u.reg 16 = (be48 (inputBytes s) 8).setWidth 64

/-- The agreement of 43_arp_cache.md section 4 with the source's unbounded map. Every command, and every step, keeps the
engine's live entries exactly those of the source's map after the same operation, provided no insert returns code 3, NOW is
not lowered (by a host write or by wrapping), and ARP_TIMEOUT is not raised, which could revive an entry that only the
source still holds; a reset empties both. Lookups and evictions answer as the source's. (The list of interactions a step
takes is the model's, log 5.) -/
def Obligations.CacheRefinesTheSourceMap : Prop :=
  -- every command
  (∀ (i : Instr) (s t : State) (m : SourceMap), MachineInv s → AgreesWith s m → exec i s = .next t →
    (∀ ip mac, insertedBy i s t = some (ip, mac) → s.insertCode ip mac ≠ 3) → AgreesWith t (m.afterCommand i s t)) ∧
  -- every step
  (∀ (s t : State) (m : SourceMap), MachineInv s → AgreesWith s m → step s = .next t →
    (s.nextOp ≠ some .reset → s.now.toNat ≤ t.now.toNat ∧ t.arpTimeout.toNat ≤ s.arpTimeout.toNat) →
    (∀ i ip mac, s.nextCommand = some i → insertedBy i s t = some (ip, mac) → s.insertCode ip mac ≠ 3) →
    AgreesWith t (m.afterStep s t)) ∧
  -- the answers
  ∀ (s t : State) (m : SourceMap), MachineInv s → AgreesWith s m →
    let found := m.liveAt s.now s.arpTimeout ((s.reg 4).setWidth 32)
    (exec .arpcInsert s = .next t → (t.reg 0 = 3 ↔ s.insertCode ((s.reg 4).setWidth 32) ((s.reg 5).setWidth 48) = 3)) ∧
    (exec .arpcLookup s = .next t →
      (∀ mac ts, found = some (mac, ts) → t.reg 0 = 1 ∧ t.reg 16 = mac.setWidth 64) ∧
      (found = none → t.reg 0 = 0 ∧ t.reg 16 = 0)) ∧
    (exec .arpcRemove s = .next t → (t.reg 0 = 1 ↔ found.isSome = true))

/-! ## IPv4 -/

/-- 44_ipv4.md R292, of an input in range, of 20 bytes or more, with 5 ≤ IHL and IHL · 4 within the input: every field,
the payload descriptor from IHL · 4 to the end, the options descriptor. -/
def Obligations.Ip4ParseDecodesTheHeader : Prop :=
  ∀ s : State, InputInRange s →
    let b := inputBytes s
    let ihl := (b.getD 0 0).toNat % 16
    20 ≤ (s.reg 2).toNat → 5 ≤ ihl → ihl * 4 ≤ (s.reg 2).toNat →
    ∃ t, exec .ip4Parse s = .next t ∧
      WritesOnly s t [16, 17, 18, 19, 20, 21, 22, 23, 24, 25, 26, 27, 28, 29, 30, 31] ∧
      (t.reg 16).toNat = (b.getD 0 0).toNat / 16 ∧ (t.reg 17).toNat = ihl ∧ t.reg 18 = (b.getD 1 0).setWidth 64 ∧
      t.reg 19 = (be16 b 2).setWidth 64 ∧ t.reg 20 = (be16 b 4).setWidth 64 ∧
      (t.reg 21).toNat = (be16 b 6).toNat / 2 ^ 13 ∧ (t.reg 22).toNat = (be16 b 6).toNat % 2 ^ 13 ∧
      t.reg 23 = (b.getD 8 0).setWidth 64 ∧ t.reg 24 = (b.getD 9 0).setWidth 64 ∧ t.reg 25 = (be16 b 10).setWidth 64 ∧
      t.reg 26 = (be32 b 12).setWidth 64 ∧ t.reg 27 = (be32 b 16).setWidth 64 ∧
      t.reg 28 = s.reg 1 + BitVec.ofNat 64 (4 * ihl) ∧ t.reg 29 = s.reg 2 - BitVec.ofNat 64 (4 * ihl) ∧
      t.reg 30 = s.reg 1 + 20 ∧ t.reg 31 = BitVec.ofNat 64 (4 * ihl - 20)

/-- 44_ipv4.md R293, of an input and an output in range and a total length that fits: version 4, IHL 5, zeroed fields, the
checksum of the 20 header bytes, the payload. -/
def Obligations.Ip4BuildWritesTheDatagram : Prop :=
  ∀ s : State, InputInRange s → 20 + (s.reg 2).toNat ≤ 0xFFFF → OutputInRange s (20 + (s.reg 2).toNat) →
    let h0 := [0x45, 0x00] ++ put16 (BitVec.ofNat 16 (20 + (s.reg 2).toNat)) ++ [0, 0, 0, 0]
      ++ [(s.reg 7).setWidth 8, (s.reg 6).setWidth 8] ++ [0, 0]
      ++ put32 ((s.reg 4).setWidth 32) ++ put32 ((s.reg 5).setWidth 32)
    ∃ t, exec .ip4Build s = .next t ∧ Builds s t (h0.take 10 ++ put16 (cksum h0) ++ h0.drop 12 ++ inputBytes s)

/-- 44_ipv4.md R294, of an input and an output in range: every field as given, truncated, nothing computed. -/
def Obligations.Ip4EmitWritesTheFieldsGiven : Prop :=
  ∀ s : State, InputInRange s → OutputInRange s (20 + (s.reg 2).toNat) →
    let low := fun (r : Reg) (n : Nat) => (s.reg r).toNat % 2 ^ n
    ∃ t, exec .ip4Emit s = .next t ∧
      Builds s t ([BitVec.ofNat 8 (low 4 4 * 16 + low 5 4), (s.reg 6).setWidth 8]
        ++ put16 ((s.reg 7).setWidth 16) ++ put16 ((s.reg 8).setWidth 16)
        ++ put16 (BitVec.ofNat 16 (low 9 3 * 2 ^ 13 + low 10 13))
        ++ [(s.reg 11).setWidth 8, (s.reg 12).setWidth 8] ++ put16 ((s.reg 13).setWidth 16)
        ++ put32 ((s.reg 14).setWidth 32) ++ put32 ((s.reg 15).setWidth 32) ++ inputBytes s)

/-- The laws of 44_ipv4.md: what IP4_BUILD wrote parses back to its fields, the checksum it wrote among them, and sums to all
ones; IP4_PARSE of an input with IHL 5 and then IP4_EMIT of the fields and the payload it returned, at the input's address,
rewrites the bytes; and so does the header written out. -/
def Obligations.Ip4RoundTrip : Prop :=
  (∀ s t u v : State, s.params.legal = true → exec .ip4Build s = .next t → t.status.fail = false →
    exec .ip4Parse ((t.setReg 1 (s.reg 3)).setReg 2 (t.reg 0)) = .next u →
    exec .ckVerify ((t.setReg 1 (s.reg 3)).setReg 2 20) = .next v →
    let h0 := [0x45, 0x00] ++ put16 (BitVec.ofNat 16 (20 + (s.reg 2).toNat)) ++ [0, 0, 0, 0]
      ++ [(s.reg 7).setWidth 8, (s.reg 6).setWidth 8] ++ [0, 0]
      ++ put32 ((s.reg 4).setWidth 32) ++ put32 ((s.reg 5).setWidth 32)
    u.reg 16 = 4 ∧ u.reg 17 = 5 ∧ u.reg 18 = 0 ∧ u.reg 19 = 20 + s.reg 2 ∧ u.reg 20 = 0 ∧ u.reg 21 = 0 ∧ u.reg 22 = 0 ∧
    u.reg 23 = ((s.reg 7).setWidth 8).setWidth 64 ∧ u.reg 24 = ((s.reg 6).setWidth 8).setWidth 64 ∧
    u.reg 25 = (cksum h0).setWidth 64 ∧
    u.reg 26 = ((s.reg 4).setWidth 32).setWidth 64 ∧ u.reg 27 = ((s.reg 5).setWidth 32).setWidth 64 ∧
    u.reg 28 = s.reg 3 + 20 ∧ u.reg 29 = s.reg 2 ∧ u.reg 31 = 0 ∧ v.reg 0 = 1 ∧
    u.bytesAt (u.reg 28).toNat (u.reg 29).toNat = inputBytes s) ∧
  (∀ s t u : State, s.params.legal = true → exec .ip4Parse s = .next t → t.status.fail = false → t.reg 17 = 5 →
    exec .ip4Emit { t with x := writeRegs t.x [(1, t.reg 28), (2, t.reg 29), (3, s.reg 1), (4, t.reg 16), (5, t.reg 17),
      (6, t.reg 18), (7, t.reg 19), (8, t.reg 20), (9, t.reg 21), (10, t.reg 22), (11, t.reg 23), (12, t.reg 24),
      (13, t.reg 25), (14, t.reg 26), (15, t.reg 27)] } = .next u →
    u.status.fail = false ∧ u.reg 0 = s.reg 2 ∧ SamePbuf s u) ∧
  ∀ b : List Byte, 20 ≤ b.length → (byteOf b 0).toNat % 16 = 5 → (ip4Header b).bytes ++ b.drop 20 = b

/-! ## ICMP -/

/-- ICMP_PARSE (45_icmp.md), of an input in range and of 8 bytes or more; the type class 2 of type 8 is general knowledge
of the spec's (log 16). -/
def Obligations.IcmpParseDecodesTheMessage : Prop :=
  ∀ s : State, InputInRange s → 8 ≤ (s.reg 2).toNat →
    ∃ t, exec .icmpParse s = .next t ∧ WritesOnly s t [16, 17, 18, 19, 20, 21, 28, 29] ∧
      let b := inputBytes s
      t.reg 16 = (b.getD 0 0).setWidth 64 ∧ t.reg 17 = (b.getD 1 0).setWidth 64 ∧ t.reg 18 = (be16 b 2).setWidth 64 ∧
      t.reg 19 = (be16 b 4).setWidth 64 ∧ t.reg 20 = (be16 b 6).setWidth 64 ∧
      t.reg 21 = (if b.getD 0 0 = 0 then 1 else if b.getD 0 0 = 8 then 2 else 0) ∧
      t.reg 28 = s.reg 1 + 8 ∧ t.reg 29 = s.reg 2 - 8

/-- 45_icmp.md R322, of an input and an output in range: the message with the checksum of all of it. -/
def Obligations.IcmpEmitWritesTheMessage : Prop :=
  ∀ s : State, InputInRange s → OutputInRange s (8 + (s.reg 2).toNat) →
    let m0 := [(s.reg 4).setWidth 8, (s.reg 5).setWidth 8, 0, 0] ++ put16 ((s.reg 6).setWidth 16)
      ++ put16 ((s.reg 7).setWidth 16) ++ inputBytes s
    ∃ t, exec .icmpEmit s = .next t ∧ Builds s t (m0.take 2 ++ put16 (cksum m0) ++ m0.drop 4)

/-- 45_icmp.md R323, of an input in range and of 8 bytes or more and an output in range: type 0, code 0, the rest copied
verbatim, the checksum recomputed. -/
def Obligations.IcmpBuildReplyEchoesTheRequest : Prop :=
  ∀ s : State, InputInRange s → 8 ≤ (s.reg 2).toNat → OutputInRange s (s.reg 2).toNat →
    let m0 := [0, 0, 0, 0] ++ (inputBytes s).drop 4
    ∃ t, exec .icmpBuildReply s = .next t ∧ Builds s t (m0.take 2 ++ put16 (cksum m0) ++ m0.drop 4)

/-- The laws of 45_icmp.md: what ICMP_EMIT or ICMP_BUILD_REPLY wrote verifies. -/
def Obligations.IcmpOutputVerifies : Prop :=
  ∀ (i : Instr) (s t u : State), i = .icmpEmit ∨ i = .icmpBuildReply → s.params.legal = true →
    exec i s = .next t → t.status.fail = false →
    exec .ckVerify ((t.setReg 1 (s.reg 3)).setReg 2 (t.reg 0)) = .next u → u.reg 0 = 1 ∧ u.reg 16 = 0xFFFF

/-! ## UDP -/

/-- 46_udp.md R341, of an input in range and of 8 bytes or more: the fields as they stand, the payload the remainder. -/
def Obligations.UdpParseDecodesTheDatagram : Prop :=
  ∀ s : State, InputInRange s → 8 ≤ (s.reg 2).toNat →
    ∃ t, exec .udpParse s = .next t ∧ WritesOnly s t [16, 17, 18, 19, 28, 29] ∧
      let b := inputBytes s
      t.reg 16 = (be16 b 0).setWidth 64 ∧ t.reg 17 = (be16 b 2).setWidth 64 ∧ t.reg 18 = (be16 b 4).setWidth 64 ∧
      t.reg 19 = (be16 b 6).setWidth 64 ∧ t.reg 28 = s.reg 1 + 8 ∧ t.reg 29 = s.reg 2 - 8

/-- UDP_BUILD and UDP_BUILD_ECHO (46_udp.md), in range and with a length that fits: the datagram with the checksum over
pseudo-header and datagram; the echo swaps the request's ports and copies its payload. -/
def Obligations.UdpBuildersWriteTheDatagram : Prop :=
  ∀ s : State, InputInRange s →
    let datagram := fun (sp dp : BitVec 16) (p : List Byte) =>
      let len := put16 (BitVec.ofNat 16 (8 + p.length))
      let u0 := put16 sp ++ put16 dp ++ len ++ [0, 0] ++ p
      let ph := put32 ((s.reg 4).setWidth 32) ++ put32 ((s.reg 5).setWidth 32) ++ [0x00, 0x11] ++ len
      u0.take 6 ++ put16 (cksum (ph ++ u0)) ++ u0.drop 8
    let b := inputBytes s
    (8 + (s.reg 2).toNat ≤ 0xFFFF → OutputInRange s (8 + (s.reg 2).toNat) →
      ∃ t, exec .udpBuild s = .next t ∧ Builds s t (datagram ((s.reg 6).setWidth 16) ((s.reg 7).setWidth 16) b)) ∧
    (8 ≤ (s.reg 2).toNat → (s.reg 2).toNat ≤ 0xFFFF → OutputInRange s (s.reg 2).toNat →
      ∃ t, exec .udpBuildEcho s = .next t ∧ Builds s t (datagram (be16 b 2) (be16 b 0) (b.drop 8)))

/-- The laws of 46_udp.md: what UDP_BUILD wrote parses back to its fields, and pseudo-header followed by datagram sums to
all ones. -/
def Obligations.UdpRoundTrip : Prop :=
  ∀ s t u : State, s.params.legal = true → exec .udpBuild s = .next t → t.status.fail = false →
    exec .udpParse ((t.setReg 1 (s.reg 3)).setReg 2 (t.reg 0)) = .next u →
    u.reg 16 = ((s.reg 6).setWidth 16).setWidth 64 ∧ u.reg 17 = ((s.reg 7).setWidth 16).setWidth 64 ∧
    u.reg 18 = 8 + s.reg 2 ∧ u.reg 28 = s.reg 3 + 8 ∧ u.reg 29 = s.reg 2 ∧
    u.bytesAt (u.reg 28).toNat (u.reg 29).toNat = inputBytes s ∧
    osum (put32 ((s.reg 4).setWidth 32) ++ put32 ((s.reg 5).setWidth 32) ++ [0x00, 0x11]
      ++ put16 (BitVec.ofNat 16 (8 + (s.reg 2).toNat)) ++ t.bytesAt (s.reg 3).toNat (t.reg 0).toNat) = 0xFFFF

/-! ## The frame pipeline -/

/-- PROCESS_FRAME of an Unknown or Ipv6 frame (47_pipeline.md): dropped, with the EtherType reported. -/
def Obligations.FrameOfOtherTypeIsDropped : Prop :=
  ∀ s : State, InputInRange s → 14 ≤ (s.reg 2).toNat →
    let et := be16 (inputBytes s) 12
    et ≠ 0x0806 → et ≠ 0x0800 →
    ∃ t, exec .processFrame s = .next t ∧ WritesOnly s t [0, 16, 17, 18, 19, 20, 28, 29] ∧
      t.reg 0 = (if et = 0x86DD then 1 else 0) ∧ t.reg 19 = et.setWidth 64 ∧
      ∀ r ∈ ([16, 17, 18, 20, 28, 29] : List Reg), t.reg r = 0

/-- PROCESS_FRAME of an ARP frame (47_pipeline.md; Request 1 and Reply 2 are general knowledge of the spec's, log 16): the
sender is learned; a Request for OUR_IP is answered by a 42-byte frame to the frame's source; an ARP packet shorter than 28
bytes, or an answer that does not fit, changes nothing but the report. -/
def Obligations.ArpFrameIsLearnedAndAnswered : Prop :=
  ∀ s : State, InputInRange s → 14 ≤ (s.reg 2).toNat → be16 (inputBytes s) 12 = 0x0806 →
    let e := (inputBytes s).drop 14
    let learned := (cacheInsert s.params s.arpTimeout s.now s.cache (be32 e 14) (be48 e 8)).1
    let asked := be16 e 6 = 1 ∧ be32 e 24 = s.ourIp
    (s.params.legal = true → e.length < 28 →
      exec .processFrame s = .next (s.report 0x01 0 2 (BitVec.ofNat 64 (28 * 2 ^ 32 + e.length)))) ∧
    (28 ≤ e.length → asked → ¬ OutputInRange s 42 → exec .processFrame s = .next (s.report 0x11 1 6 (s.reg 3))) ∧
    (28 ≤ e.length → (asked → OutputInRange s 42) →
      ∃ t, exec .processFrame s = .next t ∧ Completed s t ∧ Keeps s t [0, 16, 17, 18, 19, 20, 28, 29] ∧ t.ck = s.ck ∧
        t.cache = learned ∧ t.reg 17 = (be32 e 14).setWidth 64 ∧ t.reg 18 = (be48 e 8).setWidth 64 ∧
        (∀ r ∈ ([19, 20, 28, 29] : List Reg), t.reg r = 0) ∧
        (asked → t.reg 0 = 3 ∧ t.reg 16 = 42 ∧
          Stored s t (s.reg 3).toNat (put48 (be48 (inputBytes s) 6) ++ put48 s.ourMac ++ [0x08, 0x06]
            ++ e.take 6 ++ [0x00, 0x02] ++ put48 s.ourMac ++ put32 s.ourIp ++ (e.take 14).drop 8 ++ (e.take 18).drop 14)) ∧
        (¬ asked → t.reg 0 = 2 ∧ t.reg 16 = 0 ∧ SamePbuf s t))

/-- PROCESS_FRAME of an IPv4 frame whose header is whole (47_pipeline.md): an ICMP echo request (type 8, general knowledge
of the spec's, log 16) is answered, other ICMP types ignored, UDP delivered as a descriptor, other protocols dropped. -/
def Obligations.Ip4FrameIsDispatched : Prop :=
  ∀ s : State, s.params.legal = true → InputInRange s → 14 ≤ (s.reg 2).toNat → be16 (inputBytes s) 12 = 0x0800 →
    let e := (inputBytes s).drop 14
    let h := (e.getD 0 0).toNat % 16 * 4
    let m := e.drop h
    let src := be32 e 12
    let dst := be32 e 16
    20 ≤ e.length → 20 ≤ h → h ≤ e.length →
    let regs := fun (t : State) (x0 x16 x19 x20 x28 x29 : Word) =>
      Completed s t ∧ Keeps s t [0, 16, 17, 18, 19, 20, 28, 29] ∧ t.ck = s.ck ∧ t.cache = s.cache ∧
      t.reg 0 = x0 ∧ t.reg 16 = x16 ∧ t.reg 17 = src.setWidth 64 ∧ t.reg 18 = dst.setWidth 64 ∧ t.reg 19 = x19 ∧
      t.reg 20 = x20 ∧ t.reg 28 = x28 ∧ t.reg 29 = x29
    -- ICMP echo request
    (e.getD 9 0 = 1 → 8 ≤ m.length → m.getD 0 0 = 8 → 20 + m.length ≤ 0xFFFF → OutputInRange s (34 + m.length) →
      ∃ t, exec .processFrame s = .next t ∧ regs t 4 (BitVec.ofNat 64 (34 + m.length)) 8 0 0 0 ∧
        let m0 := [0, 0, 0, 0] ++ m.drop 4
        let h0 := [0x45, 0x00] ++ put16 (BitVec.ofNat 16 (20 + m.length)) ++ [0, 0, 0, 0] ++ [s.replyTtl, 1] ++ [0, 0]
          ++ put32 dst ++ put32 src
        Stored s t (s.reg 3).toNat (put48 (be48 (inputBytes s) 6) ++ put48 s.ourMac ++ [0x08, 0x00]
          ++ (h0.take 10 ++ put16 (cksum h0) ++ h0.drop 12) ++ (m0.take 2 ++ put16 (cksum m0) ++ m0.drop 4))) ∧
    (e.getD 9 0 = 1 → 8 ≤ m.length → m.getD 0 0 = 8 → 0xFFFF < 20 + m.length →
      exec .processFrame s = .next (s.report 0x12 0 3 (BitVec.ofNat 64 (20 + m.length)))) ∧
    (e.getD 9 0 = 1 → 8 ≤ m.length → m.getD 0 0 = 8 → 20 + m.length ≤ 0xFFFF → ¬ OutputInRange s (34 + m.length) →
      exec .processFrame s = .next (s.report 0x11 1 6 (s.reg 3))) ∧
    -- any other ICMP message
    (e.getD 9 0 = 1 → 8 ≤ m.length → m.getD 0 0 ≠ 8 →
      ∃ t, exec .processFrame s = .next t ∧ regs t 5 0 ((m.getD 0 0).setWidth 64) 0 0 0 ∧ SamePbuf s t) ∧
    (e.getD 9 0 = 1 → m.length < 8 →
      exec .processFrame s = .next (s.report 0x01 0 4 (BitVec.ofNat 64 (8 * 2 ^ 32 + m.length)))) ∧
    -- UDP
    (e.getD 9 0 = 17 → 8 ≤ m.length →
      ∃ t, exec .processFrame s = .next t ∧
        regs t 6 0 ((be16 m 0).setWidth 64) ((be16 m 2).setWidth 64)
          (s.reg 1 + BitVec.ofNat 64 (14 + h + 8)) (BitVec.ofNat 64 (m.length - 8)) ∧ SamePbuf s t) ∧
    (e.getD 9 0 = 17 → m.length < 8 →
      exec .processFrame s = .next (s.report 0x01 0 5 (BitVec.ofNat 64 (8 * 2 ^ 32 + m.length)))) ∧
    -- any other protocol
    (e.getD 9 0 ≠ 1 → e.getD 9 0 ≠ 17 →
      ∃ t, exec .processFrame s = .next t ∧ regs t 7 0 ((e.getD 9 0).setWidth 64) 0 0 0 ∧ SamePbuf s t)

/-- The laws of 47_pipeline.md: PBUF is written only for dispositions 3 and 4, and there only in [X3, X3 + X16); the cache
only for dispositions 2 and 3, by one insert of (spa, sha); the disposition depends on the frame's bytes and OUR_IP alone. -/
def Obligations.FramePipelineLaws : Prop :=
  (∀ s t : State, exec .processFrame s = .next t → t.status.fail = false →
    (t.reg 0 ≠ 3 ∧ t.reg 0 ≠ 4 → SamePbuf s t) ∧
    (∀ a, a < (s.reg 3).toNat ∨ (s.reg 3).toNat + (t.reg 16).toNat ≤ a → t.byteAt a = s.byteAt a) ∧
    (t.reg 0 ≠ 2 ∧ t.reg 0 ≠ 3 → t.cache = s.cache) ∧
    (t.reg 0 = 2 ∨ t.reg 0 = 3 → t.cache = (cacheInsert s.params s.arpTimeout s.now s.cache
      (be32 (inputBytes s) 28) (be48 (inputBytes s) 22)).1)) ∧
  ∀ s s' t t' : State, exec .processFrame s = .next t → t.status.fail = false →
    exec .processFrame s' = .next t' → t'.status.fail = false →
    inputBytes s = inputBytes s' → s.ourIp = s'.ourIp → t.reg 0 = t'.reg 0
end

