-- ==== Sys2Proof/Laws/State.lean ====
section
/-! SUPPORT. For each update of the state, what each field is after it; then the register accessors. -/

namespace Sys2Proof.Machine

section
variable (s : State) (r : Reg) (v : Word)
@[simp] theorem setReg_params : (s.setReg r v).params = s.params := rfl
@[simp] theorem setReg_x : (s.setReg r v).x = s.x.set r.val v := rfl
@[simp] theorem setReg_cmd : (s.setReg r v).cmd = s.cmd := rfl
@[simp] theorem setReg_status : (s.setReg r v).status = s.status := rfl
@[simp] theorem setReg_err : (s.setReg r v).err = s.err := rfl
@[simp] theorem setReg_errInfo : (s.setReg r v).errInfo = s.errInfo := rfl
@[simp] theorem setReg_ourMac : (s.setReg r v).ourMac = s.ourMac := rfl
@[simp] theorem setReg_ourIp : (s.setReg r v).ourIp = s.ourIp := rfl
@[simp] theorem setReg_arpTimeout : (s.setReg r v).arpTimeout = s.arpTimeout := rfl
@[simp] theorem setReg_now : (s.setReg r v).now = s.now := rfl
@[simp] theorem setReg_replyTtl : (s.setReg r v).replyTtl = s.replyTtl := rfl
@[simp] theorem setReg_ck : (s.setReg r v).ck = s.ck := rfl
@[simp] theorem setReg_cache : (s.setReg r v).cache = s.cache := rfl
@[simp] theorem setReg_pbuf : (s.setReg r v).pbuf = s.pbuf := rfl
@[simp] theorem setReg_resetCount : (s.setReg r v).resetCount = s.resetCount := rfl
@[simp] theorem setReg_pending : (s.setReg r v).pending = s.pending := rfl
@[simp] theorem setReg_replies : (s.setReg r v).replies = s.replies := rfl
end

section
variable (s : State) (a : Nat) (b : Byte)
@[simp] theorem storeByte_params : (s.storeByte a b).params = s.params := rfl
@[simp] theorem storeByte_x : (s.storeByte a b).x = s.x := rfl
@[simp] theorem storeByte_cmd : (s.storeByte a b).cmd = s.cmd := rfl
@[simp] theorem storeByte_status : (s.storeByte a b).status = s.status := rfl
@[simp] theorem storeByte_err : (s.storeByte a b).err = s.err := rfl
@[simp] theorem storeByte_errInfo : (s.storeByte a b).errInfo = s.errInfo := rfl
@[simp] theorem storeByte_ourMac : (s.storeByte a b).ourMac = s.ourMac := rfl
@[simp] theorem storeByte_ourIp : (s.storeByte a b).ourIp = s.ourIp := rfl
@[simp] theorem storeByte_arpTimeout : (s.storeByte a b).arpTimeout = s.arpTimeout := rfl
@[simp] theorem storeByte_now : (s.storeByte a b).now = s.now := rfl
@[simp] theorem storeByte_replyTtl : (s.storeByte a b).replyTtl = s.replyTtl := rfl
@[simp] theorem storeByte_ck : (s.storeByte a b).ck = s.ck := rfl
@[simp] theorem storeByte_cache : (s.storeByte a b).cache = s.cache := rfl
@[simp] theorem storeByte_pbuf : (s.storeByte a b).pbuf = s.pbuf.write a b := rfl
@[simp] theorem storeByte_resetCount : (s.storeByte a b).resetCount = s.resetCount := rfl
@[simp] theorem storeByte_pending : (s.storeByte a b).pending = s.pending := rfl
@[simp] theorem storeByte_replies : (s.storeByte a b).replies = s.replies := rfl
end

section
variable (s : State) (r : HostReply)
@[simp] theorem reply_params : (s.reply r).params = s.params := rfl
@[simp] theorem reply_x : (s.reply r).x = s.x := rfl
@[simp] theorem reply_cmd : (s.reply r).cmd = s.cmd := rfl
@[simp] theorem reply_status : (s.reply r).status = s.status := rfl
@[simp] theorem reply_err : (s.reply r).err = s.err := rfl
@[simp] theorem reply_errInfo : (s.reply r).errInfo = s.errInfo := rfl
@[simp] theorem reply_ourMac : (s.reply r).ourMac = s.ourMac := rfl
@[simp] theorem reply_ourIp : (s.reply r).ourIp = s.ourIp := rfl
@[simp] theorem reply_arpTimeout : (s.reply r).arpTimeout = s.arpTimeout := rfl
@[simp] theorem reply_now : (s.reply r).now = s.now := rfl
@[simp] theorem reply_replyTtl : (s.reply r).replyTtl = s.replyTtl := rfl
@[simp] theorem reply_ck : (s.reply r).ck = s.ck := rfl
@[simp] theorem reply_cache : (s.reply r).cache = s.cache := rfl
@[simp] theorem reply_pbuf : (s.reply r).pbuf = s.pbuf := rfl
@[simp] theorem reply_resetCount : (s.reply r).resetCount = s.resetCount := rfl
@[simp] theorem reply_pending : (s.reply r).pending = s.pending := rfl
@[simp] theorem reply_replies : (s.reply r).replies = r :: s.replies := rfl
end

section
variable (s : State)
@[simp] theorem tick_params : s.tick.params = s.params := rfl
@[simp] theorem tick_x : s.tick.x = s.x := rfl
@[simp] theorem tick_cmd : s.tick.cmd = s.cmd := rfl
@[simp] theorem tick_status : s.tick.status = s.status := rfl
@[simp] theorem tick_err : s.tick.err = s.err := rfl
@[simp] theorem tick_errInfo : s.tick.errInfo = s.errInfo := rfl
@[simp] theorem tick_ourMac : s.tick.ourMac = s.ourMac := rfl
@[simp] theorem tick_ourIp : s.tick.ourIp = s.ourIp := rfl
@[simp] theorem tick_arpTimeout : s.tick.arpTimeout = s.arpTimeout := rfl
@[simp] theorem tick_now : s.tick.now = s.now + 1#64 := rfl
@[simp] theorem tick_replyTtl : s.tick.replyTtl = s.replyTtl := rfl
@[simp] theorem tick_ck : s.tick.ck = s.ck := rfl
@[simp] theorem tick_cache : s.tick.cache = s.cache := rfl
@[simp] theorem tick_pbuf : s.tick.pbuf = s.pbuf := rfl
@[simp] theorem tick_resetCount : s.tick.resetCount = s.resetCount := rfl
@[simp] theorem tick_pending : s.tick.pending = s.pending := rfl
@[simp] theorem tick_replies : s.tick.replies = s.replies := rfl
end

section
variable (s : State) (v : Word)
@[simp] theorem beginCommand_params : (s.beginCommand v).params = s.params := rfl
@[simp] theorem beginCommand_x : (s.beginCommand v).x = s.x := rfl
@[simp] theorem beginCommand_cmd : (s.beginCommand v).cmd = v.setWidth 32 := rfl
@[simp] theorem beginCommand_status : (s.beginCommand v).status = statusAtStart s.status := rfl
@[simp] theorem beginCommand_err : (s.beginCommand v).err = s.err := rfl
@[simp] theorem beginCommand_errInfo : (s.beginCommand v).errInfo = s.errInfo := rfl
@[simp] theorem beginCommand_ourMac : (s.beginCommand v).ourMac = s.ourMac := rfl
@[simp] theorem beginCommand_ourIp : (s.beginCommand v).ourIp = s.ourIp := rfl
@[simp] theorem beginCommand_arpTimeout : (s.beginCommand v).arpTimeout = s.arpTimeout := rfl
@[simp] theorem beginCommand_now : (s.beginCommand v).now = s.now := rfl
@[simp] theorem beginCommand_replyTtl : (s.beginCommand v).replyTtl = s.replyTtl := rfl
@[simp] theorem beginCommand_ck : (s.beginCommand v).ck = s.ck := rfl
@[simp] theorem beginCommand_cache : (s.beginCommand v).cache = s.cache := rfl
@[simp] theorem beginCommand_pbuf : (s.beginCommand v).pbuf = s.pbuf := rfl
@[simp] theorem beginCommand_resetCount : (s.beginCommand v).resetCount = s.resetCount := rfl
@[simp] theorem beginCommand_pending : (s.beginCommand v).pending = s.pending := rfl
@[simp] theorem beginCommand_replies : (s.beginCommand v).replies = s.replies := rfl
end

section
variable (s : State)
@[simp] theorem taken_params : s.taken.params = s.params := rfl
@[simp] theorem taken_x : s.taken.x = s.x := rfl
@[simp] theorem taken_cmd : s.taken.cmd = s.cmd := rfl
@[simp] theorem taken_status : s.taken.status = s.status := rfl
@[simp] theorem taken_err : s.taken.err = s.err := rfl
@[simp] theorem taken_errInfo : s.taken.errInfo = s.errInfo := rfl
@[simp] theorem taken_ourMac : s.taken.ourMac = s.ourMac := rfl
@[simp] theorem taken_ourIp : s.taken.ourIp = s.ourIp := rfl
@[simp] theorem taken_arpTimeout : s.taken.arpTimeout = s.arpTimeout := rfl
@[simp] theorem taken_now : s.taken.now = s.now := rfl
@[simp] theorem taken_replyTtl : s.taken.replyTtl = s.replyTtl := rfl
@[simp] theorem taken_ck : s.taken.ck = s.ck := rfl
@[simp] theorem taken_cache : s.taken.cache = s.cache := rfl
@[simp] theorem taken_pbuf : s.taken.pbuf = s.pbuf := rfl
@[simp] theorem taken_resetCount : s.taken.resetCount = s.resetCount := rfl
@[simp] theorem taken_pending : s.taken.pending = s.pending.tail := rfl
@[simp] theorem taken_replies : s.taken.replies = s.replies := rfl
end

section
variable (s : State) (e : Effects)
@[simp] theorem complete_params : (s.complete e).params = s.params := rfl
@[simp] theorem complete_x : (s.complete e).x = writeRegs s.x e.regs := rfl
@[simp] theorem complete_cmd : (s.complete e).cmd = s.cmd := rfl
@[simp] theorem complete_status : (s.complete e).status = statusAtEnd s.cmd false := rfl
@[simp] theorem complete_err : (s.complete e).err = errNone := rfl
@[simp] theorem complete_errInfo : (s.complete e).errInfo = 0#64 := rfl
@[simp] theorem complete_ourMac : (s.complete e).ourMac = s.ourMac := rfl
@[simp] theorem complete_ourIp : (s.complete e).ourIp = s.ourIp := rfl
@[simp] theorem complete_arpTimeout : (s.complete e).arpTimeout = s.arpTimeout := rfl
@[simp] theorem complete_now : (s.complete e).now = s.now := rfl
@[simp] theorem complete_replyTtl : (s.complete e).replyTtl = s.replyTtl := rfl
@[simp] theorem complete_ck : (s.complete e).ck = e.ck.getD s.ck := rfl
@[simp] theorem complete_cache : (s.complete e).cache = e.cache.getD s.cache := rfl
@[simp] theorem complete_pbuf : (s.complete e).pbuf = writeStore s.pbuf e.store := rfl
@[simp] theorem complete_resetCount : (s.complete e).resetCount = s.resetCount := rfl
@[simp] theorem complete_pending : (s.complete e).pending = s.pending := rfl
@[simp] theorem complete_replies : (s.complete e).replies = s.replies := rfl
end

section
variable (s : State) (e : CmdError)
@[simp] theorem raise_params : (s.raise e).params = s.params := rfl
@[simp] theorem raise_x : (s.raise e).x = s.x := rfl
@[simp] theorem raise_cmd : (s.raise e).cmd = s.cmd := rfl
@[simp] theorem raise_status : (s.raise e).status = statusAtEnd s.cmd true := rfl
@[simp] theorem raise_err : (s.raise e).err = e.errReg := rfl
@[simp] theorem raise_errInfo : (s.raise e).errInfo = e.info := rfl
@[simp] theorem raise_ourMac : (s.raise e).ourMac = s.ourMac := rfl
@[simp] theorem raise_ourIp : (s.raise e).ourIp = s.ourIp := rfl
@[simp] theorem raise_arpTimeout : (s.raise e).arpTimeout = s.arpTimeout := rfl
@[simp] theorem raise_now : (s.raise e).now = s.now := rfl
@[simp] theorem raise_replyTtl : (s.raise e).replyTtl = s.replyTtl := rfl
@[simp] theorem raise_ck : (s.raise e).ck = s.ck := rfl
@[simp] theorem raise_cache : (s.raise e).cache = s.cache := rfl
@[simp] theorem raise_pbuf : (s.raise e).pbuf = s.pbuf := rfl
@[simp] theorem raise_resetCount : (s.raise e).resetCount = s.resetCount := rfl
@[simp] theorem raise_pending : (s.raise e).pending = s.pending := rfl
@[simp] theorem raise_replies : (s.raise e).replies = s.replies := rfl
end

section
variable (s : State) (code sub layer : BitVec 8) (info : Word)
@[simp] theorem report_params : (s.report code sub layer info).params = s.params := rfl
@[simp] theorem report_x : (s.report code sub layer info).x = s.x := rfl
@[simp] theorem report_cmd : (s.report code sub layer info).cmd = s.cmd := rfl
@[simp] theorem report_status : (s.report code sub layer info).status = { busy := false, done := true, fail := true, lastOpc := s.cmd.setWidth 8 } := rfl
@[simp] theorem report_err : (s.report code sub layer info).err = { code := code, sub := sub, layer := layer } := rfl
@[simp] theorem report_errInfo : (s.report code sub layer info).errInfo = info := rfl
@[simp] theorem report_ourMac : (s.report code sub layer info).ourMac = s.ourMac := rfl
@[simp] theorem report_ourIp : (s.report code sub layer info).ourIp = s.ourIp := rfl
@[simp] theorem report_arpTimeout : (s.report code sub layer info).arpTimeout = s.arpTimeout := rfl
@[simp] theorem report_now : (s.report code sub layer info).now = s.now := rfl
@[simp] theorem report_replyTtl : (s.report code sub layer info).replyTtl = s.replyTtl := rfl
@[simp] theorem report_ck : (s.report code sub layer info).ck = s.ck := rfl
@[simp] theorem report_cache : (s.report code sub layer info).cache = s.cache := rfl
@[simp] theorem report_pbuf : (s.report code sub layer info).pbuf = s.pbuf := rfl
@[simp] theorem report_resetCount : (s.report code sub layer info).resetCount = s.resetCount := rfl
@[simp] theorem report_pending : (s.report code sub layer info).pending = s.pending := rfl
@[simp] theorem report_replies : (s.report code sub layer info).replies = s.replies := rfl
end

/-! ### Registers -/

theorem reg_setReg (s : State) (r q : Reg) (v : Word) : (s.setReg r v).reg q = if q = r then v else s.reg q := by
  simp only [State.reg, State.setReg, Vector.getElem_set, Fin.ext_iff, eq_comm]

@[simp] theorem reg_setReg_same (s : State) (r : Reg) (v : Word) : (s.setReg r v).reg r = v := by
  simp [reg_setReg]

theorem reg_setReg_other (s : State) {r q : Reg} (v : Word) (h : q ≠ r) : (s.setReg r v).reg q = s.reg q := by
  simp [reg_setReg, h]

/-- Two states with the same registers read the same through `reg`. -/
theorem reg_congr {s t : State} (h : t.x = s.x) (r : Reg) : t.reg r = s.reg r := by
  simp only [State.reg, h]

/-- The register file is what `reg` reads of it. -/
theorem x_ext {s t : State} (h : ∀ r, t.reg r = s.reg r) : t.x = s.x := by
  apply Vector.ext
  intro i hi
  exact h ⟨i, hi⟩

@[simp] theorem writeRegs_nil (x : Vector Word 32) : writeRegs x [] = x := rfl

theorem writeRegs_cons (x : Vector Word 32) (r : Reg) (v : Word) (rest : List (Reg × Word)) :
    writeRegs x ((r, v) :: rest) = writeRegs (x.set r.val v) rest := rfl

/-- A register that no result names keeps its value. -/
theorem writeRegs_other (x : Vector Word 32) (rs : List (Reg × Word)) (q : Reg) (h : q ∉ rs.map Prod.fst) :
    (writeRegs x rs)[q.val] = x[q.val] := by
  induction rs generalizing x with
  | nil => rfl
  | cons p rest ih =>
    obtain ⟨r, v⟩ := p
    simp only [List.map_cons, List.mem_cons, not_or] at h
    rw [writeRegs_cons, ih _ h.2, Vector.getElem_set_ne]
    exact fun hc => h.1 (Fin.ext hc.symm)

/-- A result that a command names once gets its value, if no later result names the register again. -/
theorem writeRegs_cons_same (x : Vector Word 32) (r : Reg) (v : Word) (rest : List (Reg × Word))
    (h : r ∉ rest.map Prod.fst) : (writeRegs x ((r, v) :: rest))[r.val] = v := by
  rw [writeRegs_cons, writeRegs_other _ _ _ h, Vector.getElem_set_self]

theorem reg_complete (s : State) (e : Effects) (q : Reg) : (s.complete e).reg q = (writeRegs s.x e.regs)[q.val] := rfl

@[simp] theorem reg_raise (s : State) (e : CmdError) (q : Reg) : (s.raise e).reg q = s.reg q := rfl

@[simp] theorem reg_report (s : State) (code sub layer : BitVec 8) (info : Word) (q : Reg) :
    (s.report code sub layer info).reg q = s.reg q := rfl

/-- The register after a command is the last value named for it, or what it was. -/
theorem reg_complete_other (s : State) (e : Effects) (q : Reg) (h : q ∉ e.regs.map Prod.fst) :
    (s.complete e).reg q = s.reg q := writeRegs_other _ _ _ h

end Sys2Proof.Machine
end

