-- ==== Sys2Proof/Laws/Memory.lean ====
section
/-! SUPPORT. PBUF: what is read after a write, and that every operation keeps the canonical form and the bounds. -/

namespace Sys2Proof.Machine

/-! ### One byte -/

theorem read?_write (m : Memory) (a a' : Nat) (v : Byte) :
    Memory.read? (m.write a v) a' = if a' = a then some v else m.read? a' := by
  induction m with
  | nil => simp [Memory.write, Memory.read?]
  | cons c m ih =>
    obtain ⟨k, b⟩ := c
    simp only [Memory.write]
    split
    · simp [Memory.read?]
    · split
      · subst_vars
        simp only [Memory.read?]
        split <;> rfl
      · simp only [Memory.read?, ih]
        split
        · subst_vars
          rw [if_neg]
          exact fun h => by simp_all
        · rfl

/-- The addresses a write lists: the old ones and its own. -/
theorem mem_write {m : Memory} {a : Nat} {v : Byte} {c : Host.Cell} (h : c ∈ m.write a v) : c.1 = a ∨ c ∈ m := by
  induction m with
  | nil => simp_all [Memory.write]
  | cons d m ih =>
    obtain ⟨k, b⟩ := d
    simp only [Memory.write] at h
    split at h
    · rcases List.mem_cons.1 h with rfl | h
      · exact .inl rfl
      · exact .inr h
    · split at h
      · rcases List.mem_cons.1 h with rfl | h
        · exact .inl rfl
        · exact .inr (List.mem_cons_of_mem _ h)
      · rcases List.mem_cons.1 h with rfl | h
        · exact .inr List.mem_cons_self
        · exact (ih h).imp id (List.mem_cons_of_mem _)

theorem wf_write {m : Memory} (h : Memory.wf m) (a : Nat) (v : Byte) : Memory.wf (m.write a v) := by
  induction m with
  | nil => simp [Memory.write]
  | cons c m ih =>
    obtain ⟨k, b⟩ := c
    obtain ⟨hk, hm⟩ := List.pairwise_cons.1 h
    simp only [Memory.write]
    split
    · refine List.pairwise_cons.2 ⟨fun d hd => ?_, h⟩
      rcases List.mem_cons.1 hd with rfl | hd
      · assumption
      · exact Nat.lt_trans ‹_› (hk d hd)
    · split
      · subst_vars
        exact List.pairwise_cons.2 ⟨hk, hm⟩
      · refine List.pairwise_cons.2 ⟨fun d hd => ?_, ih hm⟩
        rcases mem_write hd with hd | hd
        · simp only [hd]
          omega
        · exact hk d hd

theorem within_write {m : Memory} {size : Nat} (h : Memory.within m size) {a : Nat} (ha : a < size) (v : Byte) :
    Memory.within (m.write a v) size := by
  intro c hc
  rcases mem_write hc with hc | hc
  · omega
  · exact h c hc

/-! ### Consecutive bytes -/

/-- Reading after consecutive bytes are written: inside them the byte written, outside them what was there. -/
theorem read?_writeBytes (m : Memory) (a : Nat) (bs : List Byte) (a' : Nat) :
    Memory.read? (m.writeBytes a bs) a' =
      if h : a ≤ a' ∧ a' - a < bs.length then some (bs[a' - a]'h.2) else m.read? a' := by
  induction bs generalizing m a with
  | nil => simp [Memory.writeBytes]
  | cons b bs ih =>
    rw [Memory.writeBytes, ih]
    by_cases h1 : a + 1 ≤ a' ∧ a' - (a + 1) < bs.length
    · have h2 : a ≤ a' ∧ a' - a < (b :: bs).length := by simp only [List.length_cons]; omega
      rw [dif_pos h1, dif_pos h2]
      have : a' - a = a' - (a + 1) + 1 := by omega
      simp [this]
    · rw [dif_neg h1, read?_write]
      by_cases h3 : a' = a
      · subst h3
        simp
      · rw [if_neg h3, dif_neg]
        simp only [List.length_cons]
        omega

theorem wf_writeBytes {m : Memory} (h : Memory.wf m) (a : Nat) (bs : List Byte) : Memory.wf (m.writeBytes a bs) := by
  induction bs generalizing m a with
  | nil => exact h
  | cons b bs ih => exact ih (wf_write h a b) (a + 1)

theorem within_writeBytes {m : Memory} {size : Nat} (h : Memory.within m size) {a : Nat} {bs : List Byte}
    (ha : a + bs.length ≤ size) : Memory.within (m.writeBytes a bs) size := by
  induction bs generalizing m a with
  | nil => exact h
  | cons b bs ih =>
    simp only [List.length_cons] at ha
    exact ih (within_write h (by omega) b) (by omega)

theorem reset_memory_wf (p : Params) : Memory.wf (State.resetWith p).pbuf ∧
    Memory.within (State.resetWith p).pbuf p.pbufSize := by
  simp [State.resetWith]

/-- Memories in canonical form that read the same are the same data. -/
theorem wf_ext {m m' : Memory} (h : Memory.wf m) (h' : Memory.wf m')
    (hr : ∀ a, Memory.read? m a = Memory.read? m' a) : m = m' := by
  have none_below : ∀ {m : Memory} {k : Nat}, (∀ c ∈ m, k < c.1) → ∀ a ≤ k, Memory.read? m a = none := by
    intro m
    induction m with
    | nil => intros; rfl
    | cons c m ih =>
      intro k hk a ha
      have := hk c List.mem_cons_self
      rw [show Memory.read? (c :: m) a = if a = c.1 then some c.2 else Memory.read? m a from rfl, if_neg (by omega)]
      exact ih (fun d hd => hk d (List.mem_cons_of_mem _ hd)) a ha
  induction m generalizing m' with
  | nil =>
    cases m' with
    | nil => rfl
    | cons c m' => have := hr c.1; simp [Memory.read?] at this
  | cons c m ih =>
    obtain ⟨k, b⟩ := c
    cases m' with
    | nil => have := hr k; simp [Memory.read?] at this
    | cons c' m' =>
      obtain ⟨k', b'⟩ := c'
      obtain ⟨hk, hm⟩ := List.pairwise_cons.1 h
      obtain ⟨hk', hm'⟩ := List.pairwise_cons.1 h'
      have hkk : k = k' := by
        rcases Nat.lt_trichotomy k k' with hlt | heq | hlt
        · have h1 := hr k
          rw [none_below (m := (k', b') :: m') (k := k) (fun d hd => ?_) k (Nat.le_refl k)] at h1
          · simp [Memory.read?] at h1
          · rcases List.mem_cons.1 hd with rfl | hd
            · exact hlt
            · exact Nat.lt_trans hlt (hk' d hd)
        · exact heq
        · have h1 := hr k'
          rw [none_below (m := (k, b) :: m) (k := k') (fun d hd => ?_) k' (Nat.le_refl k')] at h1
          · simp [Memory.read?] at h1
          · rcases List.mem_cons.1 hd with rfl | hd
            · exact hlt
            · exact Nat.lt_trans hlt (hk d hd)
      subst hkk
      have hb : b = b' := by have := hr k; simpa [Memory.read?] using this
      subst hb
      congr 1
      refine ih hm hm' fun a => ?_
      by_cases ha : a = k
      · subst ha
        rw [none_below hk a (Nat.le_refl a), none_below hk' a (Nat.le_refl a)]
      · have := hr a
        simpa [Memory.read?, ha] using this

/-! ### Through the state -/

theorem bytesAt_length (s : State) (a n : Nat) : (s.bytesAt a n).length = n := by
  simp [State.bytesAt]

@[simp] theorem bytesAt_getElem (s : State) (a n k : Nat) (h : k < (s.bytesAt a n).length) :
    (s.bytesAt a n)[k] = s.byteAt (a + k) := by
  simp [State.bytesAt]

@[simp] theorem byteAt_setReg (s : State) (r : Reg) (v : Word) (a : Nat) : (s.setReg r v).byteAt a = s.byteAt a := rfl

@[simp] theorem bytesAt_setReg (s : State) (r : Reg) (v : Word) (a n : Nat) : (s.setReg r v).bytesAt a n = s.bytesAt a n := rfl

theorem bytesAt_drop (s : State) (a n k : Nat) : (s.bytesAt a n).drop k = s.bytesAt (a + k) (n - k) := by
  apply List.ext_getElem
  · simp [State.bytesAt]
  · intro i h1 h2
    simp [State.bytesAt, Nat.add_assoc]

/-- The bytes at an address, from what each of them reads. -/
theorem bytesAt_eq (s : State) (a : Nat) (bs : List Byte) (h : ∀ k, (hk : k < bs.length) → s.byteAt (a + k) = bs[k]) :
    s.bytesAt a bs.length = bs := by
  apply List.ext_getElem (bytesAt_length s a _)
  intro k h1 h2
  simp [h k h2]

theorem byteAt_congr {s t : State} (hp : t.pbuf = s.pbuf) (hr : t.resetCount = s.resetCount) (a : Nat) :
    t.byteAt a = s.byteAt a := by
  simp only [State.byteAt, hp, hr]

theorem bytesAt_congr {s t : State} (hp : t.pbuf = s.pbuf) (hr : t.resetCount = s.resetCount) (a n : Nat) :
    t.bytesAt a n = s.bytesAt a n := by
  simp only [State.bytesAt, byteAt_congr hp hr]

@[simp] theorem byteAt_storeByte (s : State) (a : Nat) (b : Byte) (a' : Nat) :
    (s.storeByte a b).byteAt a' = if a' = a then b else s.byteAt a' := by
  simp only [State.byteAt, storeByte_pbuf, storeByte_resetCount, read?_write]
  split <;> rfl

@[simp] theorem byteAt_raise (s : State) (e : CmdError) (a : Nat) : (s.raise e).byteAt a = s.byteAt a := rfl

/-- A command that stores nothing leaves every byte. -/
theorem byteAt_complete_none (s : State) (e : Effects) (h : e.store = none) (a : Nat) :
    (s.complete e).byteAt a = s.byteAt a := by
  apply byteAt_congr
  · simp [h, writeStore]
  · rfl

/-- A command that stores bytes leaves exactly those bytes there, and every other byte as it was. -/
theorem stored_complete (s : State) (e : Effects) (st : Store) (h : e.store = some st) :
    Stored s (s.complete e) st.addr st.bytes := by
  constructor
  · intro k hk
    simp only [State.byteAt, complete_pbuf, complete_resetCount, h, writeStore, read?_writeBytes]
    rw [dif_pos ⟨by omega, by omega⟩]
    simp
  · intro a ha
    simp only [State.byteAt, complete_pbuf, complete_resetCount, h, writeStore, read?_writeBytes]
    rw [dif_neg (by omega)]

/-- What Stored says of the whole range at once. -/
theorem Stored.bytesAt {s t : State} {a : Nat} {bs : List Byte} (h : Stored s t a bs) : t.bytesAt a bs.length = bs :=
  bytesAt_eq t a bs h.1

end Sys2Proof.Machine
end

