-- ==== Sys2Proof/Laws/Bytes.lean ====
section
/-! SUPPORT. Byte sequences: lengths, fields of concatenations, and the round trips of put16, put32 and put48. -/

namespace Sys2Proof.Machine

@[simp] theorem put16_length (v : BitVec 16) : (put16 v).length = 2 := rfl
@[simp] theorem put32_length (v : BitVec 32) : (put32 v).length = 4 := rfl
@[simp] theorem put48_length (v : BitVec 48) : (put48 v).length = 6 := rfl
@[simp] theorem zeros_length (n : Nat) : (zeros n).length = n := by simp [zeros]

@[simp] theorem append_halves16 (v : BitVec 16) : v.extractLsb' 8 8 ++ v.extractLsb' 0 8 = v := by
  ext i hi
  simp only [BitVec.getElem_append, BitVec.getElem_extractLsb', Nat.zero_add]
  split <;> simp [BitVec.getElem_eq_testBit_toNat, BitVec.getLsbD, *]
  rw [show 8 + (i - 8) = i by omega]

@[simp] theorem append_halves32 (v : BitVec 32) : v.extractLsb' 16 16 ++ v.extractLsb' 0 16 = v := by
  ext i hi
  simp only [BitVec.getElem_append, BitVec.getElem_extractLsb', Nat.zero_add]
  split <;> simp [BitVec.getElem_eq_testBit_toNat, BitVec.getLsbD, *]
  rw [show 16 + (i - 16) = i by omega]

@[simp] theorem append_halves48 (v : BitVec 48) : v.extractLsb' 32 16 ++ v.extractLsb' 0 32 = v := by
  ext i hi
  simp only [BitVec.getElem_append, BitVec.getElem_extractLsb', Nat.zero_add]
  split <;> simp [BitVec.getElem_eq_testBit_toNat, BitVec.getLsbD, *]
  rw [show 32 + (i - 32) = i by omega]

theorem extract_hi {v w : Nat} (a : BitVec v) (b : BitVec w) : (a ++ b).extractLsb' w v = a := by
  ext i h
  simp [BitVec.getLsbD_append, h]

theorem extract_lo {v w : Nat} (a : BitVec v) (b : BitVec w) : (a ++ b).extractLsb' 0 w = b := by
  ext i h
  simp [BitVec.getLsbD_append, h]

/-- The halves of two bytes put together. -/
theorem put16_append (hi lo : Byte) : put16 (hi ++ lo) = [hi, lo] := by
  simp only [put16, List.cons.injEq, and_true]
  exact ⟨extract_hi hi lo, extract_lo hi lo⟩

theorem toNat_append {v w : Nat} (a : BitVec v) (b : BitVec w) : (a ++ b).toNat = a.toNat * 2 ^ w + b.toNat := by
  rw [BitVec.toNat_append, Nat.shiftLeft_eq, Nat.mul_comm, ← Nat.two_pow_add_eq_or_of_lt b.isLt]

theorem be16_toNat (b : List Byte) (k : Nat) :
    (be16 b k).toNat = (byteOf b k).toNat * 256 + (byteOf b (k + 1)).toNat :=
  toNat_append (byteOf b k) (byteOf b (k + 1))

/-! ### Offsets in a concatenation -/

theorem byteOf_append_right (a b : List Byte) (k : Nat) (h : a.length ≤ k) : byteOf (a ++ b) k = byteOf b (k - a.length) := by
  simp [byteOf, List.getD_eq_getElem?_getD, List.getElem?_append_right h]

theorem byteOf_append_left (a b : List Byte) (k : Nat) (h : k < a.length) : byteOf (a ++ b) k = byteOf a k := by
  simp [byteOf, List.getD_eq_getElem?_getD, List.getElem?_append_left h]

theorem byteOf_drop (b : List Byte) (n k : Nat) : byteOf (b.drop n) k = byteOf b (n + k) := by
  simp [byteOf, List.getD_eq_getElem?_getD]

theorem be16_drop (b : List Byte) (n k : Nat) : be16 (b.drop n) k = be16 b (n + k) := by
  simp [be16, byteOf_drop, Nat.add_assoc]

theorem be32_drop (b : List Byte) (n k : Nat) : be32 (b.drop n) k = be32 b (n + k) := by
  simp [be32, be16_drop, Nat.add_assoc]

theorem be48_drop (b : List Byte) (n k : Nat) : be48 (b.drop n) k = be48 b (n + k) := by
  simp [be48, be16_drop, be32_drop, Nat.add_assoc]

/-- The bytes of a field, from the sequence it was read from. -/
theorem put16_be16 (b : List Byte) (k : Nat) (h : k + 2 ≤ b.length) : put16 (be16 b k) = (b.drop k).take 2 := by
  rw [be16, put16_append]
  apply List.ext_getElem
  · simp; omega
  · intro i h1 h2
    match i with
    | 0 => simp [byteOf, List.getD_eq_getElem?_getD, List.getElem?_eq_getElem (show k < b.length by omega)]
    | 1 => simp [byteOf, List.getD_eq_getElem?_getD, List.getElem?_eq_getElem (show k + 1 < b.length by omega)]
    | i + 2 => simp at h1

theorem put32_be32 (b : List Byte) (k : Nat) (h : k + 4 ≤ b.length) : put32 (be32 b k) = (b.drop k).take 4 := by
  have e1 : (be32 b k).extractLsb' 16 16 = be16 b k := extract_hi _ _
  have e2 : (be32 b k).extractLsb' 0 16 = be16 b (k + 2) := extract_lo _ _
  rw [put32, e1, e2, put16_be16 _ _ (by omega), put16_be16 _ _ (by omega), show (4 : Nat) = 2 + 2 from rfl, List.take_add,
    List.drop_drop]

theorem put48_be48 (b : List Byte) (k : Nat) (h : k + 6 ≤ b.length) : put48 (be48 b k) = (b.drop k).take 6 := by
  have e1 : (be48 b k).extractLsb' 32 16 = be16 b k := extract_hi _ _
  have e2 : (be48 b k).extractLsb' 0 32 = be32 b (k + 2) := extract_lo _ _
  rw [put48, e1, e2, put16_be16 _ _ (by omega), put32_be32 _ _ (by omega), show (6 : Nat) = 2 + 4 from rfl, List.take_add,
    List.drop_drop]

end Sys2Proof.Machine
end

