-- ==== Sys2Proof/Laws/Exec.lean ====
section
/-! SUPPORT. How commands end: what each shared operation answers, and what the committed state holds. -/

namespace Sys2Proof.Machine

/-! ### Sequencing -/

@[simp] theorem except_ok_bind {ε α β : Type} (a : α) (f : α → Except ε β) : (Except.ok a >>= f) = f a := rfl
@[simp] theorem except_error_bind {ε α β : Type} (e : ε) (f : α → Except ε β) : (Except.error e >>= f) = .error e := rfl
@[simp] theorem except_pure {ε α : Type} (a : α) : (pure a : Except ε α) = .ok a := rfl
@[simp] theorem except_map_ok {ε α β : Type} (a : α) (f : α → β) : (Except.ok a : Except ε α).map f = .ok (f a) := rfl
@[simp] theorem except_map_error {ε α β : Type} (e : ε) (f : α → β) : (Except.error e : Except ε α).map f = .error e := rfl
@[simp] theorem finish_ok (s : State) (e : Effects) : finish s (.ok e) = .next (s.complete e) := rfl
@[simp] theorem finish_error (s : State) (e : CmdError) : finish s (.error e) = .next (s.raise e) := rfl

/-- Every command ends in a next state: its effects, or its report. -/
theorem finish_cases (s t : State) (r : Except CmdError Effects) (h : finish s r = .next t) :
    (∃ e, r = .ok e ∧ t = s.complete e) ∨ ∃ e, r = .error e ∧ t = s.raise e := by
  cases r with
  | ok e => exact .inl ⟨e, rfl, by simpa using h.symm⟩
  | error e => exact .inr ⟨e, rfl, by simpa using h.symm⟩

/-- Every command is some effects or some error, committed. -/
theorem exec_eq_finish (i : Instr) (s : State) : ∃ r, exec i s = finish s r := by
  cases i <;>
    simp only [exec, execCkClear, execCkAccum, execCkFinal, execCksum, execCkVerify, execEthParse, execEthClassify,
      execEthBuild, execArpParse, execArpBuildReq, execArpBuildReply, execArpHandle, execArpcInsert, execArpcLookup,
      execArpcSweep, execArpcRemove, execArpcCount, execIp4Parse, execIp4Build, execIp4Emit, execIcmpParse, execIcmpEmit,
      execIcmpBuildReply, execUdpParse, execUdpBuild, execUdpBuildEcho, execProcessFrame] <;>
    exact ⟨_, rfl⟩

/-- Every command ends in a next state: its effects on the state, or the report of its error. -/
theorem exec_cases (i : Instr) (s : State) :
    (∃ e, exec i s = .next (s.complete e)) ∨ ∃ e, exec i s = .next (s.raise e) := by
  obtain ⟨r, h⟩ := exec_eq_finish i s
  rw [h]
  cases r with
  | ok e => exact .inl ⟨e, rfl⟩
  | error e => exact .inr ⟨e, rfl⟩

/-! ### Operands -/

theorem inputBytes_length (s : State) : (inputBytes s).length = (s.reg 2).toNat := bytesAt_length s _ _

theorem input_ok {s : State} (h : InputInRange s) : s.input = .ok (inputBytes s) := by
  simp [State.input, State.memRead, State.inRange, inputBytes, show (s.reg 1).toNat + (s.reg 2).toNat ≤ _ from h]

theorem input_error {s : State} (h : ¬ InputInRange s) : s.input = .error (.bufferRange 0 (s.reg 1)) := by
  simp [State.input, State.memRead, State.inRange, show ¬ (s.reg 1).toNat + (s.reg 2).toNat ≤ _ from h]

theorem output_ok {s : State} {b : List Byte} (h : OutputInRange s b.length) :
    s.output b = .ok { addr := (s.reg 3).toNat, bytes := b } := by
  simp [State.output, State.memWrite, State.inRange, show (s.reg 3).toNat + _ ≤ _ from h]

theorem output_error {s : State} {b : List Byte} (h : ¬ OutputInRange s b.length) :
    s.output b = .error (.bufferRange 1 (s.reg 3)) := by
  simp [State.output, State.memWrite, State.inRange, show ¬ (s.reg 3).toNat + _ ≤ _ from h]

theorem emit_ok {s : State} {b : List Byte} (h : OutputInRange s b.length) :
    s.emit b = .ok { regs := [(0, word64 b.length)], store := some { addr := (s.reg 3).toNat, bytes := b } } := by
  simp [State.emit, output_ok h]

theorem emit_error {s : State} {b : List Byte} (h : ¬ OutputInRange s b.length) :
    s.emit b = .error (.bufferRange 1 (s.reg 3)) := by
  simp [State.emit, output_error h]

theorem requireLen_ok {l : Layer} {b : List Byte} {n : Nat} (h : n ≤ b.length) : requireLen l b n = .ok () := by
  simp [requireLen, Nat.not_lt.2 h]

theorem requireLen_error {l : Layer} {b : List Byte} {n : Nat} (h : b.length < n) :
    requireLen l b n = .error (.invalidPacket l 0 b.length n) := by
  simp [requireLen, h]

/-! ### The committed state -/

theorem raise_eq_report (s : State) (e : CmdError) : s.raise e = s.report e.kind.code e.subCode e.layerCode e.info := rfl

theorem completed_complete (s : State) (e : Effects) : Completed s (s.complete e) := ⟨rfl, rfl, rfl⟩

theorem keeps_complete (s : State) (e : Effects) (results : List Reg) (h : ∀ q ∈ e.regs.map Prod.fst, q ∈ results) :
    Keeps s (s.complete e) results where
  regs r hr := reg_complete_other s e r fun hm => hr (h r hm)
  params := rfl
  cmd := rfl
  ourMac := rfl
  ourIp := rfl
  arpTimeout := rfl
  now := rfl
  replyTtl := rfl
  resetCount := rfl
  pending := rfl
  replies := rfl

theorem keeps_raise (s : State) (e : CmdError) (results : List Reg) : Keeps s (s.raise e) results where
  regs _ _ := rfl
  params := rfl
  cmd := rfl
  ourMac := rfl
  ourIp := rfl
  arpTimeout := rfl
  now := rfl
  replyTtl := rfl
  resetCount := rfl
  pending := rfl
  replies := rfl

theorem writesOnly_complete (s : State) (regs : List (Reg × Word)) (results : List Reg)
    (h : regs.map Prod.fst = results) : WritesOnly s (s.complete { regs := regs }) results :=
  ⟨completed_complete _ _, keeps_complete _ _ _ (by simp [h]), rfl, rfl, byteAt_complete_none _ _ rfl⟩

/-- What a result register holds: the last value the effects give it. -/
theorem reg_complete_lookup (s : State) (e : Effects) (q : Reg) :
    (s.complete e).reg q = ((e.regs.reverse.find? (·.1 = q)).map (·.2)).getD (s.reg q) := by
  obtain ⟨regs, _, _, _⟩ := e
  rw [reg_complete]
  simp only [State.reg]
  generalize s.x = x
  induction regs generalizing x with
  | nil => rfl
  | cons p rest ih =>
    obtain ⟨r, v⟩ := p
    rw [writeRegs_cons, ih]
    simp only [List.reverse_cons, List.find?_append]
    cases h : rest.reverse.find? (·.1 = q) with
    | some _ => simp
    | none =>
      by_cases hr : r = q
      · subst hr; simp
      · simp [hr, Fin.val_inj]

theorem builds_complete {s : State} {b : List Byte} :
    Builds s (s.complete { regs := [(0, word64 b.length)], store := some { addr := (s.reg 3).toNat, bytes := b } }) b :=
  ⟨completed_complete _ _, keeps_complete _ _ _ (by simp), rfl, rfl, by simp [reg_complete_lookup], 
    stored_complete s { regs := [(0, word64 b.length)], store := some { addr := (s.reg 3).toNat, bytes := b } } _ rfl⟩

end Sys2Proof.Machine
end

