-- ==== Sys2Proof/Laws/Wire.lean ====
section
/-! SUPPORT. The wire formats: lengths of what the builders write, and the packed fields of the IPv4 header. -/

namespace Sys2Proof.Machine

@[simp] theorem withChecksum_length (b : List Byte) (k : Nat) (c : BitVec 16) (h : k + 2 ≤ b.length) :
    (withChecksum b k c).length = b.length := by
  simp [withChecksum, slice]; omega

@[simp] theorem etherFrame_length (d s : BitVec 48) (t : BitVec 16) (p : List Byte) :
    (etherFrame d s t p).length = 14 + p.length := by
  simp [etherFrame]; omega

@[simp] theorem arpBytes_length (p : ArpPacket) : p.bytes.length = 28 := by simp [ArpPacket.bytes]

@[simp] theorem ip4HeaderBytes_length (h : Ip4Header) : h.bytes.length = 20 := by simp [Ip4Header.bytes]

@[simp] theorem icmpSeal_length (b : List Byte) (h : 4 ≤ b.length) : (icmpSeal b).length = b.length := by
  simp [icmpSeal, h]

@[simp] theorem icmpMessage_length (t c : Byte) (i q : BitVec 16) (p : List Byte) :
    (icmpMessage t c i q p).length = 8 + p.length := by
  rw [icmpMessage, icmpSeal_length _ (by simp)]
  simp
  omega

@[simp] theorem icmpReply_length (b : List Byte) (h : 8 ≤ b.length) : (icmpReply b).length = b.length := by
  rw [icmpReply, icmpSeal_length _ (by simp)]
  simp [slice]
  omega

theorem ip4Build_ok {src dst : BitVec 32} {pr ttl : Byte} {p : List Byte} (h : 20 + p.length ≤ 0xFFFF) :
    ip4Build src dst pr ttl p = .ok (withChecksum (ip4BuildHeader src dst pr ttl (20 + p.length)).bytes 10
      (cksum (ip4BuildHeader src dst pr ttl (20 + p.length)).bytes) ++ p) := by
  simp only [ip4Build]; rw [if_neg (by omega)]

theorem ip4Build_error {src dst : BitVec 32} {pr ttl : Byte} {p : List Byte} (h : 0xFFFF < 20 + p.length) :
    ip4Build src dst pr ttl p = .error (.lengthOverflow 0 (20 + p.length)) := by
  simp only [ip4Build]; rw [if_pos h]

theorem ip4Build_length {src dst : BitVec 32} {pr ttl : Byte} {p out : List Byte} (h : ip4Build src dst pr ttl p = .ok out) :
    out.length = 20 + p.length := by
  by_cases hp : 20 + p.length ≤ 0xFFFF
  · rw [ip4Build_ok hp] at h
    rw [← Except.ok.inj h, List.length_append, withChecksum_length _ _ _ (by simp), ip4HeaderBytes_length]
  · rw [ip4Build_error (by omega)] at h
    simp at h

theorem udpBytes_ok {sa da : BitVec 32} {sp dp : BitVec 16} {p : List Byte} (h : 8 + p.length ≤ 0xFFFF) :
    udpBytes sa da sp dp p = .ok (withChecksum (udpUnsealed sp dp p) 6
      (cksum (udpPseudoHeader sa da (8 + p.length) ++ udpUnsealed sp dp p))) := by
  simp only [udpBytes]; rw [if_neg (by omega)]

theorem udpBytes_error {sa da : BitVec 32} {sp dp : BitVec 16} {p : List Byte} (h : 0xFFFF < 8 + p.length) :
    udpBytes sa da sp dp p = .error (.lengthOverflow 1 (8 + p.length)) := by
  simp only [udpBytes]; rw [if_pos h]

@[simp] theorem udpUnsealed_length (sp dp : BitVec 16) (p : List Byte) : (udpUnsealed sp dp p).length = 8 + p.length := by
  simp [udpUnsealed]; omega

/-! ### Packed fields -/

theorem ip4Header_ihl (b : List Byte) : (ip4Header b).ihl.toNat = (byteOf b 0).toNat % 16 := by
  simp only [ip4Header, BitVec.toNat_setWidth, BitVec.toNat_and, BitVec.toNat_ofNat]
  rw [show 15 % 2 ^ 8 = 2 ^ 4 - 1 from rfl, Nat.and_two_pow_sub_one_eq_mod]
  simp

theorem ip4Header_version (b : List Byte) : (ip4Header b).version.toNat = (byteOf b 0).toNat / 16 := by
  have := (byteOf b 0).isLt
  simp only [ip4Header, BitVec.toNat_setWidth, BitVec.toNat_ushiftRight, Nat.shiftRight_eq_div_pow]
  omega

theorem ip4Header_flags (b : List Byte) : (ip4Header b).flags.toNat = (be16 b 6).toNat / 2 ^ 13 := by
  have := (be16 b 6).isLt
  simp only [ip4Header, BitVec.toNat_setWidth, BitVec.toNat_ushiftRight, Nat.shiftRight_eq_div_pow]
  omega

theorem ip4Header_fragmentOffset (b : List Byte) : (ip4Header b).fragmentOffset.toNat = (be16 b 6).toNat % 2 ^ 13 := by
  simp only [ip4Header, BitVec.toNat_setWidth, BitVec.toNat_and, BitVec.toNat_ofNat]
  rw [show 8191 % 2 ^ 16 = 2 ^ 13 - 1 from rfl, Nat.and_two_pow_sub_one_eq_mod]
  simp

/-- A parse with its three checks passed (R291). -/
theorem ip4Parse_ok {b : List Byte} (h1 : 20 ≤ b.length) (h2 : 5 ≤ (byteOf b 0).toNat % 16)
    (h3 : (byteOf b 0).toNat % 16 * 4 ≤ b.length) :
    ip4Parse b = .ok { header := ip4Header b, options := slice b 20 ((byteOf b 0).toNat % 16 * 4)
                       payload := b.drop ((byteOf b 0).toNat % 16 * 4) } := by
  simp only [ip4Parse, Ip4Header.length, ip4Header_ihl]
  rw [if_neg (by omega), if_neg (by omega), if_neg (by omega)]

end Sys2Proof.Machine
end

