-- ==== Sys2Proof/Laws/Effects.lean ====
section
/-! SUPPORT. What the effects of a command may be: one lemma for all 27 commands. -/

namespace Sys2Proof.Machine

theorem bind_ok {ε α β : Type} {x : Except ε α} {f : α → Except ε β} {b : β} (h : (x >>= f) = .ok b) :
    ∃ a, x = .ok a ∧ f a = .ok b := by
  cases x with
  | ok a => exact ⟨a, rfl, h⟩
  | error e => simp at h

theorem output_eq_ok {s : State} {b : List Byte} {st : Store} (h : s.output b = .ok st) :
    OutputInRange s b.length ∧ st = { addr := (s.reg 3).toNat, bytes := b } := by
  by_cases hr : OutputInRange s b.length
  · rw [output_ok hr] at h
    exact ⟨hr, (Except.ok.inj h).symm⟩
  · rw [output_error hr] at h
    simp at h

theorem emit_eq_ok {s : State} {b : List Byte} {e : Effects} (h : s.emit b = .ok e) :
    OutputInRange s b.length ∧
      e = { regs := [(0, word64 b.length)], store := some { addr := (s.reg 3).toNat, bytes := b } } := by
  by_cases hr : OutputInRange s b.length
  · rw [emit_ok hr] at h
    exact ⟨hr, (Except.ok.inj h).symm⟩
  · rw [emit_error hr] at h
    simp at h

theorem input_eq_ok {s : State} {b : List Byte} (h : s.input = .ok b) : InputInRange s ∧ b = inputBytes s := by
  by_cases hr : InputInRange s
  · rw [input_ok hr] at h
    exact ⟨hr, (Except.ok.inj h).symm⟩
  · rw [input_error hr] at h
    simp at h

theorem requireLen_eq_ok {l : Layer} {b : List Byte} {n : Nat} {u : Unit} (h : requireLen l b n = .ok u) : n ≤ b.length := by
  by_cases hl : n ≤ b.length
  · exact hl
  · rw [requireLen_error (by omega)] at h
    simp at h

/-- How a command may change the cache: one insert, one removal, or a sweep (43_arp_cache.md section 2). -/
inductive CacheChange (s : State) (c : Cache) : Prop where
  | insert (ip : BitVec 32) (mac : BitVec 48) (h : c = (s.insert ip mac).1)
  | remove (set way : Nat) (h : c = s.cache.put set way none)
  | sweep (h : c = s.cache.sweep s.now s.arpTimeout)

/-- What the effects of command `i` may be: its result registers; the accumulator, the cache and PBUF written by the
commands named alone; a store at X3, inside PBUF, of as many bytes as the command reports. -/
structure EffectsOf (i : Instr) (s : State) (e : Effects) : Prop where
  regs : ∀ q ∈ e.regs.map Prod.fst, q ∈ resultsOf i
  ck : i ∉ [.ckClear, .ckAccum, .cksum, .ckVerify] → e.ck = none
  noCache : i ∉ [.arpcInsert, .arpcLookup, .arpcSweep, .arpcRemove, .arpHandle, .processFrame] → e.cache = none
  cache : ∀ c, e.cache = some c → CacheChange s c
  noStore : i ∉ [.ethBuild, .arpBuildReq, .arpBuildReply, .arpHandle, .ip4Build, .ip4Emit, .icmpEmit, .icmpBuildReply,
    .udpBuild, .udpBuildEcho, .processFrame] → e.store = none
  store : ∀ st, e.store = some st → st.addr = (s.reg 3).toNat ∧ st.addr + st.bytes.length ≤ s.params.pbufSize
  count : ∀ st, e.store = some st → (s.complete e).reg (countReg i) = word64 st.bytes.length

/-- A command that only writes result registers. -/
theorem effectsOf_regs (i : Instr) (s : State) (regs : List (Reg × Word))
    (h : ∀ q ∈ regs.map Prod.fst, q ∈ resultsOf i) : EffectsOf i s { regs := regs } where
  regs := h
  ck _ := rfl
  noCache _ := rfl
  cache _ hc := by simp at hc
  noStore _ := rfl
  store _ hs := by simp at hs
  count _ hs := by simp at hs

/-- A command that writes result registers and the accumulator. -/
theorem effectsOf_ck {i : Instr} {s : State} {regs : List (Reg × Word)} {k : Option Accumulator}
    (h : ∀ q ∈ regs.map Prod.fst, q ∈ resultsOf i) (hi : i ∈ [.ckClear, .ckAccum, .cksum, .ckVerify]) :
    EffectsOf i s { regs := regs, ck := k } where
  regs := h
  ck hn := absurd hi hn
  noCache _ := rfl
  cache _ hc := by simp at hc
  noStore _ := rfl
  store _ hs := by simp at hs
  count _ hs := by simp at hs

/-- A command that writes result registers and the cache. -/
theorem effectsOf_cache {i : Instr} {s : State} {regs : List (Reg × Word)} {c : Cache} (hc : CacheChange s c)
    (h : ∀ q ∈ regs.map Prod.fst, q ∈ resultsOf i)
    (hi : i ∈ [.arpcInsert, .arpcLookup, .arpcSweep, .arpcRemove, .arpHandle, .processFrame]) :
    EffectsOf i s { regs := regs, cache := some c } where
  regs := h
  ck _ := rfl
  noCache hn := absurd hi hn
  cache _ h := by cases h; exact hc
  noStore _ := rfl
  store _ hs := by simp at hs
  count _ hs := by simp at hs

/-- A builder. -/
theorem effectsOf_emit {i : Instr} {s : State} {b : List Byte} {e : Effects} (h : s.emit b = .ok e)
    (hi : i ∈ [.ethBuild, .arpBuildReq, .arpBuildReply, .ip4Build, .ip4Emit, .icmpEmit, .icmpBuildReply, .udpBuild,
      .udpBuildEcho]) : EffectsOf i s e := by
  obtain ⟨hr, rfl⟩ := emit_eq_ok h
  have hi' : 0 ∈ resultsOf i ∧ countReg i = 0 ∧ i ∈ [.ethBuild, .arpBuildReq, .arpBuildReply, .arpHandle, .ip4Build,
      .ip4Emit, .icmpEmit, .icmpBuildReply, .udpBuild, .udpBuildEcho, .processFrame] := by
    revert hi; cases i <;> decide
  exact { regs := by simpa using hi'.1, ck := fun _ => rfl, noCache := fun _ => rfl, cache := by simp
          noStore := fun hn => absurd hi'.2.2 hn
          store := by rintro st hst; cases hst; exact ⟨rfl, hr⟩
          count := by rintro st hst; cases hst; simp [hi'.2.1, reg_complete_lookup] }

theorem effectsOf_frame {s : State} {d : Disposition} {x16 x17 x18 x19 x20 x28 x29 : Word} :
    EffectsOf .processFrame s { regs := frameRegs d x16 x17 x18 x19 x20 x28 x29 } :=
  effectsOf_regs _ _ _ (by simp [frameRegs, resultsOf])

/-- PROCESS_FRAME answering with a frame. -/
theorem effectsOf_answer {s : State} {d : Disposition} {b : List Byte} {st : Store} {c : Option Cache}
    {x16 x17 x18 x19 x20 x28 x29 : Word} (ho : s.output b = .ok st) (hx : x16 = word64 b.length)
    (hc : ∀ c', c = some c' → CacheChange s c') :
    EffectsOf .processFrame s
      { regs := frameRegs d x16 x17 x18 x19 x20 x28 x29, cache := c, store := some st } := by
  obtain ⟨hr, rfl⟩ := output_eq_ok ho
  exact { regs := by simp [frameRegs, resultsOf], ck := fun _ => rfl, noCache := by simp, cache := hc, noStore := by simp
          store := by rintro st hst; cases hst; exact ⟨rfl, hr⟩
          count := by rintro st hst; cases hst; simp [countReg, frameRegs, reg_complete_lookup, hx] }

theorem effectsOf_arpStep {s : State} {m : BitVec 48} {b : List Byte} {e : Effects} (h : arpStep s m b = .ok e) :
    EffectsOf .processFrame s e := by
  obtain ⟨_, -, h⟩ := bind_ok h
  simp only at h
  split at h
  · obtain ⟨st, ho, h⟩ := bind_ok h
    cases h
    exact effectsOf_answer ho (by rw [etherFrame_length, arpBytes_length]; rfl) (by rintro c hc; cases hc; exact .insert _ _ rfl)
  · cases h
    exact effectsOf_cache (.insert _ _ rfl) (by simp [frameRegs, resultsOf]) (by simp)

theorem effectsOf_ip4Step {s : State} {m : BitVec 48} {ea : Word} {b : List Byte} {e : Effects}
    (h : ip4Step s m ea b = .ok e) : EffectsOf .processFrame s e := by
  obtain ⟨q, -, h⟩ := bind_ok h
  split at h
  · obtain ⟨_, hl, h⟩ := bind_ok h
    simp only at h
    split at h
    · obtain ⟨ip, hb, h⟩ := bind_ok h
      obtain ⟨st, ho, h⟩ := bind_ok h
      cases h
      refine effectsOf_answer ho ?_ (by simp)
      have h8 := requireLen_eq_ok hl
      rw [etherFrame_length, ip4Build_length hb, icmpReply_length _ h8]
      congr 1; omega
    · cases h; exact effectsOf_frame
  · split at h
    · obtain ⟨_, -, h⟩ := bind_ok h
      cases h; exact effectsOf_frame
    · cases h; exact effectsOf_frame

/-- Every command, as effects or an error, with what the effects may be. -/
theorem exec_effects (i : Instr) (s : State) : ∃ r, exec i s = finish s r ∧ ∀ e, r = .ok e → EffectsOf i s e := by
  cases i <;>
    simp only [exec, execCkClear, execCkAccum, execCkFinal, execCksum, execCkVerify, execEthParse, execEthClassify,
      execEthBuild, execArpParse, execArpBuildReq, execArpBuildReply, execArpHandle, execArpcInsert, execArpcLookup,
      execArpcSweep, execArpcRemove, execArpcCount, execIp4Parse, execIp4Build, execIp4Emit, execIcmpParse, execIcmpEmit,
      execIcmpBuildReply, execUdpParse, execUdpBuild, execUdpBuildEcho, execProcessFrame] <;>
    refine ⟨_, rfl, fun e h => ?_⟩
  case ckClear => cases h; exact effectsOf_ck (by simp) (by simp)
  case ckAccum =>
    obtain ⟨b, -, h⟩ := bind_ok h
    cases h; exact effectsOf_ck (by simp) (by simp)
  case ckFinal => cases h; exact effectsOf_regs _ _ _ (by simp [resultsOf])
  case cksum =>
    obtain ⟨b, -, h⟩ := bind_ok h
    cases h; exact effectsOf_ck (by simp [resultsOf]) (by simp)
  case ckVerify =>
    obtain ⟨b, -, h⟩ := bind_ok h
    cases h; exact effectsOf_ck (by simp [resultsOf]) (by simp)
  case ethParse =>
    obtain ⟨b, -, h⟩ := bind_ok h
    obtain ⟨_, -, h⟩ := bind_ok h
    cases h; exact effectsOf_regs _ _ _ (by simp [resultsOf])
  case ethClassify => cases h; exact effectsOf_regs _ _ _ (by simp [resultsOf])
  case ethBuild =>
    obtain ⟨b, -, h⟩ := bind_ok h
    exact effectsOf_emit h (by simp)
  case arpParse =>
    obtain ⟨b, -, h⟩ := bind_ok h
    obtain ⟨_, -, h⟩ := bind_ok h
    cases h; exact effectsOf_regs _ _ _ (by simp [resultsOf])
  case arpBuildReq => exact effectsOf_emit h (by simp)
  case arpBuildReply =>
    obtain ⟨b, -, h⟩ := bind_ok h
    obtain ⟨_, -, h⟩ := bind_ok h
    exact effectsOf_emit h (by simp)
  case arpHandle =>
    obtain ⟨b, -, h⟩ := bind_ok h
    obtain ⟨_, -, h⟩ := bind_ok h
    split at h
    · obtain ⟨st, ho, h⟩ := bind_ok h
      obtain ⟨hr, rfl⟩ := emit_eq_ok ho
      cases h
      exact { regs := by simp [resultsOf], ck := fun _ => rfl, noCache := by simp
              cache := by rintro c hc; cases hc; exact .insert _ _ rfl
              noStore := by simp, store := by rintro st hst; cases hst; exact ⟨rfl, hr⟩
              count := by rintro st hst; cases hst; simp [countReg, reg_complete_lookup] }
    · cases h
      exact effectsOf_cache (.insert _ _ rfl) (by simp [resultsOf]) (by simp)
  case arpcInsert => cases h; exact effectsOf_cache (.insert _ _ rfl) (by simp [resultsOf]) (by simp)
  case arpcLookup =>
    cases h
    split
    · exact effectsOf_regs _ _ _ (by simp [resultsOf])
    · split
      · exact effectsOf_regs _ _ _ (by simp [resultsOf])
      · exact effectsOf_cache (.remove _ _ rfl) (by simp [resultsOf]) (by simp)
  case arpcSweep => cases h; exact effectsOf_cache (.sweep rfl) (by simp [resultsOf]) (by simp)
  case arpcRemove =>
    cases h
    split
    · exact effectsOf_regs _ _ _ (by simp [resultsOf])
    · exact effectsOf_cache (.remove _ _ rfl) (by simp [resultsOf]) (by simp)
  case arpcCount => cases h; exact effectsOf_regs _ _ _ (by simp [resultsOf])
  case ip4Parse =>
    obtain ⟨b, -, h⟩ := bind_ok h
    obtain ⟨_, -, h⟩ := bind_ok h
    cases h; exact effectsOf_regs _ _ _ (by simp [resultsOf])
  case ip4Build =>
    obtain ⟨b, -, h⟩ := bind_ok h
    obtain ⟨_, -, h⟩ := bind_ok h
    exact effectsOf_emit h (by simp)
  case ip4Emit =>
    obtain ⟨b, -, h⟩ := bind_ok h
    exact effectsOf_emit h (by simp)
  case icmpParse =>
    obtain ⟨b, -, h⟩ := bind_ok h
    obtain ⟨_, -, h⟩ := bind_ok h
    cases h; exact effectsOf_regs _ _ _ (by simp [resultsOf])
  case icmpEmit =>
    obtain ⟨b, -, h⟩ := bind_ok h
    exact effectsOf_emit h (by simp)
  case icmpBuildReply =>
    obtain ⟨b, -, h⟩ := bind_ok h
    obtain ⟨_, -, h⟩ := bind_ok h
    exact effectsOf_emit h (by simp)
  case udpParse =>
    obtain ⟨b, -, h⟩ := bind_ok h
    obtain ⟨_, -, h⟩ := bind_ok h
    cases h; exact effectsOf_regs _ _ _ (by simp [resultsOf])
  case udpBuild =>
    obtain ⟨b, -, h⟩ := bind_ok h
    obtain ⟨_, -, h⟩ := bind_ok h
    exact effectsOf_emit h (by simp)
  case udpBuildEcho =>
    obtain ⟨b, -, h⟩ := bind_ok h
    obtain ⟨_, -, h⟩ := bind_ok h
    obtain ⟨_, -, h⟩ := bind_ok h
    exact effectsOf_emit h (by simp)
  case processFrame =>
    obtain ⟨b, -, h⟩ := bind_ok h
    obtain ⟨_, -, h⟩ := bind_ok h
    split at h
    · cases h; exact effectsOf_frame
    · cases h; exact effectsOf_frame
    · exact effectsOf_arpStep h
    · exact effectsOf_ip4Step h

end Sys2Proof.Machine
end

