-- ==== Sys2Proof/Laws/Cache.lean ====
section
/-! SUPPORT. The ARP cache: reading an entry after a write, what a search and the choice of a victim answer, and that every
change keeps the invariant. -/

namespace Sys2Proof.Machine

theorem setIndex_lt {p : Params} (h : p.legal = true) (ip : BitVec 32) : setIndex p ip < p.arpSets := by
  simp only [Params.legal, Bool.and_eq_true, decide_eq_true_eq] at h
  exact Nat.mod_lt _ (by omega)

/-! ### Entries -/

theorem slot_some_bounds {c : Cache} {set way : Nat} {e : CacheEntry} (h : c.slot set way = some e) :
    set < c.length ∧ way < (c.ways set).length := by
  constructor
  · by_contra hn
    simp [Cache.slot, Cache.ways, List.getD_eq_getElem?_getD, List.getElem?_eq_none (Nat.not_lt.1 hn)] at h
  · by_contra hn
    simp [Cache.slot, List.getD_eq_getElem?_getD, List.getElem?_eq_none (Nat.not_lt.1 hn)] at h

theorem slot_put (c : Cache) (set way : Nat) (x : Slot) (set' way' : Nat) :
    (c.put set way x).slot set' way' =
      if set' = set ∧ way' = way ∧ set < c.length ∧ way < (c.ways set).length then x else c.slot set' way' := by
  simp only [Cache.slot, Cache.put, Cache.ways, List.getD_eq_getElem?_getD, List.getElem?_set]
  by_cases hs : set' = set
  · subst hs
    by_cases hl : set' < c.length
    · simp only [if_true, hl, true_and, Option.getD_some, List.getElem?_set]
      by_cases hw : way' = way
      · subst hw
        simp only [if_true, true_and]
        split
        · rfl
        · rename_i hn
          rw [List.getElem?_eq_none (Nat.not_lt.1 hn)]
      · rw [if_neg (Ne.symm hw), if_neg (by simp [hw])]
    · simp [hl]
  · rw [if_neg (Ne.symm hs), if_neg (by simp [hs])]

theorem put_length (c : Cache) (set way : Nat) (x : Slot) : (c.put set way x).length = c.length := by
  simp [Cache.put]

theorem ways_mem {c : Cache} {set : Nat} (h : set < c.length) : c.ways set ∈ c := by
  simp [Cache.ways, List.getD_eq_getElem?_getD, List.getElem?_eq_getElem h]

theorem CacheInv.ways_length {p : Params} {c : Cache} (hi : CacheInv p c) {set : Nat} (h : set < p.arpSets) :
    (c.ways set).length = p.arpWays := hi.ways _ (ways_mem (by rw [hi.sets]; exact h))

/-- An entry is changed without changing any address: the invariant stays if the new entry fits. -/
theorem CacheInv.put {p : Params} {c : Cache} (hi : CacheInv p c) (set way : Nat) (x : Slot)
    (hx : ∀ e, x = some e → set = setIndex p e.ip ∧ ∀ w e', c.slot set w = some e' → e'.ip = e.ip → w = way) :
    CacheInv p (c.put set way x) where
  sets := by rw [put_length, hi.sets]
  ways ws hws := by
    rw [Cache.put] at hws
    rcases List.mem_or_eq_of_mem_set hws with h | h
    · exact hi.ways _ h
    · subst h
      rw [List.length_set]
      by_cases hs : set < c.length
      · exact hi.ways _ (ways_mem hs)
      · rw [List.set_eq_of_length_le (Nat.not_lt.1 hs)] at hws
        exact (List.length_set ▸ hi.ways _ hws)
  placed set' way' e h := by
    rw [slot_put] at h
    split at h
    · rename_i hc
      rw [hc.1]; exact (hx e h).1
    · exact hi.placed _ _ _ h
  unique set' w w' e e' h h' he := by
    rw [slot_put] at h h'
    split at h <;> split at h'
    · rename_i h1 h2; omega
    · rename_i h1 h2
      obtain ⟨rfl, rfl, -⟩ := h1
      exact ((hx e h).2 w' e' h' he.symm).symm
    · rename_i h1 h2
      obtain ⟨rfl, rfl, -⟩ := h2
      exact (hx e' h').2 w e h he
    · exact hi.unique _ _ _ _ _ h h' he

/-! ### Searching -/

theorem getD_of_findIdx? {α : Type} {l : List α} {f : α → Bool} {w : Nat} {d : α} (h : l.findIdx? f = some w) :
    w < l.length ∧ f (l.getD w d) = true ∧ ∀ j < w, f (l.getD j d) = false := by
  obtain ⟨hw, hp, hm⟩ := List.findIdx?_eq_some_iff_getElem.1 h
  refine ⟨hw, ?_, fun j hj => ?_⟩
  · simpa [List.getD_eq_getElem?_getD, List.getElem?_eq_getElem hw] using hp
  · have := hm j hj
    simpa [List.getD_eq_getElem?_getD, List.getElem?_eq_getElem (Nat.lt_trans hj hw)] using this

theorem not_of_findIdx?_none {α : Type} {l : List α} {f : α → Bool} {d : α} (h : l.findIdx? f = none) :
    ∀ j < l.length, f (l.getD j d) = false := by
  intro j hj
  rw [List.findIdx?_eq_none_iff] at h
  have := h (l.getD j d) (by simp [List.getD_eq_getElem?_getD, List.getElem?_eq_getElem hj])
  exact this

theorem findWay_some {c : Cache} {set w : Nat} {ip : BitVec 32} (h : findWay (c.ways set) ip = some w) :
    ∃ e, c.slot set w = some e ∧ e.ip = ip := by
  obtain ⟨hw, hp, -⟩ := getD_of_findIdx? (d := none) h
  rw [Cache.slot]
  cases hs : (c.ways set).getD w none with
  | none => rw [hs] at hp; simp [Slot.holds] at hp
  | some e => rw [hs] at hp; exact ⟨e, rfl, by simpa [Slot.holds] using hp⟩

theorem findWay_none {c : Cache} {set : Nat} {ip : BitVec 32} (h : findWay (c.ways set) ip = none) (w : Nat) (e : CacheEntry)
    (hs : c.slot set w = some e) : e.ip ≠ ip := by
  have := not_of_findIdx?_none (d := none) h w (slot_some_bounds hs).2
  rw [show (c.ways set).getD w none = c.slot set w from rfl, hs] at this
  simpa [Slot.holds] using this

/-- The search finds the entry of an address in the set of the address, and nothing else. -/
theorem find_some {c : Cache} {p : Params} {ip : BitVec 32} {w : Nat} {e : CacheEntry} (h : c.find p ip = some (w, e)) :
    c.slot (setIndex p ip) w = some e ∧ e.ip = ip := by
  unfold Cache.find at h
  split at h
  · simp at h
  · rename_i w' hw
    obtain ⟨e', hs, he⟩ := findWay_some hw
    rw [Cache.slot] at hs
    simp only [hs, Option.some.injEq, Prod.mk.injEq] at h
    obtain ⟨rfl, rfl⟩ := h
    exact ⟨hs, he⟩

theorem find_none {c : Cache} {p : Params} {ip : BitVec 32} (h : c.find p ip = none) (w : Nat) (e : CacheEntry)
    (hs : c.slot (setIndex p ip) w = some e) : e.ip ≠ ip := by
  unfold Cache.find at h
  split at h
  · rename_i hw
    exact findWay_none hw w e hs
  · rename_i w' hw
    obtain ⟨e', hs', he⟩ := findWay_some hw
    rw [Cache.slot] at hs'
    rw [hs'] at h
    simp at h

theorem find_of_slot {c : Cache} {p : Params} (hi : CacheInv p c) {ip : BitVec 32} {w : Nat} {e : CacheEntry}
    (hs : c.slot (setIndex p ip) w = some e) (he : e.ip = ip) : c.find p ip = some (w, e) := by
  cases hf : c.find p ip with
  | none => exact absurd he (find_none hf w e hs)
  | some we =>
    obtain ⟨w', e'⟩ := we
    obtain ⟨hs', he'⟩ := find_some hf
    have : w' = w := hi.unique _ _ _ _ _ hs' hs (by rw [he', he])
    subst this
    rw [hs] at hs'
    cases hs'
    rfl

/-! ### The victim -/

theorem smallestTs_none {l : List Slot} (h : smallestTs l = none) : ∀ x ∈ l, x = none := by
  induction l with
  | nil => simp
  | cons x l ih =>
    cases x with
    | none =>
      intro y hy
      rcases List.mem_cons.1 hy with rfl | hy
      · rfl
      · exact ih h y hy
    | some e =>
      rw [smallestTs] at h
      split at h <;> simp at h

theorem smallestTs_some {l : List Slot} {t : Word} (h : smallestTs l = some t) :
    (∃ e, some e ∈ l ∧ e.ts = t) ∧ ∀ e, some e ∈ l → t.toNat ≤ e.ts.toNat := by
  induction l generalizing t with
  | nil => simp [smallestTs] at h
  | cons x l ih =>
    cases x with
    | none =>
      obtain ⟨⟨e, he, ht⟩, hm⟩ := ih h
      refine ⟨⟨e, List.mem_cons_of_mem _ he, ht⟩, fun e' he' => ?_⟩
      rcases List.mem_cons.1 he' with h' | h'
      · simp at h'
      · exact hm e' h'
    | some e =>
      rw [smallestTs] at h
      cases hr : smallestTs l with
      | none =>
        simp only [hr, Option.some.injEq] at h
        refine ⟨⟨e, List.mem_cons_self, h⟩, fun e' he' => ?_⟩
        rcases List.mem_cons.1 he' with h' | h'
        · cases h'; rw [h]
        · simpa using smallestTs_none hr _ h'
      | some u =>
        obtain ⟨⟨e', he', hu⟩, hm⟩ := ih hr
        simp only [hr, Option.some.injEq] at h
        split at h
        · subst h
          refine ⟨⟨e, List.mem_cons_self, rfl⟩, fun e2 h2 => ?_⟩
          rcases List.mem_cons.1 h2 with h3 | h3
          · cases h3; exact Nat.le_refl _
          · exact Nat.le_trans ‹_› (hm e2 h3)
        · subst h
          refine ⟨⟨e', List.mem_cons_of_mem _ he', hu⟩, fun e2 h2 => ?_⟩
          rcases List.mem_cons.1 h2 with h3 | h3
          · cases h3; omega
          · exact hm e2 h3

theorem mem_ways_of_slot {c : Cache} {set w : Nat} {e : CacheEntry} (h : c.slot set w = some e) : some e ∈ c.ways set := by
  have hw := (slot_some_bounds h).2
  rw [Cache.slot, List.getD_eq_getElem?_getD, List.getElem?_eq_getElem hw, Option.getD_some] at h
  rw [← h]
  exact List.getElem_mem hw

/-- The oldest way of a set with a valid way: the smallest timestamp, the lowest-numbered way of equal ones. -/
theorem oldestWay_spec {c : Cache} {set : Nat} (h : ∃ w e, c.slot set w = some e) :
    ∃ e, c.slot set (oldestWay (c.ways set)) = some e ∧
      ∀ w e', c.slot set w = some e' →
        e.ts.toNat ≤ e'.ts.toNat ∧ (w < oldestWay (c.ways set) → e.ts.toNat < e'.ts.toNat) := by
  cases ht : smallestTs (c.ways set) with
  | none =>
    obtain ⟨w, e, hs⟩ := h
    simpa using smallestTs_none ht _ (mem_ways_of_slot hs)
  | some t =>
    obtain ⟨⟨e, he, hte⟩, hmin⟩ := smallestTs_some ht
    obtain ⟨w, hw⟩ : ∃ w, (c.ways set).findIdx? (Slot.stamped t) = some w := by
      cases hf : (c.ways set).findIdx? (Slot.stamped t) with
      | some w => exact ⟨w, rfl⟩
      | none =>
        rw [List.findIdx?_eq_none_iff] at hf
        simpa [Slot.stamped, hte] using hf _ he
    have ho : oldestWay (c.ways set) = w := by simp [oldestWay, ht, hw]
    rw [ho]
    obtain ⟨hlt, hp, hlow⟩ := getD_of_findIdx? (d := none) hw
    obtain ⟨e0, hs0, he0⟩ : ∃ e0, c.slot set w = some e0 ∧ e0.ts = t := by
      rw [Cache.slot]
      cases hs : (c.ways set).getD w none with
      | none => rw [hs] at hp; simp [Slot.stamped] at hp
      | some e0 => rw [hs] at hp; exact ⟨e0, rfl, by simpa [Slot.stamped] using hp⟩
    refine ⟨e0, hs0, fun w' e' hs' => ?_⟩
    have hle := hmin e' (mem_ways_of_slot hs')
    rw [he0]
    refine ⟨hle, fun hlt' => ?_⟩
    have := hlow w' hlt'
    rw [show (c.ways set).getD w' none = c.slot set w' from rfl, hs'] at this
    simp only [Slot.stamped, decide_eq_false_iff_not] at this
    rcases Nat.lt_or_ge t.toNat e'.ts.toNat with h1 | h1
    · exact h1
    · exact absurd (BitVec.eq_of_toNat_eq (Nat.le_antisymm h1 hle)) this

/-- What `victim` answers for the set of an address: the way and the code of R256. -/
theorem victim_spec {p : Params} (hp : p.legal = true) {c : Cache} (hi : CacheInv p c) (now timeout : Word)
    (ip : BitVec 32) (set way code : Nat) (hset : set = setIndex p ip) (hv : victim now timeout (c.ways set) ip = (way, code)) :
    way < p.arpWays ∧
      ((code = 0 ∧ ∃ e, c.slot set way = some e ∧ e.ip = ip) ∨
       ((∀ w e, c.slot set w = some e → e.ip ≠ ip) ∧
        ((code = 1 ∧ c.slot set way = none ∧ ∀ w < way, c.slot set w ≠ none) ∨
         ((∀ w < p.arpWays, c.slot set w ≠ none) ∧
          ((code = 2 ∧ (∃ e, c.slot set way = some e ∧ timeout.toNat ≤ age now e.ts) ∧
              ∀ w < way, ∀ e, c.slot set w = some e → age now e.ts < timeout.toNat) ∨
           (code = 3 ∧ (∀ w e, c.slot set w = some e → age now e.ts < timeout.toNat) ∧
              ∃ e, c.slot set way = some e ∧ ∀ w e', c.slot set w = some e' →
                e.ts.toNat ≤ e'.ts.toNat ∧ (w < way → e.ts.toNat < e'.ts.toNat))))))) := by
  have hlen : (c.ways set).length = p.arpWays := hi.ways_length (hset ▸ setIndex_lt hp ip)
  have hpos : 1 ≤ p.arpWays := by
    simp only [Params.legal, Bool.and_eq_true, decide_eq_true_eq] at hp; omega
  unfold victim at hv
  split at hv
  · rename_i w hw
    obtain ⟨rfl, rfl⟩ := Prod.mk.inj hv
    obtain ⟨e, hs, he⟩ := findWay_some hw
    exact ⟨hlen ▸ (slot_some_bounds hs).2, .inl ⟨rfl, e, hs, he⟩⟩
  · rename_i hw
    have hno := findWay_none hw
    split at hv
    · rename_i w hf
      obtain ⟨rfl, rfl⟩ := Prod.mk.inj hv
      obtain ⟨h1, h2, h3⟩ := getD_of_findIdx? (d := none) hf
      refine ⟨hlen ▸ h1, .inr ⟨hno, .inl ⟨rfl, by simpa [Cache.slot] using h2, fun w hw => ?_⟩⟩⟩
      have := h3 w hw
      rw [Cache.slot]
      intro hn
      rw [hn] at this
      simp at this
    · rename_i hf
      have hfull : ∀ w < p.arpWays, c.slot set w ≠ none := by
        intro w hw hn
        have := not_of_findIdx?_none (d := none) hf w (by omega)
        rw [Cache.slot] at hn
        rw [hn] at this
        simp at this
      split at hv
      · rename_i w hst
        obtain ⟨rfl, rfl⟩ := Prod.mk.inj hv
        obtain ⟨h1, h2, h3⟩ := getD_of_findIdx? (d := none) hst
        refine ⟨hlen ▸ h1, .inr ⟨hno, .inr ⟨hfull, .inl ⟨rfl, ?_, fun w hw e he => ?_⟩⟩⟩⟩
        · rw [Cache.slot]
          cases hs : (c.ways set).getD w none with
          | none => rw [hs] at h2; simp [Slot.stale] at h2
          | some e =>
            rw [hs] at h2
            exact ⟨e, rfl, by simpa [Slot.stale, CacheEntry.live] using h2⟩
        · have := h3 w hw
          rw [show (c.ways set).getD w none = c.slot set w from rfl, he] at this
          simpa [Slot.stale, CacheEntry.live] using this
      · rename_i hst
        obtain ⟨rfl, rfl⟩ := Prod.mk.inj hv
        obtain ⟨e0, hs0⟩ := Option.ne_none_iff_exists'.1 (hfull 0 (by omega))
        obtain ⟨e, hs, hmin⟩ := oldestWay_spec ⟨0, e0, hs0⟩
        refine ⟨hlen ▸ (slot_some_bounds hs).2, .inr ⟨hno, .inr ⟨hfull, .inr ⟨rfl, fun w e' he' => ?_, e, hs, hmin⟩⟩⟩⟩
        have := not_of_findIdx?_none (d := none) hst w (slot_some_bounds he').2
        rw [show (c.ways set).getD w none = c.slot set w from rfl, he'] at this
        simpa [Slot.stale, CacheEntry.live] using this

/-! ### Insertion, removal, sweep -/

/-- After an insert: the entry stands in the victim's way of the set of its address, and every other entry is as before. -/
theorem cacheInsert_spec {p : Params} (hp : p.legal = true) {c : Cache} (hi : CacheInv p c) (timeout now : Word)
    (ip : BitVec 32) (mac : BitVec 48) :
    ∃ way code, victim now timeout (c.ways (setIndex p ip)) ip = (way, code) ∧ way < p.arpWays ∧
      cacheInsert p timeout now c ip mac = (c.put (setIndex p ip) way (some { ip := ip, mac := mac, ts := now }), code) ∧
      (c.put (setIndex p ip) way (some { ip := ip, mac := mac, ts := now })).slot (setIndex p ip) way
        = some { ip := ip, mac := mac, ts := now } ∧
      CacheInv p (cacheInsert p timeout now c ip mac).1 := by
  obtain ⟨way, code, hv⟩ : ∃ way code, victim now timeout (c.ways (setIndex p ip)) ip = (way, code) := ⟨_, _, rfl⟩
  have hspec := victim_spec hp hi now timeout ip _ way code rfl hv
  have heq : cacheInsert p timeout now c ip mac =
      (c.put (setIndex p ip) way (some { ip := ip, mac := mac, ts := now }), code) := by
    simp only [cacheInsert, hv]
  refine ⟨way, code, hv, hspec.1, heq, ?_, ?_⟩
  · rw [slot_put, if_pos ⟨rfl, rfl, hi.sets ▸ setIndex_lt hp ip, hi.ways_length (setIndex_lt hp ip) ▸ hspec.1⟩]
  · rw [heq]
    refine hi.put _ _ _ fun e he => ?_
    cases he
    refine ⟨rfl, fun w e' hs he' => ?_⟩
    rcases hspec.2 with ⟨-, e0, h0, hip⟩ | ⟨hno, -⟩
    · exact hi.unique _ _ _ _ _ hs h0 (by rw [he', hip])
    · exact absurd he' (hno w e' hs)

theorem CacheInv.remove {p : Params} {c : Cache} (hi : CacheInv p c) (set way : Nat) : CacheInv p (c.put set way none) :=
  hi.put _ _ _ (by simp)

theorem slot_sweep (m : Cache) (now timeout : Word) (set way : Nat) :
    (m.sweep now timeout).slot set way = (m.slot set way).filter fun e => e.live now timeout := by
  simp only [Cache.slot, Cache.sweep, Cache.ways, List.getD_eq_getElem?_getD, List.getElem?_map]
  cases m[set]? with
  | none => simp
  | some ws =>
    simp only [Option.map_some, Option.getD_some, List.getElem?_map]
    cases ws[way]? with
    | none => rfl
    | some x =>
      cases x with
      | none => simp [Slot.stale]
      | some e => cases h : e.live now timeout <;> simp [Slot.stale, Option.filter, h]

theorem CacheInv.sweep {p : Params} {c : Cache} (hi : CacheInv p c) (now timeout : Word) :
    CacheInv p (c.sweep now timeout) where
  sets := by simp [Cache.sweep, hi.sets]
  ways ws hws := by
    obtain ⟨ws', h, rfl⟩ := List.mem_map.1 hws
    simp [hi.ways ws' h]
  placed set way e h := by
    rw [slot_sweep, Option.filter_eq_some_iff] at h
    exact hi.placed _ _ _ h.1
  unique set way way' e e' h h' := by
    rw [slot_sweep, Option.filter_eq_some_iff] at h h'
    exact hi.unique _ _ _ _ _ h.1 h'.1

/-- Every change a command can make to the cache keeps its invariant (R252). -/
theorem CacheChange.inv {s : State} {c : Cache} (h : CacheChange s c) (hp : s.params.legal = true)
    (hi : CacheInv s.params s.cache) : CacheInv s.params c := by
  cases h with
  | insert ip mac h =>
    subst h
    obtain ⟨_, _, _, _, _, _, hinv⟩ := cacheInsert_spec hp hi s.arpTimeout s.now ip mac
    exact hinv
  | remove set way h => subst h; exact hi.remove _ _
  | sweep h => subst h; exact hi.sweep _ _

theorem reset_cacheInv (p : Params) : CacheInv p (State.resetWith p).cache := by
  have hnone : ∀ set way, Cache.slot (State.resetWith p).cache set way = none := by
    intro set way
    simp only [Cache.slot, Cache.ways, State.resetWith, List.getD_eq_getElem?_getD, List.getElem?_replicate]
    split
    · simp [List.getElem?_replicate]
      split <;> rfl
    · rfl
  exact { sets := by simp [State.resetWith]
          ways := by
            intro ws h
            rw [List.eq_of_mem_replicate h, List.length_replicate]
          placed := by intro s w e h; simp [hnone] at h
          unique := by intro s w w' e e' h; simp [hnone] at h }

end Sys2Proof.Machine
end

