-- ==== Sys2Proof/Laws/Checksum.lean ====
section
/-! SUPPORT. The Internet checksum: the fold as one arithmetic function, sums of concatenations, and the accumulator. -/

namespace Sys2Proof.Machine

/-- The value of 0 … 0xFFFF a sum folds to: 0 only for 0, and else congruent to it mod 0xFFFF. -/
def fold16 (S : Nat) : Nat := if S = 0 then 0 else if S % 65535 = 0 then 65535 else S % 65535

theorem fold16_small {S : Nat} (h : S ≤ 65535) : fold16 S = S := by
  unfold fold16; split
  · omega
  · split <;> omega

theorem fold16_le (S : Nat) : fold16 S ≤ 65535 := by
  unfold fold16; split
  · omega
  · split <;> omega

theorem fold16_mod (S : Nat) : fold16 S % 65535 = S % 65535 := by
  unfold fold16; split
  · omega
  · split <;> omega

theorem fold16_eq_zero (S : Nat) : fold16 S = 0 ↔ S = 0 := by
  unfold fold16; split
  · simp [*]
  · split <;> omega

/-- Two sums fold alike if they are congruent and are 0 together. -/
theorem fold16_congr {S T : Nat} (h : S % 65535 = T % 65535) (h0 : S = 0 ↔ T = 0) : fold16 S = fold16 T := by
  unfold fold16; rw [h]; simp only [h0]

theorem fold16_add_left (S T : Nat) : fold16 (fold16 S + T) = fold16 (S + T) := by
  have h1 := fold16_mod S
  have h2 := fold16_eq_zero S
  exact fold16_congr (by omega) (by omega)

theorem fold16_add_right (S T : Nat) : fold16 (S + fold16 T) = fold16 (S + T) := by
  rw [Nat.add_comm, fold16_add_left, Nat.add_comm]

theorem foldCarry_eq (fuel S : Nat) (h : S ≤ fuel) : foldCarry fuel S = fold16 S := by
  induction fuel generalizing S with
  | zero => rw [Nat.le_zero.1 h]; rfl
  | succ n ih =>
    rw [foldCarry]
    split
    · have e : (S &&& 0xFFFF) + S >>> 16 = S % 65536 + S / 65536 := by
        rw [show 0xFFFF = 2 ^ 16 - 1 from rfl, Nat.and_two_pow_sub_one_eq_mod, Nat.shiftRight_eq_div_pow]
      rw [e, ih _ (by omega)]
      exact fold16_congr (by omega) (by omega)
    · exact (fold16_small (by omega)).symm

theorem osum_eq (b : List Byte) : osum b = fold16 (wordSum b) := foldCarry_eq _ _ (Nat.le_refl _)

theorem osum_le (b : List Byte) : osum b ≤ 65535 := osum_eq b ▸ fold16_le _

theorem cksum_toNat (b : List Byte) : (cksum b).toNat = 65535 - osum b := by
  simp only [cksum, BitVec.toNat_ofNat]
  omega

/-! ### Word sums -/

theorem wordSum_append (a c : List Byte) (h : a.length % 2 = 0) : wordSum (a ++ c) = wordSum a + wordSum c := by
  induction a using wordSum.induct with
  | case1 => simp [wordSum]
  | case2 hi => simp at h
  | case3 hi lo rest ih =>
    have h' : rest.length % 2 = 0 := by simp only [List.length_cons] at h; omega
    simp only [List.cons_append, wordSum, ih h']
    omega

theorem wordSum_odd_zero (b : List Byte) (h : b.length % 2 = 1) : wordSum (b ++ [0#8]) = wordSum b := by
  induction b using wordSum.induct with
  | case1 => simp at h
  | case2 hi => simp [wordSum]
  | case3 hi lo rest ih =>
    have h' : rest.length % 2 = 1 := by simp only [List.length_cons] at h; omega
    simp only [List.cons_append, wordSum, ih h']

theorem wordSum_zeros (n : Nat) : wordSum (zeros n) = 0 := by
  induction n using Nat.strongRecOn with
  | _ n ih =>
    match n with
    | 0 => rfl
    | 1 => rfl
    | n + 2 =>
      have : zeros (n + 2) = 0#8 :: 0#8 :: zeros n := rfl
      rw [this, wordSum, ih n (by omega)]
      rfl

theorem wordSum_zeros_append (b : List Byte) (n : Nat) : wordSum (b ++ zeros (2 * n)) = wordSum b := by
  by_cases h : b.length % 2 = 0
  · rw [wordSum_append _ _ h, wordSum_zeros]; omega
  · have h1 : b.length % 2 = 1 := by omega
    cases n with
    | zero => simp [zeros]
    | succ n =>
      have : zeros (2 * (n + 1)) = 0#8 :: zeros (2 * n + 1) := rfl
      rw [this, show b ++ 0#8 :: zeros (2 * n + 1) = (b ++ [0#8]) ++ zeros (2 * n + 1) by simp,
        wordSum_append _ _ (by simp; omega), wordSum_odd_zero _ h1, wordSum_zeros]
      omega

theorem wordSum_eq_zero (b : List Byte) : wordSum b = 0 ↔ ∀ x ∈ b, x = 0#8 := by
  have hz : ∀ x : Byte, x.toNat = 0 ↔ x = 0#8 := fun x => by rw [← BitVec.toNat_inj]; rfl
  induction b using wordSum.induct with
  | case1 => simp [wordSum]
  | case2 hi => simp [wordSum, hz]
  | case3 hi lo rest ih =>
    simp only [wordSum, Nat.add_eq_zero_iff, ih, List.forall_mem_cons, hz, Nat.mul_eq_zero]
    simp [and_assoc]

/-- The word sum, word position by word position. -/
theorem wordSum_eq_range (b : List Byte) :
    wordSum b = ((List.range ((b.length + 1) / 2)).map fun k => (b.getD (2 * k) 0).toNat * 256 + (b.getD (2 * k + 1) 0).toNat).sum := by
  induction b using wordSum.induct with
  | case1 => rfl
  | case2 hi => simp [wordSum]
  | case3 hi lo rest ih =>
    have h : ((hi :: lo :: rest).length + 1) / 2 = (rest.length + 1) / 2 + 1 := by simp only [List.length_cons]; omega
    rw [h, List.range_succ_eq_map, List.map_cons, List.sum_cons, List.map_map, wordSum, ih]
    rfl

theorem wordSum_put16 (v : BitVec 16) : wordSum (put16 v) = v.toNat := by
  have := be16_toNat (put16 v) 0
  rw [show be16 (put16 v) 0 = v from append_halves16 v] at this
  rw [this]
  simp [put16, wordSum, byteOf]

/-! ### The accumulator -/

theorem add1c_toNat (a w : BitVec 16) : (add1c a w).toNat = fold16 (a.toNat + w.toNat) := by
  have h1 := a.isLt
  have h2 := w.isLt
  simp only [add1c, BitVec.toNat_ofNat]
  unfold fold16
  split
  · split
    · omega
    · split <;> omega
  · split
    · omega
    · split <;> omega

theorem feedAll_append (k : Accumulator) (a b : List Byte) : k.feedAll (a ++ b) = (k.feedAll a).feedAll b := by
  simp [Accumulator.feedAll]

theorem feedAll_flatten (k : Accumulator) (pieces : List (List Byte)) :
    pieces.foldl Accumulator.feedAll k = k.feedAll pieces.flatten := by
  induction pieces generalizing k with
  | nil => rfl
  | cons p ps ih => rw [List.foldl_cons, ih, List.flatten_cons, feedAll_append]

/-- Feeding from a whole-word state: the sum and whether a byte is pending. -/
theorem feedAll_spec (a : BitVec 16) (b : List Byte) :
    ((Accumulator.feedAll { acc := a, pv := false, pb := 0#8 } b).fin).toNat = fold16 (a.toNat + wordSum b) ∧
      ((Accumulator.feedAll { acc := a, pv := false, pb := 0#8 } b).pv = true ↔ b.length % 2 = 1) := by
  induction b using wordSum.induct generalizing a with
  | case1 =>
    have := a.isLt
    refine ⟨?_, by simp [Accumulator.feedAll]⟩
    rw [wordSum, Nat.add_zero, fold16_small (by omega)]
    rfl
  | case2 hi =>
    refine ⟨?_, by simp [Accumulator.feedAll, Accumulator.feed]⟩
    have : (hi ++ 0#8 : BitVec 16).toNat = hi.toNat * 256 := (toNat_append hi 0#8).trans (by simp)
    simp [Accumulator.feedAll, Accumulator.feed, Accumulator.fin, add1c_toNat, wordSum, this]
  | case3 hi lo rest ih =>
    have h1 : Accumulator.feedAll { acc := a, pv := false, pb := 0#8 } (hi :: lo :: rest) =
        Accumulator.feedAll { acc := add1c a (hi ++ lo), pv := false, pb := 0#8 } rest := rfl
    have h2 : (hi ++ lo : BitVec 16).toNat = hi.toNat * 256 + lo.toNat := toNat_append hi lo
    rw [h1]
    obtain ⟨i1, i2⟩ := ih (add1c a (hi ++ lo))
    refine ⟨?_, by rw [i2]; simp only [List.length_cons]; omega⟩
    rw [i1, add1c_toNat, fold16_add_left, wordSum, h2, Nat.add_assoc]

/-- The streaming accumulator computes osum (R174). -/
theorem clear_feedAll (b : List Byte) : ((Accumulator.clear.feedAll b).fin).toNat = osum b := by
  rw [osum_eq, Accumulator.clear, (feedAll_spec 0#16 b).1]
  simp

theorem clear_feedAll_pv (b : List Byte) : (Accumulator.clear.feedAll b).pv = true ↔ b.length % 2 = 1 :=
  (feedAll_spec 0#16 b).2

/-! ### Sealing -/

/-- A checksum written over a zeroed word at an even offset, with a sum T of bytes elsewhere, makes the whole sum all ones. -/
theorem fold16_seal (S : Nat) : fold16 (S + (65535 - fold16 S)) = 65535 := by
  have h1 := fold16_mod S
  have h2 := fold16_le S
  have h3 := fold16_eq_zero S
  have hz : S + (65535 - fold16 S) ≠ 0 := by omega
  have hm : (S + (65535 - fold16 S)) % 65535 = 0 := by omega
  generalize S + (65535 - fold16 S) = T at hz hm
  rw [fold16, if_neg hz, if_pos hm]

/-- Replacing the word at an even offset changes the word sum by that word alone. -/
theorem wordSum_withChecksum (b : List Byte) (k : Nat) (c : BitVec 16) (hk : k % 2 = 0) (h : k + 2 ≤ b.length)
    (hz : (b.drop k).take 2 = [0#8, 0#8]) : wordSum (withChecksum b k c) = wordSum b + c.toNat := by
  have hl : (b.take k).length = k := by rw [List.length_take]; omega
  have hb : b = b.take k ++ ([0#8, 0#8] ++ b.drop (k + 2)) := by
    rw [← hz, ← List.drop_drop, List.take_append_drop, List.take_append_drop]
  have e1 : wordSum (withChecksum b k c) = wordSum (b.take k) + (c.toNat + wordSum (b.drop (k + 2))) := by
    rw [withChecksum, show slice b 0 k = b.take k from rfl, List.append_assoc, wordSum_append _ _ (by omega),
      wordSum_append _ _ (by simp), wordSum_put16]
  have e2 : wordSum b = wordSum (b.take k) + (0 + wordSum (b.drop (k + 2))) := by
    conv => lhs; rw [hb]
    rw [wordSum_append _ _ (by omega), wordSum_append _ _ (by simp)]
    rfl
  omega

/-- A message sealed with the checksum of itself, at an even offset, sums to all ones (R175). -/
theorem osum_sealed (b : List Byte) (k : Nat) (hk : k % 2 = 0) (h : k + 2 ≤ b.length)
    (hz : (b.drop k).take 2 = [0#8, 0#8]) : osum (withChecksum b k (cksum b)) = 65535 := by
  rw [osum_eq, wordSum_withChecksum b k _ hk h hz, cksum_toNat, osum_eq]
  exact fold16_seal _

/-- The same with a prefix that the checksum covers too (R181). -/
theorem osum_prefix_sealed (p b : List Byte) (k : Nat) (hp : p.length % 2 = 0) (hk : k % 2 = 0) (h : k + 2 ≤ b.length)
    (hz : (b.drop k).take 2 = [0#8, 0#8]) : osum (p ++ withChecksum b k (cksum (p ++ b))) = 65535 := by
  rw [osum_eq, wordSum_append _ _ hp, wordSum_withChecksum b k _ hk h hz, cksum_toNat, osum_eq, wordSum_append _ _ hp,
    ← Nat.add_assoc]
  exact fold16_seal _

end Sys2Proof.Machine
end

