-- ==== Sys2Proof/Laws/Decode.lean ====
section
/-! SUPPORT. The command word: the opcode map read both ways, and what decoding answers. -/

namespace Sys2Proof

@[simp] theorem instrOfOpc_opcOf (i : Instr) : instrOfOpc (opcOf i) = some i := by cases i <;> rfl

theorem opcOf_of_instrOfOpc {b : Byte} {i : Instr} (h : instrOfOpc b = some i) : b = opcOf i := by
  have all : ∀ b : BitVec 8, (instrOfOpc b).all (fun i => b == opcOf i) = true := by decide
  simpa [h] using all b

theorem instrOfOpc_none_iff (b : Byte) : instrOfOpc b = none ↔ opcReserved b = true := by
  revert b; decide

/-- A word is its reserved bits above its OPC. -/
theorem word_eq_append (w : BitVec 32) : w = w.extractLsb' 8 24 ++ w.extractLsb' 0 8 := by
  apply BitVec.eq_of_getLsbD_eq
  intro j hj
  simp only [BitVec.getLsbD_append, BitVec.getLsbD_extractLsb', Nat.zero_add]
  by_cases h : j < 8
  · simp [h]
  · simp [h, show j - 8 < 24 by omega, show 8 + (j - 8) = j by omega]

theorem decode_ok_iff (w : BitVec 32) (i : Instr) :
    decode w = .ok i ↔ w.extractLsb' 8 24 = 0#24 ∧ w.extractLsb' 0 8 = opcOf i := by
  unfold decode
  by_cases hz : w.extractLsb' 8 24 = 0#24
  · simp only [hz, ne_eq, not_true_eq_false, if_false, true_and]
    cases h : instrOfOpc (w.extractLsb' 0 8) with
    | none =>
      simp only [reduceCtorEq, false_iff]
      intro hc
      simp [hc] at h
    | some j =>
      have := opcOf_of_instrOfOpc h
      simp only [Except.ok.injEq]
      constructor
      · rintro rfl; exact this
      · intro hc
        simpa [hc] using h.symm
  · simp [hz]

theorem decode_reserved {w : BitVec 32} (h : w.extractLsb' 8 24 ≠ 0#24) : decode w = .error .reservedBits := by
  simp [decode, h]

theorem decode_unknown {w : BitVec 32} (h : w.extractLsb' 8 24 = 0#24) (hn : opcReserved (w.extractLsb' 0 8) = true) :
    decode w = .error .unknownOpc := by
  simp [decode, h, (instrOfOpc_none_iff _).2 hn]

end Sys2Proof

namespace Sys2Proof.Machine

/-- The step, when the host's next interaction writes CMD. -/
theorem step_cmd {s : State} {v : Word} {rest : List HostOp} (h : s.pending = .csrWrite 0x020 v :: rest) :
    step s = command v s.taken := by
  simp [step, State.nextOp, h, cmdWrite, Csr.cmd]

/-- The step, when the host's next interaction is any other. -/
theorem step_access {s : State} {op : HostOp} {rest : List HostOp} (h : s.pending = op :: rest)
    (hc : ∀ v, op ≠ .csrWrite 0x020 v) : step s = hostAccess op s.taken := by
  have : cmdWrite op = none := by
    cases op <;> simp only [cmdWrite]
    rename_i n v
    rw [if_neg]
    rintro rfl
    exact hc v rfl
  simp [step, State.nextOp, h, this]

/-- The step, when nothing is pending. -/
theorem step_idle {s : State} (h : s.pending = []) : step s = .next s := by
  simp [step, State.nextOp, h, State.idle]

end Sys2Proof.Machine
end

