-- ==== Sys2Proof/Laws/Invariant.lean ====
section
/-! SUPPORT. The machine's invariant: what it depends on, and that the end of a command restores it. -/

namespace Sys2Proof.Machine

/-- A command's start suspends BUSY = 0 and LAST_OPC; its end, by effects or by a report, restores the invariant. -/
theorem inv_command {s : State} (v : Word) (h : MachineInv s) :
    (∀ e : Effects, (∀ c, e.cache = some c → CacheInv s.params c) →
      (∀ st, e.store = some st → st.addr + st.bytes.length ≤ s.params.pbufSize) →
      MachineInv ((s.beginCommand v).complete e)) ∧ ∀ e, MachineInv ((s.beginCommand v).raise e) := by
  constructor
  · intro e hc hs
    exact
    { legal := h.legal
      canonical := by
        cases he : e.store with
        | none => simpa [he, writeStore] using h.canonical
        | some st => simpa [he, writeStore] using wf_writeBytes h.canonical _ _
      within := by
        cases he : e.store with
        | none => simpa [he, writeStore] using h.within
        | some st => simpa [he, writeStore] using within_writeBytes h.within (hs st he)
      cache := by
        cases he : e.cache with
        | none => simpa [he] using h.cache
        | some c => simpa [he] using hc c he
      idle := rfl
      lastOpc := rfl
      failReported := by simp [statusAtEnd, errNone, ErrorKind.code]
      noError := fun _ => ⟨rfl, rfl, rfl⟩
      codes := by simp [errNone, ErrorKind.code]
      notDone := by simp [statusAtEnd] }
  · intro e
    exact
    { legal := h.legal
      canonical := h.canonical
      within := h.within
      cache := h.cache
      idle := rfl
      lastOpc := rfl
      failReported := by cases e <;> simp [statusAtEnd, CmdError.errReg, CmdError.kind, ErrorKind.code]
      noError := fun hz => by cases e <;> simp [CmdError.errReg, CmdError.kind, ErrorKind.code] at hz
      codes := by cases e <;> simp [CmdError.errReg, CmdError.kind, ErrorKind.code]
      notDone := by simp [statusAtEnd] }

/-- The invariant looks at these parts of the state alone. -/
theorem inv_congr {s t : State} (h : MachineInv s) (h1 : t.params = s.params) (h2 : t.pbuf = s.pbuf) (h3 : t.cache = s.cache)
    (h4 : t.status = s.status) (h5 : t.cmd = s.cmd) (h6 : t.err = s.err) (h7 : t.errInfo = s.errInfo) : MachineInv t := by
  obtain ⟨a1, a2, a3, a4, a5, a6, a7, a8, a9, a10⟩ := h
  constructor <;> simp only [h1, h2, h3, h4, h5, h6, h7] <;> assumption

end Sys2Proof.Machine
end

