-- ==== Sys2Proof/Laws/PerInstr.lean ====
section
/-! SUPPORT. Per command: its word decodes to it and is well-formed (30_encoding.md R110–R113). -/

namespace Sys2Proof.Laws.RoundTrip

/-- What is said of each command. -/
def Statement (i : Instr) : Prop :=
  decode (encode i) = .ok i ∧ wordWellFormed (encode i) = true ∧ opcReserved (opcOf i) = false

theorem ckClear : Statement .ckClear := ⟨rfl, by decide, by decide⟩
theorem ckAccum : Statement .ckAccum := ⟨rfl, by decide, by decide⟩
theorem ckFinal : Statement .ckFinal := ⟨rfl, by decide, by decide⟩
theorem cksum : Statement .cksum := ⟨rfl, by decide, by decide⟩
theorem ckVerify : Statement .ckVerify := ⟨rfl, by decide, by decide⟩
theorem ethParse : Statement .ethParse := ⟨rfl, by decide, by decide⟩
theorem ethClassify : Statement .ethClassify := ⟨rfl, by decide, by decide⟩
theorem ethBuild : Statement .ethBuild := ⟨rfl, by decide, by decide⟩
theorem arpParse : Statement .arpParse := ⟨rfl, by decide, by decide⟩
theorem arpBuildReq : Statement .arpBuildReq := ⟨rfl, by decide, by decide⟩
theorem arpBuildReply : Statement .arpBuildReply := ⟨rfl, by decide, by decide⟩
theorem arpHandle : Statement .arpHandle := ⟨rfl, by decide, by decide⟩
theorem arpcInsert : Statement .arpcInsert := ⟨rfl, by decide, by decide⟩
theorem arpcLookup : Statement .arpcLookup := ⟨rfl, by decide, by decide⟩
theorem arpcSweep : Statement .arpcSweep := ⟨rfl, by decide, by decide⟩
theorem arpcRemove : Statement .arpcRemove := ⟨rfl, by decide, by decide⟩
theorem arpcCount : Statement .arpcCount := ⟨rfl, by decide, by decide⟩
theorem ip4Parse : Statement .ip4Parse := ⟨rfl, by decide, by decide⟩
theorem ip4Build : Statement .ip4Build := ⟨rfl, by decide, by decide⟩
theorem ip4Emit : Statement .ip4Emit := ⟨rfl, by decide, by decide⟩
theorem icmpParse : Statement .icmpParse := ⟨rfl, by decide, by decide⟩
theorem icmpEmit : Statement .icmpEmit := ⟨rfl, by decide, by decide⟩
theorem icmpBuildReply : Statement .icmpBuildReply := ⟨rfl, by decide, by decide⟩
theorem udpParse : Statement .udpParse := ⟨rfl, by decide, by decide⟩
theorem udpBuild : Statement .udpBuild := ⟨rfl, by decide, by decide⟩
theorem udpBuildEcho : Statement .udpBuildEcho := ⟨rfl, by decide, by decide⟩
theorem processFrame : Statement .processFrame := ⟨rfl, by decide, by decide⟩

end Sys2Proof.Laws.RoundTrip
end

