-- ==== Sys2Proof/Tests/Slice0.lean ====
section
/-! SUPPORT. Tests and witnesses. Expected values are the spec's: its encodings, its worked examples and its vectors, whose
names in 95_test_vectors.md stand above the tests. -/

namespace Sys2Proof.Tests
open Sys2Proof Sys2Proof.Machine

/-! ## Helpers -/

/-- A small machine: 65536 bytes of PBUF, one set of two ways. -/
def small : Params := { pbufSize := 65536, arpSets := 1, arpWays := 2, arpTimeoutReset := 7, tickUnit := 1 }

/-- After reset, with the host's boot writes. -/
def boot : State :=
  { State.resetWith small with ourMac := 0xBBBBBBBBBBBB, ourIp := 0x0A000001, arpTimeout := 100, now := 50 }

/-- `boot` with an input at address 0, its descriptor, an output address and operands. -/
def given (input : List Byte) (out : Word) (operands : List (Reg × Word)) : State :=
  { boot with
    x := writeRegs boot.x ((1, 0) :: (2, word64 input.length) :: (3, out) :: operands)
    pbuf := boot.pbuf.writeBytes 0 input }

/-- `boot` with these ways in its only set, an address in X4 and a MAC in X5. -/
def caching (ways : List Slot) (ip mac : Word) : State :=
  { boot with cache := [ways], x := writeRegs boot.x [(4, ip), (5, mac)] }

/-- The command word, issued by the host, ends in a state that passes the check. -/
def runs (word : Nat) (s : State) (check : State → Bool) : Bool :=
  match step (s.withFetchWord 32 word) with
  | .next t => check t
  | .fault _ => false
  | .refused _ => false

/-- The values of a list of registers. -/
def holds (t : State) (values : List (Reg × Word)) : Bool := values.all fun rv => t.reg rv.1 == rv.2

/-- The report of a failed command: ERR and ERRINFO as the host reads them. -/
def reports (t : State) (err info : Word) : Bool := t.status.fail && t.err.word == err && t.errInfo == info

/-- A builder's result: X0 is the number of bytes, and they stand at the address. -/
def built (t : State) (at_ : Nat) (bytes : List Byte) : Bool :=
  t.reg 0 == word64 bytes.length && t.bytesAt at_ bytes.length == bytes

/-- The ARP request Q of section 2.3. -/
def packetQ : List Byte :=
  [0x00, 0x01, 0x08, 0x00, 0x06, 0x04, 0x00, 0x01, 0xaa, 0xaa, 0xaa, 0xaa, 0xaa, 0xaa, 0x0a, 0x00, 0x00, 0x02,
   0x00, 0x00, 0x00, 0x00, 0x00, 0x00, 0x0a, 0x00, 0x00, 0x01]

/-- The ICMP echo request of vector M1. -/
def echoRequest : List Byte :=
  [0x08, 0x00, 0x21, 0x68, 0x12, 0x34, 0x00, 0x01, 0x61, 0x62, 0x63]

/-- The ICMP request frame of vector F7. -/
def frameF7 : List Byte :=
  [0x02, 0x00, 0x00, 0x00, 0x00, 0x02, 0x02, 0x00, 0x00, 0x00, 0x00, 0x01, 0x08, 0x00, 0x45, 0x00, 0x00, 0x1f,
   0x00, 0x01, 0x40, 0x00, 0x40, 0x01, 0xb7, 0x81, 0xc0, 0xa8, 0x01, 0x0a, 0xc0, 0xa8, 0x01, 0x01, 0x08, 0x00,
   0x21, 0x68, 0x12, 0x34, 0x00, 0x01, 0x61, 0x62, 0x63]

/-- The ARP request frame of vector F1. -/
def frameF1 : List Byte :=
  [0xff, 0xff, 0xff, 0xff, 0xff, 0xff, 0x02, 0x00, 0x00, 0x00, 0x00, 0x01, 0x08, 0x06, 0x00, 0x01, 0x08, 0x00,
   0x06, 0x04, 0x00, 0x01, 0x02, 0x00, 0x00, 0x00, 0x00, 0x01, 0xc0, 0xa8, 0x01, 0x0a, 0x00, 0x00, 0x00, 0x00,
   0x00, 0x00, 0xc0, 0xa8, 0x01, 0x01]

/-- The UDP frame of vector F12. -/
def frameF12 : List Byte :=
  [0x02, 0x00, 0x00, 0x00, 0x00, 0x02, 0x02, 0x00, 0x00, 0x00, 0x00, 0x01, 0x08, 0x00, 0x45, 0x00, 0x00, 0x1e,
   0x00, 0x00, 0x00, 0x00, 0x40, 0x11, 0x66, 0xcd, 0x0a, 0x00, 0x00, 0x01, 0x0a, 0x00, 0x00, 0x02, 0x04, 0xd2,
   0x16, 0x2e, 0x00, 0x0a, 0x68, 0x6e, 0x68, 0x69]

/-! ## Well-formedness: a term that each check refuses -/

theorem smoke_small_is_legal : small.legal = true := by decide
theorem smoke_pbuf_too_small : Params.legal { small with pbufSize := 63 } = false := by decide
theorem smoke_pbuf_too_large : Params.legal { small with pbufSize := 2 ^ 31 + 1 } = false := by decide
theorem smoke_no_set : Params.legal { small with arpSets := 0 } = false := by decide
theorem smoke_too_many_sets : Params.legal { small with arpSets := 2 ^ 17 } = false := by decide
theorem smoke_sets_no_power_of_two : Params.legal { small with arpSets := 3 } = false := by decide
theorem smoke_no_way : Params.legal { small with arpWays := 0 } = false := by decide
theorem smoke_too_many_ways : Params.legal { small with arpWays := 2 ^ 16 + 1 } = false := by decide
theorem smoke_reserved_bit : wordWellFormed 0x80000004 = false := by decide
theorem smoke_reserved_opcodes :
    ([0x00, 0x06, 0x0F, 0x13, 0x1F, 0x24, 0x27, 0x2D, 0x2F, 0x33, 0x3F, 0x43, 0x4F, 0x53, 0x5F, 0x61, 0xFF] :
      List (BitVec 32)).all (fun w => !wordWellFormed w) = true := by decide
theorem smoke_write_outside_pbuf : HostOp.wellFormed small (.pbufWrite 65536 0) = false := by decide
theorem smoke_read_outside_pbuf : HostOp.wellFormed small (.pbufRead 65536) = false := by decide

/-! ## Decoding: every command's word, written out from 30_encoding.md R110 and R112 -/

theorem test_decode_checksum :
    decode 0b00000000000000000000000000000001#32 = .ok .ckClear ∧
    decode 0b00000000000000000000000000000010#32 = .ok .ckAccum ∧
    decode 0b00000000000000000000000000000011#32 = .ok .ckFinal ∧
    decode 0b00000000000000000000000000000100#32 = .ok .cksum ∧
    decode 0b00000000000000000000000000000101#32 = .ok .ckVerify := by
  decide

theorem test_decode_ethernet :
    decode 0b00000000000000000000000000010000#32 = .ok .ethParse ∧
    decode 0b00000000000000000000000000010001#32 = .ok .ethClassify ∧
    decode 0b00000000000000000000000000010010#32 = .ok .ethBuild := by
  decide

theorem test_decode_arp_packet :
    decode 0b00000000000000000000000000100000#32 = .ok .arpParse ∧
    decode 0b00000000000000000000000000100001#32 = .ok .arpBuildReq ∧
    decode 0b00000000000000000000000000100010#32 = .ok .arpBuildReply ∧
    decode 0b00000000000000000000000000100011#32 = .ok .arpHandle := by
  decide

theorem test_decode_arp_cache :
    decode 0b00000000000000000000000000101000#32 = .ok .arpcInsert ∧
    decode 0b00000000000000000000000000101001#32 = .ok .arpcLookup ∧
    decode 0b00000000000000000000000000101010#32 = .ok .arpcSweep ∧
    decode 0b00000000000000000000000000101011#32 = .ok .arpcRemove ∧
    decode 0b00000000000000000000000000101100#32 = .ok .arpcCount := by
  decide

theorem test_decode_ipv4 :
    decode 0b00000000000000000000000000110000#32 = .ok .ip4Parse ∧
    decode 0b00000000000000000000000000110001#32 = .ok .ip4Build ∧
    decode 0b00000000000000000000000000110010#32 = .ok .ip4Emit := by
  decide

theorem test_decode_icmp :
    decode 0b00000000000000000000000001000000#32 = .ok .icmpParse ∧
    decode 0b00000000000000000000000001000001#32 = .ok .icmpEmit ∧
    decode 0b00000000000000000000000001000010#32 = .ok .icmpBuildReply := by
  decide

theorem test_decode_udp :
    decode 0b00000000000000000000000001010000#32 = .ok .udpParse ∧
    decode 0b00000000000000000000000001010001#32 = .ok .udpBuild ∧
    decode 0b00000000000000000000000001010010#32 = .ok .udpBuildEcho := by
  decide

theorem test_decode_pipeline :
    decode 0b00000000000000000000000001100000#32 = .ok .processFrame := by
  decide

/-- Vectors X1, X2, X3: the reserved bits come before OPC, and ERRINFO is the word. -/
theorem test_decode_errors :
    (runs 0x160 boot (fun t => reports t 0x060110 0x160 && t.status.word == 0x6006) &&
      runs 0x13 boot (fun t => reports t 0x060010 0x13) && runs 0xFF boot (fun t => reports t 0x060010 0xFF) &&
      runs 0x80000004 { boot with x := writeRegs boot.x [(2, 70000)] } (fun t => reports t 0x060110 0x80000004)) = true := by
  decide

/-! ## The commands -/

/-- CK_CLEAR, R176. -/
theorem test_ckClear :
    runs 0x01 { boot with ck := { acc := 0x1234, pv := true, pb := 5 } }
      (fun t => t.ck.word == 0 && t.status.word == 0x0102) = true := by
  decide

/-- K18, first feed. -/
theorem test_ckAccum_odd :
    runs 0x02 (given [0x00, 0x01, 0xf2] 0 [])
      (fun t => t.ck.word == 0xF2010001) = true := by
  decide

/-- K16. -/
theorem test_ckAccum_carry :
    runs 0x02 { given [0xff] 0 [] with ck := { acc := 0xFFFE, pv := true, pb := 1 } }
      (fun t => t.ck.word == 0x1FE) = true := by
  decide

/-- K15. -/
theorem test_ckFinal :
    runs 0x03 { boot with ck := { acc := 0xFFFF, pv := true, pb := 0 } }
      (fun t => holds t [(0, 0), (16, 0xFFFF)] && t.ck.word == 0x0001FFFF) = true := by
  decide

/-- K6. -/
theorem test_cksum_odd :
    runs 0x04 (given [0x01, 0x02, 0x03] 0 [])
      (fun t => holds t [(0, 0xFBFD), (16, 0x0402)] && t.ck.word == 0x03010102) = true := by
  decide

/-- K19. -/
theorem test_cksum_out_of_range :
    runs 0x04 { boot with x := writeRegs boot.x [(1, 65530), (2, 7)] }
      (fun t => reports t 0x060011 0xFFFA && t.ck.word == 0) = true := by
  decide

/-- K14. -/
theorem test_ckVerify_good :
    runs 0x05 (given [0x00, 0x00, 0x29, 0x68, 0x12, 0x34, 0x00, 0x01, 0x61, 0x62, 0x63] 0 [])
      (fun t => holds t [(0, 1), (16, 0xFFFF)] && t.ck.word == 0x63019CFF) = true := by
  decide

/-- K10. -/
theorem test_ckVerify_bad :
    runs 0x05 (given [0x00, 0x01, 0xf2, 0x03, 0xf4, 0xf5, 0xf6, 0xf7] 0 [])
      (fun t => holds t [(0, 0), (16, 0xDDF2)]) = true := by
  decide

/-- E2, at address 0. -/
theorem test_ethParse :
    runs 0x10 (given [0x02, 0x00, 0x00, 0x00, 0x00, 0x02, 0x02, 0x00, 0x00, 0x00, 0x00, 0x01, 0x08, 0x00, 0x45, 0x00, 0x00] 0 [])
      (fun t => holds t [(16, 0x020000000002), (17, 0x020000000001), (18, 0x0800), (19, 2), (28, 14), (29, 3)]) = true := by
  decide

/-- E4. -/
theorem test_ethParse_short :
    runs 0x10 (given [0x00, 0x00, 0x00, 0x00, 0x00, 0x00, 0x00, 0x00, 0x00, 0x00, 0x00, 0x00, 0x00] 0 [])
      (fun t => reports t 0x010001 0x0000000E0000000D) = true := by
  decide

/-- E6. -/
theorem test_ethClassify :
    runs 0x11 (given [] 0 [(4, 0xFFFF0806)])
      (fun t => holds t [(0, 1)]) = true := by
  decide

/-- E6. -/
theorem test_ethClassify_ipv6 :
    runs 0x11 (given [] 0 [(4, 0x86DD)])
      (fun t => holds t [(0, 3)]) = true := by
  decide

/-- E8 with its payload at 0, and E7's operands with bits to drop: the payload is read before the header is written. -/
theorem test_ethBuild_overlap :
    runs 0x12 (given [0xaa, 0xbb, 0xcc] 2 [(4, 0x020000000001), (5, 0x1020000000002), (6, 0x188B5)])
      (fun t => built t 2 [0x02, 0x00, 0x00, 0x00, 0x00, 0x01, 0x02, 0x00, 0x00, 0x00, 0x00, 0x02, 0x88, 0xb5, 0xaa, 0xbb, 0xcc]) = true := by
  decide

/-- E9. -/
theorem test_ethBuild_out_of_range :
    runs 0x12 (given [] 65530 [])
      (fun t => reports t 0x060111 0xFFFA) = true := by
  decide

/-- A5. -/
theorem test_arpParse :
    runs 0x20 (given [0x00, 0x06, 0x86, 0xdd, 0x10, 0x20, 0x00, 0x02, 0xaa, 0xaa, 0xaa, 0xaa, 0xaa, 0xaa, 0x0a, 0x00, 0x00, 0x02, 0x00, 0x00, 0x00, 0x00, 0x00, 0x00, 0x0a, 0x00, 0x00, 0x01] 0 [])
      (fun t => holds t [(16, 6), (17, 0x86DD), (18, 0x10), (19, 0x20), (20, 2), (21, 0xAAAAAAAAAAAA),
        (22, 0x0A000002), (23, 0), (24, 0x0A000001), (25, 2)]) = true := by
  decide

/-- A7. -/
theorem test_arpParse_short :
    runs 0x20 (given (packetQ.take 27) 0 [])
      (fun t => reports t 0x020001 0x0000001C0000001B) = true := by
  decide

/-- A3. -/
theorem test_arpBuildReq :
    runs 0x21 (given [] 0 [(4, 0x020000000002), (5, 0xC0A80101), (6, 0xC0A8010A)])
      (fun t => built t 0
        [0x00, 0x01, 0x08, 0x00, 0x06, 0x04, 0x00, 0x01, 0x02, 0x00, 0x00, 0x00, 0x00, 0x02, 0xc0, 0xa8, 0x01, 0x01, 0, 0, 0, 0, 0, 0, 0xc0, 0xa8, 0x01, 0x0a]) = true := by
  decide

/-- A4. -/
theorem test_arpBuildReply :
    runs 0x22 (given packetQ 100 [(4, 0xBBBBBBBBBBBB)])
      (fun t => built t 100 (packetQ.take 7 ++ [0x02, 0xbb, 0xbb, 0xbb, 0xbb, 0xbb, 0xbb, 0x0a, 0x00, 0x00, 0x01,
        0xaa, 0xaa, 0xaa, 0xaa, 0xaa, 0xaa, 0x0a, 0x00, 0x00, 0x02])) = true := by
  decide

/-- A9. -/
theorem test_arpHandle_answers :
    runs 0x23 (given packetQ 64 [])
      (fun t => built t 64 (packetQ.take 7 ++ [0x02, 0xbb, 0xbb, 0xbb, 0xbb, 0xbb, 0xbb, 0x0a, 0x00, 0x00, 0x01,
        0xaa, 0xaa, 0xaa, 0xaa, 0xaa, 0xaa, 0x0a, 0x00, 0x00, 0x02]) &&
        t.cache == [[some { ip := 0x0A000002, mac := 0xAAAAAAAAAAAA, ts := 50 }, none]]) = true := by
  decide

/-- A13: nothing is learned. -/
theorem test_arpHandle_out_of_range :
    runs 0x23 (given packetQ 65530 [])
      (fun t => reports t 0x060111 0xFFFA && t.cache == [[none, none]]) = true := by
  decide

/-- AC1, third insert: both ways live, the older in way 0. -/
theorem test_arpcInsert_evicts :
    runs 0x28 (caching [some { ip := 1, mac := 0xA1, ts := 0 }, some { ip := 2, mac := 0xA2, ts := 10 }] 3 0xA3)
      (fun t => holds t [(0, 3)] &&
        t.cache == [[some { ip := 3, mac := 0xA3, ts := 50 }, some { ip := 2, mac := 0xA2, ts := 10 }]]) = true := by
  decide

/-- AC12. -/
theorem test_arpcInsert_truncates :
    runs 0x28 (caching [none, none] 0xFFFFFFFF0A000001 0xFFFF0200000000A1)
      (fun t => holds t [(0, 1)] &&
        t.cache == [[some { ip := 0x0A000001, mac := 0x0200000000A1, ts := 50 }, none]]) = true := by
  decide

/-- AC2: age 99 of 100. -/
theorem test_arpcLookup_live :
    runs 0x29 { caching [some { ip := 9, mac := 0xAA, ts := 1000 }, none] 9 0 with now := 1099 }
      (fun t => holds t [(0, 1), (16, 0xAA)]) = true := by
  decide

/-- AC2: age 100 of 100. -/
theorem test_arpcLookup_stale :
    runs 0x29 { caching [some { ip := 9, mac := 0xAA, ts := 1000 }, none] 9 0 with now := 1100 }
      (fun t => holds t [(0, 0), (16, 0)] && t.cache == [[none, none]]) = true := by
  decide

/-- AC4. -/
theorem test_arpcSweep :
    runs 0x2A { caching [some { ip := 1, mac := 1, ts := 0 }, some { ip := 2, mac := 2, ts := 50 }] 0 0 with now := 100 }
      (fun t => holds t [(0, 1)] && t.cache == [[none, some { ip := 2, mac := 2, ts := 50 }]]) = true := by
  decide

/-- AC5. -/
theorem test_arpcRemove_live :
    runs 0x2B { caching [some { ip := 9, mac := 1, ts := 0 }, none] 9 0 with now := 5 }
      (fun t => holds t [(0, 1)] && t.cache == [[none, none]]) = true := by
  decide

/-- AC6. -/
theorem test_arpcRemove_stale :
    runs 0x2B { caching [some { ip := 3, mac := 1, ts := 0 }, none] 3 0 with now := 100 }
      (fun t => holds t [(0, 0)] && t.cache == [[none, none]]) = true := by
  decide

/-- AC8: a timestamp in the future has age 0. -/
theorem test_arpcCount_future :
    runs 0x2C { caching [some { ip := 1, mac := 1, ts := 500 }, none] 0 0 with now := 450 }
      (fun t => holds t [(0, 1)]) = true := by
  decide

/-- I8. -/
theorem test_ip4Parse_options :
    runs 0x30 (given [0x46, 0x00, 0x00, 0x18, 0x00, 0x00, 0x00, 0x00, 0x40, 0x11, 0x00, 0x00, 0x01, 0x02, 0x03, 0x04, 0x05, 0x06, 0x07, 0x08, 0x01, 0x01, 0x00, 0x00, 0x04, 0xd2] 0 [])
      (fun t => holds t [(16, 4), (17, 6), (19, 24), (24, 17), (26, 0x01020304), (27, 0x05060708), (28, 24), (29, 2),
        (30, 20), (31, 4)]) = true := by
  decide

/-- I6. -/
theorem test_ip4Parse_bad_ihl :
    runs 0x30 (given [0x40, 0x00, 0x00, 0x00, 0x00, 0x00, 0x00, 0x00, 0x00, 0x00, 0x00, 0x00, 0x00, 0x00, 0x00, 0x00, 0x00, 0x00, 0x00, 0x00] 0 [])
      (fun t => reports t 0x030101 0x0000000000000014) = true := by
  decide

/-- I10. -/
theorem test_ip4Build :
    runs 0x31 (given [] 0x80 [(4, 0x0A000001), (5, 0x0A000002), (6, 6), (7, 0)])
      (fun t => built t 0x80
        [0x45, 0x00, 0x00, 0x14, 0x00, 0x00, 0x00, 0x00, 0x00, 0x06, 0xa6, 0xe2, 0x0a, 0x00, 0x00, 0x01, 0x0a, 0x00, 0x00, 0x02]) = true := by
  decide

/-- I11. -/
theorem test_ip4Build_payload :
    runs 0x31 (given (0x00 :: 0x00 :: 0x29 :: 0x68 :: echoRequest.drop 4) 64 [(4, 0xC0A80101), (5, 0xC0A8010A), (6, 1), (7, 64)])
      (fun t => built t 64 ([0x45, 0x00, 0x00, 0x1f, 0x00, 0x00, 0x00, 0x00, 0x40, 0x01, 0xf7, 0x82, 0xc0, 0xa8, 0x01, 0x01,
        0xc0, 0xa8, 0x01, 0x0a, 0x00, 0x00, 0x29, 0x68] ++ echoRequest.drop 4)) = true := by
  decide

/-- I17. -/
theorem test_ip4Emit_truncates :
    runs 0x32 (given [] 0x80 [(4, 0x14), (5, 0x16), (6, 0x1FF), (7, 0x1001F), (8, 1), (9, 8), (10, 0x2001), (11, 0x140),
      (12, 0x111), (13, 0x1B781), (14, 0x1C0A8010A), (15, 0xC0A80101)])
      (fun t => built t 0x80
        [0x46, 0xff, 0x00, 0x1f, 0x00, 0x01, 0x00, 0x01, 0x40, 0x11, 0xb7, 0x81, 0xc0, 0xa8, 0x01, 0x0a, 0xc0, 0xa8, 0x01, 0x01]) = true := by
  decide

/-- M1. -/
theorem test_icmpParse :
    runs 0x40 (given echoRequest 0 [])
      (fun t => holds t [(16, 8), (17, 0), (18, 0x2168), (19, 0x1234), (20, 1), (21, 2), (28, 8), (29, 3)]) = true := by
  decide

/-- M9. -/
theorem test_icmpParse_short :
    runs 0x40 (given [0x0b, 0x01, 0xbe, 0xef, 0x00, 0x00, 0x00] 0 [])
      (fun t => reports t 0x040001 0x0000000800000007) = true := by
  decide

/-- M12. -/
theorem test_icmpEmit_odd :
    runs 0x41 (given [0x61] 16 [(4, 8), (6, 0xABCD), (7, 0x10002)])
      (fun t => built t 16 [0x08, 0x00, 0xeb, 0x2f, 0xab, 0xcd, 0x00, 0x02, 0x61]) = true := by
  decide

/-- M5: code 3 and a wrong checksum are not looked at. -/
theorem test_icmpBuildReply_in_place :
    runs 0x42 (given [0x08, 0x03, 0xff, 0xff, 0x12, 0x34, 0x00, 0x01, 0x61, 0x62, 0x63] 0 [])
      (fun t => built t 0 [0x00, 0x00, 0x29, 0x68, 0x12, 0x34, 0x00, 0x01, 0x61, 0x62, 0x63]) = true := by
  decide

/-- U7: the length is not checked. -/
theorem test_udpParse :
    runs 0x50 (given [0x00, 0x35, 0x00, 0x35, 0x00, 0xff, 0x00, 0x00, 0xaa] 0 [])
      (fun t => holds t [(16, 53), (17, 53), (18, 255), (19, 0), (28, 8), (29, 1)]) = true := by
  decide

/-- U5. -/
theorem test_udpBuild_odd :
    runs 0x51 (given [0x61] 64 [(4, 0x0A000001), (5, 0x0A000002), (6, 1234), (7, 5678)])
      (fun t => built t 64 [0x04, 0xd2, 0x16, 0x2e, 0x00, 0x09, 0x6f, 0xd9, 0x61]) = true := by
  decide

/-- U6: a checksum of 0 is written as 0. -/
theorem test_udpBuild_zero_checksum :
    runs 0x51 (given [0xd0, 0xd7] 64 [(4, 0x0A000001), (5, 0x0A000002), (6, 1234), (7, 5678)])
      (fun t => built t 64 [0x04, 0xd2, 0x16, 0x2e, 0x00, 0x0a, 0x00, 0x00, 0xd0, 0xd7]) = true := by
  decide

/-- U12: length and checksum of the request are not looked at. -/
theorem test_udpBuildEcho :
    runs 0x52 (given [0x04, 0xd2, 0x16, 0x2e, 0x00, 0x00, 0xff, 0xff, 0x68, 0x69] 64 [(4, 0x0A000002), (5, 0x0A000001)])
      (fun t => built t 64 [0x16, 0x2e, 0x04, 0xd2, 0x00, 0x0a, 0x68, 0x6e, 0x68, 0x69]) = true := by
  decide

/-- The reply frame of vector F7, from program P2. -/
def replyF7 : List Byte :=
  [0x02, 0x00, 0x00, 0x00, 0x00, 0x01, 0x02, 0x00, 0x00, 0x00, 0x00, 0x02, 0x08, 0x00, 0x45, 0x00, 0x00, 0x1f,
   0x00, 0x00, 0x00, 0x00, 0x40, 0x01, 0xf7, 0x82, 0xc0, 0xa8, 0x01, 0x01, 0xc0, 0xa8, 0x01, 0x0a, 0x00, 0x00,
   0x29, 0x68, 0x12, 0x34, 0x00, 0x01, 0x61, 0x62, 0x63]

/-- F7. -/
theorem test_processFrame_echo :
    runs 0x60 { given frameF7 0x100 [] with ourMac := 0x020000000002, ourIp := 0xC0A80101 }
      (fun t => holds t [(0, 4), (16, 45), (17, 0xC0A8010A), (18, 0xC0A80101), (19, 8), (20, 0), (28, 0), (29, 0)] &&
        t.bytesAt 0x100 45 == replyF7) = true := by
  decide

/-- F2: not for us, but learned. -/
theorem test_processFrame_arp :
    runs 0x60 { given frameF1 70000 [] with ourIp := 0xC0A80163 }
      (fun t => holds t [(0, 2), (16, 0), (17, 0xC0A8010A), (18, 0x020000000001)] &&
        t.cache == [[some { ip := 0xC0A8010A, mac := 0x020000000001, ts := 50 }, none]]) = true := by
  decide

/-! ## The host's side -/

/-- A step performs the host's next interaction, and the state passes the check. -/
def performs (op : HostOp) (s : State) (check : State → Bool) : Bool :=
  match step { s with pending := [op] } with
  | .next t => check t
  | .fault _ => false
  | .refused _ => false

/-- 20_memory.md R82: OUR_MAC keeps 48 bits; a write of a read-only or reserved CSR is ignored. -/
theorem test_csr_writes :
    (performs (.csrWrite 0x030 0xFFFF0200000000A1) boot (fun t => t.ourMac == 0x0200000000A1) &&
      performs (.csrWrite 0x021 0xFFFF) boot (fun t => t == boot) &&
      performs (.csrWrite 0x100 1) boot (fun t => t == boot)) = true := by
  decide

/-- Program P3: ARP_GEOM of one set and two ways. -/
theorem test_csr_reads :
    (performs (.csrRead 0x041) boot (fun t => t.replies == [.csrValue 0x041 0x0000000200000001]) &&
      performs (.csrRead 0x042) boot (fun t => t.replies == [.csrValue 0x042 65536])) = true := by
  decide

/-- 10_state.md R46: NOW wraps. -/
theorem test_tick_wraps : performs .tick { boot with now := 0xFFFFFFFFFFFFFFFF } (fun t => t.now == 0) = true := by decide

/-- 10_state.md R54: the reset value of REPLY_TTL, and an empty cache. -/
theorem test_reset :
    performs .reset (caching [some { ip := 1, mac := 1, ts := 0 }, none] 0 0)
      (fun t => t.replyTtl == 64 && t.arpTimeout == 7 && t.cache == [[none, none]] && t.reg 4 == 0) = true := by
  decide

/-- Lines of program P1 (30_encoding.md R133, R134). -/
theorem test_script :
    assembleLine "desc 0, 42" = some [.csrWrite 1 0, .csrWrite 2 42] ∧
    assembleLine "sb 41, 0x63                ; target IP becomes 192.168.1.99" = some [.pbufWrite 41 0x63] ∧
    assembleLine "cmd PROCESS_FRAME          ; 0x00000060   (1)" = some [.csrWrite 0x020 0x60] ∧
    assembleLine "ARP_RESOLVE" = some [.csrWrite 0x020 0x29] ∧
    assembleLine "csrw arp_timeout, 100" = some [.csrWrite 0x032 100] := by
  decide

/-! ## Witnesses: for every statement with hypotheses, a state and operands that meet them

One theorem `witness_<statement>` each, with one part per clause that has hypotheses of its own. -/

/-- The state a command or a step ends in. -/
def after : Result → State
  | .next t => t
  | .fault _ => boot
  | .refused _ => boot

theorem ends (i : Instr) (s : State) : exec i s = .next (after (exec i s)) := by
  rcases exec_cases i s with ⟨e, h⟩ | ⟨e, h⟩ <;> rw [h] <;> rfl

/-- `boot` with interactions to come. -/
def asked (ops : List HostOp) : State := { boot with pending := ops }

/-- `boot` with registers set. -/
def regs (l : List (Reg × Word)) : State := { boot with x := writeRegs boot.x l }

theorem inR {s : State} (h : decide ((s.reg 1).toNat + (s.reg 2).toNat ≤ s.params.pbufSize) = true) : InputInRange s := by
  unfold InputInRange; exact of_decide_eq_true h

theorem not_inR {s : State} (h : decide ((s.reg 1).toNat + (s.reg 2).toNat ≤ s.params.pbufSize) = false) : ¬ InputInRange s := by
  unfold InputInRange; exact of_decide_eq_false h

theorem outR {s : State} {n : Nat} (h : decide ((s.reg 3).toNat + n ≤ s.params.pbufSize) = true) : OutputInRange s n := by
  unfold OutputInRange; exact of_decide_eq_true h

theorem not_outR {s : State} {n : Nat} (h : decide ((s.reg 3).toNat + n ≤ s.params.pbufSize) = false) : ¬ OutputInRange s n := by
  unfold OutputInRange; exact of_decide_eq_false h

theorem boot_inv : MachineInv boot where
  legal := by decide
  canonical := (reset_memory_wf small).1
  within := (reset_memory_wf small).2
  cache := reset_cacheInv small
  idle := rfl
  lastOpc := rfl
  failReported := by decide
  noError := by decide
  codes := by decide
  notDone := by decide

theorem given_inv (input : List Byte) (out : Word) (operands : List (Reg × Word)) (h : input.length ≤ 65536) :
    MachineInv (given input out operands) :=
  { boot_inv with
    canonical := wf_writeBytes (reset_memory_wf small).1 _ _
    within := within_writeBytes (reset_memory_wf small).2 (by simpa [boot, small, State.resetWith] using h) }

/-- A full set at time 1099 with timeout 100: the entry of 9 is live (age 99), the entry of 8 stale (age 100). The
operands name the address `ip`. -/
def filled (ip : Word) : State :=
  { caching [some { ip := 9, mac := 0xAA, ts := 1000 }, some { ip := 8, mac := 0xBB, ts := 999 }] ip 0xCC with now := 1099 }

theorem filled_inv (ip : Word) : MachineInv (filled ip) := by
  have h1 := (cacheInsert_spec boot_inv.legal boot_inv.cache 100 1000 9 0xAA).choose_spec.choose_spec.2.2.2.2
  have h2 := (cacheInsert_spec boot_inv.legal h1 100 999 8 0xBB).choose_spec.choose_spec.2.2.2.2
  have h3 : (cacheInsert boot.params 100 999 (cacheInsert boot.params 100 1000 boot.cache 9 0xAA).1 8 0xBB).1
      = (filled ip).cache := by
    show _ = ([[some { ip := 9, mac := 0xAA, ts := 1000 }, some { ip := 8, mac := 0xBB, ts := 999 }]] : Cache); decide
  rw [h3] at h2
  exact { boot_inv with cache := h2 }

/-! ### Encoding, decoding, the step -/

theorem witness_DecodeAndEncodeAgree : ∃ w i, decode w = .ok i := ⟨0x60, .processFrame, rfl⟩

theorem witness_ReservedWordsAreIllegal :
    wordWellFormed 0x60 = true ∧ (0x160#32).extractLsb' 8 24 ≠ 0#24 ∧
      (0x61#32).extractLsb' 8 24 = 0#24 ∧ opcReserved ((0x61#32).extractLsb' 0 8) = true := by decide

theorem witness_StepRunsTheDecodedCommand :
    ∃ (s : State) (v : Word) (rest : List HostOp) (i : Instr),
      s.pending = .csrWrite 0x020 v :: rest ∧ decode (v.setWidth 32) = .ok i :=
  ⟨asked [.csrWrite 0x020 0xFFFFFFFF00000060, .tick], 0xFFFFFFFF00000060, [.tick], .processFrame, rfl, rfl⟩

theorem witness_CmdWriteDecodesAsRuled :
    (∃ (s : State) (v : Word) (rest : List HostOp) (c : BitVec 32),
      s.pending = .csrWrite 0x020 v :: rest ∧ c = v.setWidth 32 ∧ c.extractLsb' 8 24 ≠ 0#24) ∧
    (∃ (s : State) (v : Word) (rest : List HostOp) (c : BitVec 32),
      s.pending = .csrWrite 0x020 v :: rest ∧ c = v.setWidth 32 ∧ c.extractLsb' 8 24 = 0#24 ∧
        ∀ i, opcOf i ≠ c.extractLsb' 0 8) ∧
    ∃ (s : State) (v : Word) (rest : List HostOp) (c : BitVec 32) (i : Instr),
      s.pending = .csrWrite 0x020 v :: rest ∧ c = v.setWidth 32 ∧ c.extractLsb' 8 24 = 0#24 ∧
        opcOf i = c.extractLsb' 0 8 :=
  ⟨⟨asked [.csrWrite 0x020 0x160], 0x160, [], 0x160, rfl, rfl, by decide⟩,
    ⟨asked [.csrWrite 0x020 0x61], 0x61, [], 0x61, rfl, rfl, rfl, by intro i; cases i <;> decide⟩,
    ⟨asked [.csrWrite 0x020 0x60], 0x60, [], 0x60, .processFrame, rfl, rfl, rfl, rfl⟩⟩

theorem witness_OnlyHostPbufOutOfRangeIsRefused :
    step (asked [.pbufRead 65536]) = .refused .hostPbufOutOfRange ∧ small.pbufSize ≤ 65536 ∧
      step (asked [.pbufWrite 65536 0]) = .refused .hostPbufOutOfRange := ⟨rfl, by decide, rfl⟩

theorem witness_ResetMeetsTheInvariant : small.legal = true ∧ TpeClean boot := ⟨by decide, by decide, rfl⟩

theorem witness_StepKeepsTheInvariant : ∃ s t, MachineInv s ∧ step s = .next t :=
  ⟨asked [.csrWrite 0x020 0x28], after (step (asked [.csrWrite 0x020 0x28])),
    inv_congr boot_inv rfl rfl rfl rfl rfl rfl rfl, rfl⟩

/-! ### Reset and the host's interactions -/

theorem witness_ResetGivesTheTableValues : ∃ (s : State) (rest : List HostOp), s.pending = .reset :: rest :=
  ⟨asked [.reset, .tick], [.tick], rfl⟩

theorem witness_TickAdvancesNow :
    (∃ (s : State) (rest : List HostOp), s.pending = .tick :: rest ∧ s.now.toNat = 2 ^ 64 - 1) ∧
      ∃ i s t, exec i s = .next t :=
  ⟨⟨{ asked [.tick] with now := 0xFFFFFFFFFFFFFFFF }, [], rfl, rfl⟩, .ethClassify, boot, _, ends _ _⟩

theorem witness_CsrWritesStoreDefinedFields :
    (∀ n v, (asked [.csrWrite n v]).pending = .csrWrite n v :: []) ∧
      (∀ n ∈ ([0x000, 0x01F] : List CsrNum), n ≠ 0x020 ∧ n.toNat < 32) ∧
      (∀ n ∈ ([0x030, 0x031, 0x032, 0x033, 0x034] : List CsrNum), n ≠ 0x020) ∧
      ∀ n ∈ ([0x021, 0x02F, 0x035, 0xFFF] : List CsrNum),
        n ≠ 0x020 ∧ 32 ≤ n.toNat ∧ n ∉ ([0x030, 0x031, 0x032, 0x033, 0x034] : List CsrNum) :=
  ⟨fun _ _ => rfl, by decide, by decide, by decide⟩

theorem witness_CsrReadsReturnTheirFields :
    (∀ n, (asked [.csrRead n]).pending = .csrRead n :: []) ∧ (asked []).params.legal = true ∧
      (0x01F#12).toNat < 32 ∧
      ∀ n ∈ ([0x024, 0x02F, 0x035, 0x043, 0xFFF] : List CsrNum), 32 ≤ n.toNat ∧
        n ∉ ([0x020, 0x021, 0x022, 0x023, 0x030, 0x031, 0x032, 0x033, 0x034, 0x040, 0x041, 0x042] : List CsrNum) :=
  ⟨fun _ => rfl, by decide, by decide, by decide⟩

theorem witness_HostPbufAccessesMoveOneByte :
    65535 < small.pbufSize ∧ (asked [.pbufWrite 65535 7]).pending = .pbufWrite 65535 7 :: [] ∧
      (asked [.pbufRead 65535]).pending = .pbufRead 65535 :: [] := ⟨by decide, rfl, rfl⟩

theorem witness_ScriptStoreWritesItsBytes :
    Memory.wf boot.pbuf ∧ 65534 + ([1, 2] : List Byte).length ≤ boot.params.pbufSize := ⟨boot_inv.canonical, by decide⟩

/-! ### What every command does and does not do -/

theorem witness_FailedCommandChangesOnlyTheReport :
    (∃ i s t, exec i s = .next t ∧ t.status.fail = true) ∧ (∃ i s t, exec i s = .next t ∧ t.status.fail = false) ∧
      ∃ (s t : State) (op : HostOp) (rest : List HostOp), s.pending = op :: rest ∧ op ≠ .reset ∧
        (∀ v, op ≠ .csrWrite 0x020 v) ∧ step s = .next t :=
  ⟨⟨.ethParse, given (zeros 13) 0 [], _, ends _ _, by decide⟩, ⟨.ethParse, given (zeros 14) 0 [], _, ends _ _, by decide⟩,
    asked [.tick], after (step (asked [.tick])), .tick, [], rfl, by decide, fun _ => nofun, rfl⟩

theorem witness_CommandFrames :
    (∃ i s t, exec i s = .next t ∧ i ∉ [.ckClear, .ckAccum, .cksum, .ckVerify] ∧
      i ∉ [.arpcInsert, .arpcLookup, .arpcSweep, .arpcRemove, .arpHandle, .processFrame] ∧
      i ∉ [.ethBuild, .arpBuildReq, .arpBuildReply, .arpHandle, .ip4Build, .ip4Emit, .icmpEmit, .icmpBuildReply,
        .udpBuild, .udpBuildEcho, .processFrame]) ∧
    (∃ i s t, exec i s = .next t ∧ t.status.fail = true) ∧
    -- a command that stores: the byte before X3 and the byte after the X0 or X16 bytes it stored
    ∀ p ∈ ([(.arpHandle, given packetQ 64 [], 28), (.processFrame, { given frameF1 64 [] with ourIp := 0xC0A80101 }, 42)] :
        List (Instr × State × Nat)),
      ∃ t, exec p.1 p.2.1 = .next t ∧ p.2.1.params.legal = true ∧ (t.reg (countReg p.1)).toNat = p.2.2 ∧
        ∀ a ∈ [63, 64 + p.2.2], a < (p.2.1.reg 3).toNat ∨ (p.2.1.reg 3).toNat + (t.reg (countReg p.1)).toNat ≤ a := by
  refine ⟨⟨.ethParse, given (zeros 14) 0 [], _, ends _ _, by decide, by decide, by decide⟩,
    ⟨.ethBuild, given (zeros 14) 65535 [], _, ends _ _, by decide⟩, fun p hp => ⟨_, ends _ _, ?_⟩⟩
  revert p; decide

theorem witness_ResultRegistersAreNeverRead :
    ∀ r ∈ ([0, 16, 31] : List Reg), ∃ i s t, (r.val = 0 ∨ 16 ≤ r.val) ∧ exec i s = .next t :=
  fun r hr => ⟨.ip4Parse, given (0x45 :: zeros 19) 0 [], _, by revert r; decide, ends _ _⟩

theorem witness_InputOutOfRangeIsReportedFirst :
    ¬ InputInRange (regs [(1, 65530), (2, 7)]) ∧
      .ckAccum ∈ [Instr.ckAccum, .cksum, .ckVerify, .ethParse, .ethBuild, .arpParse, .arpBuildReply, .arpHandle, .ip4Parse,
        .ip4Build, .ip4Emit, .icmpParse, .icmpEmit, .icmpBuildReply, .udpParse, .udpBuild, .udpBuildEcho, .processFrame] :=
  ⟨not_inR (by decide), by decide⟩

/-- 12 bytes of addresses, the IPv4 EtherType, and then these bytes. -/
def ip4Frame (e : List Byte) : List Byte := zeros 12 ++ [0x08, 0x00] ++ e

theorem witness_MalformedInputIsInvalidPacket :
    small.legal = true ∧
    -- too short, by one byte, for each need
    (∀ need ∈ [8, 14, 20, 28], InputInRange (given (zeros (need - 1)) 0 []) ∧
      ((given (zeros (need - 1)) 0 []).reg 2).toNat < need) ∧
    -- IP4_PARSE: IHL 4 and IHL 6 with 23 bytes
    (∃ s, InputInRange s ∧ 20 ≤ (s.reg 2).toNat ∧ ((inputBytes s).getD 0 0).toNat % 16 < 5) ∧
    (∃ s, InputInRange s ∧ 20 ≤ (s.reg 2).toNat ∧ 5 ≤ ((inputBytes s).getD 0 0).toNat % 16 ∧
      (s.reg 2).toNat < ((inputBytes s).getD 0 0).toNat % 16 * 4) ∧
    -- PROCESS_FRAME: 19 bytes of IPv4, IHL 4, IHL 6 with 23 bytes
    ∀ e ∈ [zeros 19, 0x44 :: zeros 19, 0x46 :: zeros 22],
      InputInRange (given (ip4Frame e) 0 []) ∧ 14 ≤ ((given (ip4Frame e) 0 []).reg 2).toNat ∧
        be16 (inputBytes (given (ip4Frame e) 0 [])) 12 = 0x0800 := by
  refine ⟨by decide, fun n hn => ⟨inR ?_, ?_⟩, ⟨given (0x44 :: zeros 19) 0 [], inR (by decide), by decide, by decide⟩,
    ⟨given (0x46 :: zeros 22) 0 [], inR (by decide), by decide, by decide, by decide⟩, fun e he => ⟨inR ?_, ?_, ?_⟩⟩
  · revert n; decide
  · revert n; decide
  · revert e; decide
  · revert e; decide
  · revert e; decide

theorem witness_OutputOutOfRangeIsReported :
    -- ARP_BUILD_REQ, whatever X1 and X2 hold
    (¬ InputInRange (regs [(1, 65530), (2, 7), (3, 65509)]) ∧ ¬ OutputInRange (regs [(1, 65530), (2, 7), (3, 65509)]) 28) ∧
    ∀ p ∈ ([(.ethBuild, 0, 14), (.arpBuildReply, 28, 28), (.ip4Build, 0, 20), (.ip4Emit, 0, 20),
        (.icmpEmit, 0, 8), (.icmpBuildReply, 8, 8), (.udpBuild, 0, 8), (.udpBuildEcho, 8, 8)] : List (Instr × Nat × Nat)),
      let s := given (zeros p.2.1) (word64 (65537 - p.2.2)) []
      ¬ OutputInRange s p.2.2 ∧ InputInRange s ∧
        ((p.1 = .ethBuild ∧ p.2.2 = 14 + (s.reg 2).toNat)
          ∨ (p.1 = .arpBuildReply ∧ 28 ≤ (s.reg 2).toNat ∧ p.2.2 = 28)
          ∨ (p.1 = .ip4Build ∧ p.2.2 = 20 + (s.reg 2).toNat ∧ p.2.2 ≤ 0xFFFF)
          ∨ (p.1 = .ip4Emit ∧ p.2.2 = 20 + (s.reg 2).toNat) ∨ (p.1 = .icmpEmit ∧ p.2.2 = 8 + (s.reg 2).toNat)
          ∨ (p.1 = .icmpBuildReply ∧ 8 ≤ p.2.2 ∧ p.2.2 = (s.reg 2).toNat)
          ∨ (p.1 = .udpBuild ∧ p.2.2 = 8 + (s.reg 2).toNat ∧ p.2.2 ≤ 0xFFFF)
          ∨ (p.1 = .udpBuildEcho ∧ 8 ≤ p.2.2 ∧ p.2.2 = (s.reg 2).toNat ∧ p.2.2 ≤ 0xFFFF)) := by
  refine ⟨⟨not_inR (by decide), not_outR (by decide)⟩, fun p hp => ⟨not_outR ?_, inR ?_, ?_⟩⟩
  · revert p; decide
  · revert p; decide
  · revert p; decide

theorem witness_OverlongBuildIsLengthOverflow :
    (∃ s, InputInRange s ∧ 0xFFFF < 20 + (s.reg 2).toNat) ∧ (∃ s, InputInRange s ∧ 0xFFFF < 8 + (s.reg 2).toNat) ∧
      ∃ s, InputInRange s ∧ 0xFFFF < (s.reg 2).toNat :=
  ⟨⟨regs [(2, 65516)], inR (by decide), by decide⟩, ⟨regs [(2, 65528)], inR (by decide), by decide⟩,
    ⟨regs [(2, 65536)], inR (by decide), by decide⟩⟩

/-! ### The checksum -/

theorem witness_StreamedSumIsOsum : ∃ (b : List Byte) (pieces : List (List Byte)), pieces.flatten = b :=
  ⟨[0x00, 0x01, 0xf2, 0x03, 0xf4], [[0x00, 0x01, 0xf2], [0x03, 0xf4]], rfl⟩

theorem witness_EmbeddedChecksumSumsToAllOnes : ∃ (b : List Byte) (k : Nat), k % 2 = 0 ∧ k + 1 < b.length :=
  ⟨zeros 20, 18, by decide, by decide⟩

theorem witness_ChecksumLaws :
    (∃ b : List Byte, b.length % 2 = 1) ∧ (∃ a : List Byte, a.length % 2 = 0 ∧ a ≠ []) ∧
      ∃ us vs : List (Byte × Byte), us.Perm vs ∧ us ≠ vs :=
  ⟨⟨[1], rfl⟩, ⟨[1, 2], rfl, by decide⟩, [(1, 2), (3, 4)], [(3, 4), (1, 2)], by decide, by decide⟩

theorem witness_CkClearAndCkFinalResults : (∃ s : State, s.ck.pv = false) ∧ ∃ s : State, s.ck.pv = true :=
  ⟨⟨boot, rfl⟩, ⟨{ boot with ck := { acc := 0xFFFF, pv := true, pb := 0xFF } }, rfl⟩⟩

theorem witness_CkAccumFeedsTheInput :
    (∃ s, InputInRange s ∧ (s.reg 2).toNat = 0) ∧ (∃ s, InputInRange s ∧ (s.reg 2).toNat = 1 ∧ s.ck.pv = false) ∧
      (∃ s, InputInRange s ∧ (s.reg 2).toNat = 1 ∧ s.ck.pv = true) ∧
      ∃ s fed, InputInRange s ∧ s.ck = Accumulator.clear.feedAll fed ∧ fed ≠ [] :=
  ⟨⟨regs [(1, 65536)], inR (by decide), rfl⟩, ⟨given [7] 0 [], inR (by decide), rfl, rfl⟩,
    ⟨{ given [7] 0 [] with ck := { acc := 0xFFFE, pv := true, pb := 1 } }, inR (by decide), rfl, rfl⟩,
    { given [7] 0 [] with ck := { acc := 1, pv := true, pb := 0xF2 } }, [0x00, 0x01, 0xf2], inR (by decide), by decide,
    by decide⟩

theorem witness_CksumOfTheInput : InputInRange (regs [(1, 65533), (2, 3)]) := inR (by decide)

theorem witness_CkVerifyTestsForAllOnes :
    (∃ s, InputInRange s ∧ osum (inputBytes s) = 0xFFFF) ∧ ∃ s, InputInRange s ∧ osum (inputBytes s) ≠ 0xFFFF :=
  ⟨⟨given [0xff, 0xfe, 0x00, 0x01] 0 [], inR (by decide), by decide⟩, given [0, 0] 0 [], inR (by decide), by decide⟩

/-! ### Ethernet -/

theorem witness_EthParseDecodesTheFrame :
    ¬ InputInRange (regs [(1, 65523), (2, 14)]) ∧ (∃ s, InputInRange s ∧ (s.reg 2).toNat < 14) ∧
      ∃ s, InputInRange s ∧ 14 ≤ (s.reg 2).toNat :=
  ⟨not_inR (by decide), ⟨regs [(1, 65523), (2, 13)], inR (by decide), by decide⟩,
    regs [(1, 65522), (2, 14)], inR (by decide), by decide⟩

theorem witness_EthBuildWritesTheFrame :
    ¬ InputInRange (regs [(1, 65536), (2, 1)]) ∧ (∃ s, InputInRange s ∧ ¬ OutputInRange s (14 + (s.reg 2).toNat)) ∧
      ∃ s, InputInRange s ∧ OutputInRange s (14 + (s.reg 2).toNat) :=
  ⟨not_inR (by decide), ⟨given [0xaa] 65522 [], inR (by decide), not_outR (by decide)⟩,
    given [0xaa] 65521 [], inR (by decide), outR (by decide)⟩

theorem witness_EthernetRoundTrip :
    (∃ s t u : State, s.params.legal = true ∧ exec .ethBuild s = .next t ∧ t.status.fail = false ∧
      exec .ethParse ((t.setReg 1 (s.reg 3)).setReg 2 (t.reg 0)) = .next u) ∧
    ∃ s t u : State, s.params.legal = true ∧ exec .ethParse s = .next t ∧ t.status.fail = false ∧
      exec .ethBuild ((((((t.setReg 1 (t.reg 28)).setReg 2 (t.reg 29)).setReg 3 (s.reg 1)).setReg 4 (t.reg 16)).setReg 5
        (t.reg 17)).setReg 6 (t.reg 18)) = .next u :=
  ⟨⟨given [0xaa] 65521 [], _, _, by decide, ends _ _, by decide, ends _ _⟩,
    given (zeros 15) 0 [], _, _, by decide, ends _ _, by decide, ends _ _⟩

/-! ### ARP packets -/

theorem witness_ArpParseDecodesThePacket : ∃ s, InputInRange s ∧ 28 ≤ (s.reg 2).toNat :=
  ⟨given packetQ 0 [], inR (by decide), by decide⟩

theorem witness_ArpBuildReqWritesTheRequest : OutputInRange (regs [(3, 65508)]) 28 := outR (by decide)

theorem witness_ArpBuildReplySwapsAndSubstitutes : ∃ s, InputInRange s ∧ 28 ≤ (s.reg 2).toNat ∧ OutputInRange s 28 :=
  ⟨given packetQ 65508 [], inR (by decide), by decide, outR (by decide)⟩

theorem witness_ArpHandleLearnsAndAnswers :
    (∃ s, InputInRange s ∧ 28 ≤ (s.reg 2).toNat ∧
      (be16 (inputBytes s) 6 = 1 ∧ be32 (inputBytes s) 24 = s.ourIp) ∧ OutputInRange s 28) ∧
    (∃ s, InputInRange s ∧ 28 ≤ (s.reg 2).toNat ∧
      (be16 (inputBytes s) 6 = 1 ∧ be32 (inputBytes s) 24 = s.ourIp) ∧ ¬ OutputInRange s 28) ∧
    ∃ s, InputInRange s ∧ 28 ≤ (s.reg 2).toNat ∧ ¬ (be16 (inputBytes s) 6 = 1 ∧ be32 (inputBytes s) 24 = s.ourIp) :=
  ⟨⟨given packetQ 65508 [], inR (by decide), by decide, by decide, outR (by decide)⟩,
    ⟨given packetQ 65509 [], inR (by decide), by decide, by decide, not_outR (by decide)⟩,
    { given packetQ 70000 [] with ourIp := 0x0A000009 }, inR (by decide), by decide, by decide⟩

theorem witness_ArpRoundTrip :
    (∃ s t u : State, s.params.legal = true ∧ exec .arpBuildReq s = .next t ∧ t.status.fail = false ∧
      exec .arpParse ((t.setReg 1 (s.reg 3)).setReg 2 (t.reg 0)) = .next u) ∧
    ∃ s t u v : State, s.params.legal = true ∧ exec .arpBuildReply s = .next t ∧ t.status.fail = false ∧
      exec .arpParse s = .next u ∧ exec .arpParse ((t.setReg 1 (s.reg 3)).setReg 2 (t.reg 0)) = .next v :=
  ⟨⟨regs [(3, 65508)], _, _, by decide, ends _ _, by decide, ends _ _⟩,
    given packetQ 100 [], _, _, _, by decide, ends _ _, by decide, ends _ _, ends _ _⟩

/-! ### The ARP cache -/

theorem witness_ArpcInsertChoosesTheVictim : MachineInv (filled 9) ∧ MachineInv (filled 7) ∧ MachineInv boot :=
  ⟨filled_inv _, filled_inv _, boot_inv⟩

theorem filled_misses_7 (w : Nat) (e : CacheEntry) (h : (filled 7).cache.slot 0 w = some e) : e.ip ≠ 7 := by
  match w with
  | 0 => cases h; decide
  | 1 => cases h; decide
  | n + 2 => cases h

theorem witness_ArpcLookupReturnsOnlyLiveEntries :
    (∃ s w e, MachineInv s ∧ s.cache.slot (((s.reg 4).setWidth 32).toNat % s.params.arpSets) w = some e ∧
      e.ip = (s.reg 4).setWidth 32 ∧ age s.now e.ts < s.arpTimeout.toNat) ∧
    (∃ s w e, MachineInv s ∧ s.cache.slot (((s.reg 4).setWidth 32).toNat % s.params.arpSets) w = some e ∧
      e.ip = (s.reg 4).setWidth 32 ∧ s.arpTimeout.toNat ≤ age s.now e.ts) ∧
    ∃ s, MachineInv s ∧ ∀ w e, s.cache.slot (((s.reg 4).setWidth 32).toNat % s.params.arpSets) w = some e →
      e.ip ≠ (s.reg 4).setWidth 32 :=
  ⟨⟨filled 9, 0, _, filled_inv _, rfl, by decide, by decide⟩, ⟨filled 8, 1, _, filled_inv _, rfl, by decide, by decide⟩,
    filled 7, filled_inv _, filled_misses_7⟩

theorem witness_ArpcRemoveReportsLiveEntries :
    (∃ s w e, MachineInv s ∧ s.cache.slot (((s.reg 4).setWidth 32).toNat % s.params.arpSets) w = some e ∧
      e.ip = (s.reg 4).setWidth 32) ∧
    ∃ s, MachineInv s ∧ ∀ w e, s.cache.slot (((s.reg 4).setWidth 32).toNat % s.params.arpSets) w = some e →
      e.ip ≠ (s.reg 4).setWidth 32 :=
  ⟨⟨filled 8, 1, _, filled_inv _, rfl, by decide⟩, filled 7, filled_inv _, filled_misses_7⟩

theorem witness_ArpcSweepAndCountUseOneStaleness : MachineInv (filled 0) := filled_inv _

theorem witness_CacheTimeAndOverwriteProperties :
    (∃ (s t v : State) (later : Word), MachineInv s ∧ exec .arpcInsert s = .next t ∧ s.now.toNat ≤ later.toNat ∧
      exec .arpcLookup { t with now := later } = .next v ∧ later.toNat < s.now.toNat + s.arpTimeout.toNat) ∧
    (∃ (s t v : State) (later : Word), MachineInv s ∧ exec .arpcInsert s = .next t ∧ s.now.toNat ≤ later.toNat ∧
      exec .arpcLookup { t with now := later } = .next v ∧ s.now.toNat + s.arpTimeout.toNat ≤ later.toNat) ∧
    ∃ s t u : State, MachineInv s ∧ exec .arpHandle s = .next t ∧ t.status.fail = false ∧ s.arpTimeout ≠ 0#64 ∧
      exec .arpcLookup (t.setReg 4 ((be32 (inputBytes s) 14).setWidth 64)) = .next u :=
  ⟨⟨filled 7, _, _, 1198, filled_inv _, ends _ _, by decide, ends _ _, by decide⟩,
    ⟨filled 7, _, _, 1199, filled_inv _, ends _ _, by decide, ends _ _, by decide⟩,
    given packetQ 64 [], _, _, given_inv _ _ _ (by decide), ends _ _, by decide, by decide, ends _ _⟩

/-- The source's map that `filled` stands for. -/
def filledMap : SourceMap := fun k => if k = 9 then some (0xAA, 1000) else if k = 8 then some (0xBB, 999) else none

theorem filled_agrees (ip : Word) : AgreesWith (filled ip) filledMap := by
  intro k
  have hf : ∀ k : BitVec 32, (filled ip).cache.find (filled ip).params k =
      if k = 9 then some (0, { ip := 9, mac := 0xAA, ts := 1000 }) else
        if k = 8 then some (1, { ip := 8, mac := 0xBB, ts := 999 }) else none := by
    intro k
    have h0 : setIndex (filled ip).params k = 0 := Nat.mod_one _
    rw [Cache.find, h0]
    by_cases h9 : k = 9
    · subst h9; rfl
    · by_cases h8 : k = 8
      · subst h8; rfl
      · rw [if_neg h9, if_neg h8]
        have : findWay ((filled ip).cache.ways 0) k = none := by
          have a9 : ¬ 9#32 = k := fun h => h9 h.symm
          have a8 : ¬ 8#32 = k := fun h => h8 h.symm
          simp [findWay, Cache.ways, filled, caching, Slot.holds, List.findIdx?_cons, a9, a8]
        rw [this]
  rw [State.liveEntry, hf]
  by_cases h9 : k = 9
  · subst h9; rfl
  · by_cases h8 : k = 8
    · subst h8; rfl
    · rw [if_neg h9, if_neg h8, SourceMap.liveAt, filledMap, if_neg h9, if_neg h8]; rfl

/-- `filled` with interactions to come. -/
def filledAsked (ip : Word) (ops : List HostOp) : State := { filled ip with pending := ops }

theorem empty_agrees (s : State) (h : s.cache = [[none, none]]) (hp : s.params = small) : AgreesWith s fun _ => none := by
  intro ip
  have h0 : setIndex small ip = 0 := Nat.mod_one _
  rw [State.liveEntry, h, hp, Cache.find, h0]; rfl

/-- The one insert of a command, if any, returns another code than 3. -/
theorem code_ne_3 {i : Instr} {s t : State} (h : (insertedBy i s t).all (fun e => s.insertCode e.1 e.2 != 3) = true)
    (ip : BitVec 32) (mac : BitVec 48) (hi : insertedBy i s t = some (ip, mac)) : s.insertCode ip mac ≠ 3 := by
  rw [hi] at h; simpa using h

theorem step_code_ne_3 {s t : State} (c : Option Instr) (hc : s.nextCommand = c)
    (h : c.all (fun i => (insertedBy i s t).all fun e => s.insertCode e.1 e.2 != 3) = true) (i : Instr) (ip : BitVec 32)
    (mac : BitVec 48) (hn : s.nextCommand = some i) (hi : insertedBy i s t = some (ip, mac)) : s.insertCode ip mac ≠ 3 := by
  rw [← hc, hn] at h; exact code_ne_3 h ip mac hi

theorem witness_CacheRefinesTheSourceMap :
    -- an ARPC_INSERT that evicts a stale entry, one of a cached address, the inserts of ARP_HANDLE and PROCESS_FRAME,
    -- and a command that inserts nothing
    (∀ p ∈ ([(.arpcInsert, 7), (.arpcInsert, 9), (.arpcCount, 0)] : List (Instr × Word)),
      ∃ t m, MachineInv (filled p.2) ∧ AgreesWith (filled p.2) m ∧ exec p.1 (filled p.2) = .next t ∧
        ∀ ip mac, insertedBy p.1 (filled p.2) t = some (ip, mac) → (filled p.2).insertCode ip mac ≠ 3) ∧
    (∀ p ∈ ([(.arpHandle, given packetQ 64 []), (.processFrame, given frameF1 64 [])] : List (Instr × State)),
      ∃ t m, MachineInv p.2 ∧ AgreesWith p.2 m ∧ exec p.1 p.2 = .next t ∧ (insertedBy p.1 p.2 t).isSome = true ∧
        ∀ ip mac, insertedBy p.1 p.2 t = some (ip, mac) → p.2.insertCode ip mac ≠ 3) ∧
    -- steps: the reset, the tick, writes of NOW and ARP_TIMEOUT, a command, an illegal command, any other access, none
    (∀ ops ∈ ([[.reset], [.tick], [.csrWrite 0x033 1200], [.csrWrite 0x032 0], [.csrWrite 0x020 0x28],
        [.csrWrite 0x020 0x61], [.pbufWrite 0 1], []] : List (List HostOp)),
      ∃ t m, MachineInv (filledAsked 7 ops) ∧ AgreesWith (filledAsked 7 ops) m ∧ step (filledAsked 7 ops) = .next t ∧
        ((filledAsked 7 ops).nextOp ≠ some .reset → (filledAsked 7 ops).now.toNat ≤ t.now.toNat ∧
          t.arpTimeout.toNat ≤ (filledAsked 7 ops).arpTimeout.toNat) ∧
        ∀ i ip mac, (filledAsked 7 ops).nextCommand = some i → insertedBy i (filledAsked 7 ops) t = some (ip, mac) →
          (filledAsked 7 ops).insertCode ip mac ≠ 3) ∧
    -- the answers
    (∀ i ∈ ([.arpcInsert, .arpcLookup, .arpcRemove] : List Instr), ∃ s m t, MachineInv s ∧ AgreesWith s m ∧
      exec i s = .next t) ∧
    (∃ mac ts, filledMap.liveAt (filled 9).now (filled 9).arpTimeout (((filled 9).reg 4).setWidth 32) = some (mac, ts)) ∧
    filledMap.liveAt (filled 8).now (filled 8).arpTimeout (((filled 8).reg 4).setWidth 32) = none := by
  refine ⟨fun p hp => ⟨_, filledMap, filled_inv _, filled_agrees _, ends _ _, code_ne_3 ?_⟩, fun p hp => ?_,
    fun ops h => ⟨after (step (filledAsked 7 ops)), filledMap, inv_congr (filled_inv 7) rfl rfl rfl rfl rfl rfl rfl,
      filled_agrees 7, ?_, ?_, step_code_ne_3 _ rfl ?_⟩,
    fun i _ => ⟨filled 9, filledMap, _, filled_inv _, filled_agrees _, ends _ _⟩, ⟨0xAA, 1000, rfl⟩, rfl⟩
  · revert p; decide
  · simp only [List.mem_cons, List.not_mem_nil, or_false] at hp
    rcases hp with rfl | rfl <;>
      exact ⟨_, _, given_inv _ _ _ (by decide), empty_agrees _ rfl rfl, ends _ _, by decide, code_ne_3 (by decide)⟩
  · simp only [List.mem_cons, List.not_mem_nil, or_false] at h
    rcases h with rfl | rfl | rfl | rfl | rfl | rfl | rfl | rfl <;> rfl
  · revert ops; decide
  · revert ops; decide

/-! ### IPv4 -/

theorem witness_Ip4ParseDecodesTheHeader :
    ∃ s, InputInRange s ∧ 20 ≤ (s.reg 2).toNat ∧ 5 ≤ ((inputBytes s).getD 0 0).toNat % 16 ∧
      ((inputBytes s).getD 0 0).toNat % 16 * 4 ≤ (s.reg 2).toNat :=
  ⟨given (0x46 :: zeros 23) 0 [], inR (by decide), by decide, by decide, by decide⟩

theorem witness_Ip4BuildWritesTheDatagram :
    ∃ s, InputInRange s ∧ 20 + (s.reg 2).toNat ≤ 0xFFFF ∧ OutputInRange s (20 + (s.reg 2).toNat) :=
  ⟨regs [(2, 65515), (3, 1)], inR (by decide), by decide, outR (by decide)⟩

theorem witness_Ip4EmitWritesTheFieldsGiven : ∃ s, InputInRange s ∧ OutputInRange s (20 + (s.reg 2).toNat) :=
  ⟨regs [(3, 65516)], inR (by decide), outR (by decide)⟩

theorem witness_Ip4RoundTrip :
    (∃ s t u v : State, s.params.legal = true ∧ exec .ip4Build s = .next t ∧ t.status.fail = false ∧
      exec .ip4Parse ((t.setReg 1 (s.reg 3)).setReg 2 (t.reg 0)) = .next u ∧
      exec .ckVerify ((t.setReg 1 (s.reg 3)).setReg 2 20) = .next v) ∧
    (∃ s t u : State, s.params.legal = true ∧ exec .ip4Parse s = .next t ∧ t.status.fail = false ∧ t.reg 17 = 5 ∧
      exec .ip4Emit { t with x := writeRegs t.x [(1, t.reg 28), (2, t.reg 29), (3, s.reg 1), (4, t.reg 16), (5, t.reg 17),
        (6, t.reg 18), (7, t.reg 19), (8, t.reg 20), (9, t.reg 21), (10, t.reg 22), (11, t.reg 23), (12, t.reg 24),
        (13, t.reg 25), (14, t.reg 26), (15, t.reg 27)] } = .next u) ∧
    ∃ b : List Byte, 20 ≤ b.length ∧ (byteOf b 0).toNat % 16 = 5 :=
  ⟨⟨given echoRequest 64 [(4, 1), (5, 2)], _, _, _, by decide, ends _ _, by decide, ends _ _, ends _ _⟩,
    ⟨given (0x45 :: zeros 20) 0 [], _, _, by decide, ends _ _, by decide, by decide, ends _ _⟩,
    0x45 :: zeros 19, by decide, by decide⟩

/-! ### ICMP and UDP -/

theorem witness_IcmpParseDecodesTheMessage : ∃ s, InputInRange s ∧ 8 ≤ (s.reg 2).toNat :=
  ⟨given (zeros 8) 0 [], inR (by decide), by decide⟩

theorem witness_IcmpEmitWritesTheMessage : ∃ s, InputInRange s ∧ OutputInRange s (8 + (s.reg 2).toNat) :=
  ⟨regs [(3, 65528)], inR (by decide), outR (by decide)⟩

theorem witness_IcmpBuildReplyEchoesTheRequest :
    ∃ s, InputInRange s ∧ 8 ≤ (s.reg 2).toNat ∧ OutputInRange s (s.reg 2).toNat :=
  ⟨given echoRequest 65525 [], inR (by decide), by decide, outR (by decide)⟩

theorem witness_IcmpOutputVerifies :
    ∀ i, i = .icmpEmit ∨ i = .icmpBuildReply → ∃ s t u : State, s.params.legal = true ∧ exec i s = .next t ∧
      t.status.fail = false ∧ exec .ckVerify ((t.setReg 1 (s.reg 3)).setReg 2 (t.reg 0)) = .next u := by
  rintro i (rfl | rfl) <;>
    exact ⟨given echoRequest 64 [], _, _, by decide, ends _ _, by decide, ends _ _⟩

theorem witness_UdpParseDecodesTheDatagram : ∃ s, InputInRange s ∧ 8 ≤ (s.reg 2).toNat :=
  ⟨given (zeros 8) 0 [], inR (by decide), by decide⟩

theorem witness_UdpBuildersWriteTheDatagram :
    (∃ s, InputInRange s ∧ 8 + (s.reg 2).toNat ≤ 0xFFFF ∧ OutputInRange s (8 + (s.reg 2).toNat)) ∧
      ∃ s, InputInRange s ∧ 8 ≤ (s.reg 2).toNat ∧ (s.reg 2).toNat ≤ 0xFFFF ∧ OutputInRange s (s.reg 2).toNat :=
  ⟨⟨regs [(2, 65527), (3, 1)], inR (by decide), by decide, outR (by decide)⟩,
    regs [(2, 65535), (3, 1)], inR (by decide), by decide, by decide, outR (by decide)⟩

theorem witness_UdpRoundTrip :
    ∃ s t u : State, s.params.legal = true ∧ exec .udpBuild s = .next t ∧ t.status.fail = false ∧
      exec .udpParse ((t.setReg 1 (s.reg 3)).setReg 2 (t.reg 0)) = .next u :=
  ⟨given [0x68, 0x69] 64 [(6, 1234), (7, 5678)], _, _, by decide, ends _ _, by decide, ends _ _⟩

/-! ### The frame pipeline -/

theorem witness_FrameOfOtherTypeIsDropped :
    ∀ et ∈ ([[0x86, 0xDD], [0x12, 0x34]] : List (List Byte)), ∃ s, InputInRange s ∧ 14 ≤ (s.reg 2).toNat ∧
      be16 (inputBytes s) 12 ≠ 0x0806 ∧ be16 (inputBytes s) 12 ≠ 0x0800 := by
  intro et h
  refine ⟨given (zeros 12 ++ et) 0 [], inR ?_, ?_, ?_, ?_⟩ <;> revert et <;> decide

/-- `boot`, with an input for the frames of section 2.8, an address of its own and an output address. -/
def framed (frame : List Byte) (ip : BitVec 32) (out : Word) : State := { given frame out [] with ourIp := ip }

/-- The state meets the hypotheses that all clauses about an ARP frame share. -/
def ArpFramed (s : State) : Prop := InputInRange s ∧ 14 ≤ (s.reg 2).toNat ∧ be16 (inputBytes s) 12 = 0x0806

/-- The ARP packet of the frame is a Request for OUR_IP. -/
def Asks (s : State) : Prop :=
  be16 ((inputBytes s).drop 14) 6 = 1 ∧ be32 ((inputBytes s).drop 14) 24 = s.ourIp

theorem witness_ArpFrameIsLearnedAndAnswered :
    (∃ s, ArpFramed s ∧ s.params.legal = true ∧ ((inputBytes s).drop 14).length < 28) ∧
    (∃ s, ArpFramed s ∧ 28 ≤ ((inputBytes s).drop 14).length ∧ Asks s ∧ ¬ OutputInRange s 42) ∧
    (∃ s, ArpFramed s ∧ 28 ≤ ((inputBytes s).drop 14).length ∧ Asks s ∧ OutputInRange s 42) ∧
    ∃ s, ArpFramed s ∧ 28 ≤ ((inputBytes s).drop 14).length ∧ ¬ Asks s := by
  refine ⟨⟨framed (frameF1.take 41) 0 0, ⟨inR ?_, ?_, ?_⟩, ?_, ?_⟩,
    ⟨framed frameF1 0xC0A80101 65495, ⟨inR ?_, ?_, ?_⟩, ?_, ⟨?_, ?_⟩, not_outR ?_⟩,
    ⟨framed frameF1 0xC0A80101 65494, ⟨inR ?_, ?_, ?_⟩, ?_, ⟨?_, ?_⟩, outR ?_⟩,
    ⟨framed frameF1 0xC0A80163 70000, ⟨inR ?_, ?_, ?_⟩, ?_, ?_⟩⟩
  all_goals first | decide | (unfold Asks; decide)

/-- The state meets the hypotheses that all clauses about an IPv4 frame share. -/
def Ip4Framed (s : State) : Prop :=
  s.params.legal = true ∧ InputInRange s ∧ 14 ≤ (s.reg 2).toNat ∧ be16 (inputBytes s) 12 = 0x0800 ∧
    20 ≤ ((inputBytes s).drop 14).length ∧
    20 ≤ (((inputBytes s).drop 14).getD 0 0).toNat % 16 * 4 ∧
    (((inputBytes s).drop 14).getD 0 0).toNat % 16 * 4 ≤ ((inputBytes s).drop 14).length

/-- The protocol of the frame's datagram. -/
def protocolOf (s : State) : Byte := ((inputBytes s).drop 14).getD 9 0

/-- The payload of the frame's datagram. -/
def datagramPayload (s : State) : List Byte :=
  ((inputBytes s).drop 14).drop ((((inputBytes s).drop 14).getD 0 0).toNat % 16 * 4)

/-- 131072 bytes of PBUF and an echo request frame of 65550 bytes, the shortest whose reply is too long. -/
def longEcho : State :=
  { given (frameF7.take 42) 0 [(2, 65550)] with params := { small with pbufSize := 131072 } }

theorem bytesAt_getD (s : State) (a n k : Nat) (h : k < n) : (s.bytesAt a n).getD k 0 = s.byteAt (a + k) := by
  have hl : k < (s.bytesAt a n).length := by rw [bytesAt_length]; exact h
  rw [List.getD_eq_getElem?_getD, List.getElem?_eq_getElem hl, Option.getD_some, bytesAt_getElem]

theorem longEcho_byte (k : Nat) (h : k < 65550) : (inputBytes longEcho).getD k 0 = longEcho.byteAt k := by
  have ha : (longEcho.reg 1).toNat = 0 := by decide
  have hn : (longEcho.reg 2).toNat = 65550 := by decide
  rw [inputBytes, ha, hn, bytesAt_getD _ _ _ _ h, Nat.zero_add]

theorem longEcho_framed : Ip4Framed longEcho ∧ protocolOf longEcho = 1 ∧ 8 ≤ (datagramPayload longEcho).length ∧
    (datagramPayload longEcho).getD 0 0 = 8 ∧ 0xFFFF < 20 + (datagramPayload longEcho).length := by
  have hlen : (inputBytes longEcho).length = 65550 := inputBytes_length _
  have hb (n k : Nat) (h : n + k < 65550) : ((inputBytes longEcho).drop n).getD k 0 = longEcho.byteAt (n + k) := by
    rw [← longEcho_byte _ h]; exact byteOf_drop _ _ _
  have h0 : (((inputBytes longEcho).drop 14).getD 0 0).toNat % 16 = 5 := by rw [hb 14 0 (by decide)]; decide
  have hd : datagramPayload longEcho = (inputBytes longEcho).drop 34 := by
    unfold datagramPayload; rw [h0, List.drop_drop]
  refine ⟨⟨by decide, inR (by decide), by decide, ?_, ?_, ?_, ?_⟩, ?_, ?_, ?_, ?_⟩
  · show (inputBytes longEcho).getD 12 0 ++ (inputBytes longEcho).getD 13 0 = 0x0800#16
    rw [longEcho_byte 12 (by decide), longEcho_byte 13 (by decide)]; decide
  · simp only [List.length_drop, hlen]; decide
  · rw [h0]
  · simp only [h0, List.length_drop, hlen]; decide
  · unfold protocolOf; rw [hb 14 9 (by decide)]; decide
  · rw [hd, List.length_drop, hlen]; decide
  · rw [hd, hb 34 0 (by decide)]; decide
  · rw [hd, List.length_drop, hlen]; decide

/-- A frame with 20 header bytes, the protocol and the payload given. -/
def ip4With (protocol : Byte) (payload : List Byte) : List Byte :=
  ip4Frame (0x45 :: zeros 8 ++ [protocol] ++ zeros 10 ++ payload)

theorem witness_Ip4FrameIsDispatched :
    (∃ s, Ip4Framed s ∧ protocolOf s = 1 ∧ 8 ≤ (datagramPayload s).length ∧ (datagramPayload s).getD 0 0 = 8 ∧
      20 + (datagramPayload s).length ≤ 0xFFFF ∧ OutputInRange s (34 + (datagramPayload s).length)) ∧
    (∃ s, Ip4Framed s ∧ protocolOf s = 1 ∧ 8 ≤ (datagramPayload s).length ∧ (datagramPayload s).getD 0 0 = 8 ∧
      0xFFFF < 20 + (datagramPayload s).length) ∧
    (∃ s, Ip4Framed s ∧ protocolOf s = 1 ∧ 8 ≤ (datagramPayload s).length ∧ (datagramPayload s).getD 0 0 = 8 ∧
      20 + (datagramPayload s).length ≤ 0xFFFF ∧ ¬ OutputInRange s (34 + (datagramPayload s).length)) ∧
    (∃ s, Ip4Framed s ∧ protocolOf s = 1 ∧ 8 ≤ (datagramPayload s).length ∧ (datagramPayload s).getD 0 0 ≠ 8) ∧
    (∃ s, Ip4Framed s ∧ protocolOf s = 1 ∧ (datagramPayload s).length < 8) ∧
    (∃ s, Ip4Framed s ∧ protocolOf s = 17 ∧ 8 ≤ (datagramPayload s).length) ∧
    (∃ s, Ip4Framed s ∧ protocolOf s = 17 ∧ (datagramPayload s).length < 8) ∧
    ∃ s, Ip4Framed s ∧ protocolOf s ≠ 1 ∧ protocolOf s ≠ 17 := by
  refine ⟨⟨framed frameF7 0 65491, ⟨?_, inR ?_, ?_, ?_, ?_, ?_, ?_⟩, ?_, ?_, ?_, ?_, outR ?_⟩, ⟨longEcho, longEcho_framed⟩,
    ⟨framed frameF7 0 65492, ⟨?_, inR ?_, ?_, ?_, ?_, ?_, ?_⟩, ?_, ?_, ?_, ?_, not_outR ?_⟩,
    ⟨framed (ip4With 1 (zeros 8)) 0 0, ⟨?_, inR ?_, ?_, ?_, ?_, ?_, ?_⟩, ?_, ?_, ?_⟩,
    ⟨framed (ip4With 1 (zeros 7)) 0 0, ⟨?_, inR ?_, ?_, ?_, ?_, ?_, ?_⟩, ?_, ?_⟩,
    ⟨framed frameF12 0 0, ⟨?_, inR ?_, ?_, ?_, ?_, ?_, ?_⟩, ?_, ?_⟩,
    ⟨framed (ip4With 17 (zeros 7)) 0 0, ⟨?_, inR ?_, ?_, ?_, ?_, ?_, ?_⟩, ?_, ?_⟩,
    ⟨framed (ip4With 6 []) 0 0, ⟨?_, inR ?_, ?_, ?_, ?_, ?_, ?_⟩, ?_, ?_⟩⟩ <;> decide

theorem witness_FramePipelineLaws :
    (∃ s t : State, exec .processFrame s = .next t ∧ t.status.fail = false ∧ t.reg 0 ≠ 3 ∧ t.reg 0 ≠ 4 ∧ t.reg 0 ≠ 2) ∧
    (∃ s t : State, exec .processFrame s = .next t ∧ t.status.fail = false ∧ (t.reg 0 = 2 ∨ t.reg 0 = 3)) ∧
    ∃ s s' t t' : State, exec .processFrame s = .next t ∧ t.status.fail = false ∧ exec .processFrame s' = .next t' ∧
      t'.status.fail = false ∧ inputBytes s = inputBytes s' ∧ s.ourIp = s'.ourIp ∧ s ≠ s' :=
  ⟨⟨framed frameF12 0 0, _, ends _ _, by decide, by decide, by decide, by decide⟩,
    ⟨framed frameF1 0xC0A80101 256, _, ends _ _, by decide, by decide⟩,
    framed frameF12 0 0, framed frameF12 0 1, _, _, ends _ _, by decide, ends _ _, by decide, by decide, by decide, by decide⟩

end Sys2Proof.Tests
end

section
/-! SUPPORT. Proofs about the checksum accumulator's two operand-free commands, CK_CLEAR and CK_FINAL (40_checksum.md R176,
R178). -/

namespace Sys2Proof.Machine

/-! ### Register values -/

theorem zext64_eq_ofNat {w : Nat} (v : BitVec w) : zext64 v = BitVec.ofNat 64 v.toNat := (BitVec.ofNat_toNat 64 v).symm

theorem complement16_toNat (v : BitVec 16) : (0xFFFF#16 - v).toNat = 0xFFFF - v.toNat := by bv_omega

/-! ### What `fin` reads of an accumulator (R174) -/

theorem add1c_toNat_carry (a w : BitVec 16) :
    (add1c a w).toNat = if a.toNat + w.toNat > 0xFFFF then a.toNat + w.toNat - 0xFFFF else a.toNat + w.toNat := by
  have ha := a.isLt
  have hw := w.isLt
  rw [add1c, BitVec.toNat_ofNat, Nat.mod_eq_of_lt]
  split <;> omega

theorem paddedByte_toNat (c : Byte) : (c ++ 0#8 : BitVec 16).toNat = c.toNat * 256 :=
  (toNat_append c 0#8).trans (by simp)

theorem fin_of_no_pending {k : Accumulator} (h : k.pv = false) : k.fin = k.acc := by simp [Accumulator.fin, h]

theorem fin_of_pending {k : Accumulator} (h : k.pv = true) : k.fin = add1c k.acc (k.pb ++ 0#8) := by
  simp [Accumulator.fin, h]

/-- A pending byte counts as the high byte of a zero-padded word, added with end-around carry. -/
theorem fin_toNat_of_pending {k : Accumulator} (h : k.pv = true) :
    k.fin.toNat = if k.acc.toNat + k.pb.toNat * 256 > 0xFFFF then k.acc.toNat + k.pb.toNat * 256 - 0xFFFF
      else k.acc.toNat + k.pb.toNat * 256 := by
  rw [fin_of_pending h, add1c_toNat_carry, paddedByte_toNat]

/-! ### The commands -/

theorem exec_ckClear (s : State) : exec .ckClear s = .next (s.complete { ck := some Accumulator.clear }) := rfl

theorem exec_ckFinal (s : State) : exec .ckFinal s =
    .next (s.complete { regs := [(0, zext64 (0xFFFF#16 - s.ck.fin)), (16, zext64 s.ck.fin)] }) := rfl

/-- CK_CLEAR (R176): the accumulator is cleared, and nothing else changes. -/
theorem ckClear_clears (s : State) : ∃ t, exec .ckClear s = .next t ∧ Completed s t ∧ Keeps s t [] ∧ t.cache = s.cache ∧
    SamePbuf s t ∧ t.ck = Accumulator.clear :=
  ⟨_, exec_ckClear s, completed_complete _ _, keeps_complete _ _ _ (by simp), rfl, byteAt_complete_none _ _ rfl, rfl⟩

/-- CK_FINAL (R178): X16 is the sum that `fin` reads, X0 its complement, and nothing else changes. -/
theorem ckFinal_reads (s : State) : ∃ t, exec .ckFinal s = .next t ∧ WritesOnly s t [0, 16] ∧
    t.reg 16 = BitVec.ofNat 64 s.ck.fin.toNat ∧ t.reg 0 = BitVec.ofNat 64 (0xFFFF - s.ck.fin.toNat) := by
  refine ⟨_, exec_ckFinal s, writesOnly_complete _ _ _ rfl, ?sum, ?checksum⟩
  case sum =>
    rw [← zext64_eq_ofNat]
    simp [reg_complete_lookup]
  case checksum =>
    rw [← complement16_toNat, ← zext64_eq_ofNat]
    simp [reg_complete_lookup]

/-- Settles O27: CK_CLEAR's effects are the cleared accumulator alone, CK_FINAL's are the two registers alone, and `fin` is
the sum of R174. -/
theorem ckClearAndCkFinalResults : Obligations.CkClearAndCkFinalResults := by
  unfold Obligations.CkClearAndCkFinalResults
  refine ⟨by decide, by decide, fun s => ⟨ckClear_clears s, ?final⟩⟩
  obtain ⟨t, hexec, hframe, hsum, hchecksum⟩ := ckFinal_reads s
  exact ⟨t, s.ck.fin.toNat, hexec, hframe, hsum, hchecksum, Nat.le_of_lt_succ s.ck.fin.isLt,
    fun h => by rw [fin_of_no_pending h], fin_toNat_of_pending⟩

end Sys2Proof.Machine
end

section
/-! SUPPORT. Proofs about the Ethernet commands ETH_PARSE, ETH_CLASSIFY and ETH_BUILD (41_ethernet.md R201–R203). -/

namespace Sys2Proof.Machine

/-! ### The classes and the report of a short frame -/

/-- R121: the class codes by the EtherType's value. -/
theorem etherClass_code (t : BitVec 16) : (etherClass t).code =
    if t = 0x0806 then 1 else if t = 0x0800 then 2 else if t = 0x86DD then 3 else 0 := by
  simp only [etherClass, apply_ite EtherClass.code]
  rfl

/-- A 16-bit operand is its register's value modulo 2^16 (10_state.md R34). -/
theorem half_eq_iff (s : State) (r : Reg) (v : BitVec 16) : s.half r = v ↔ (s.reg r).toNat % 2 ^ 16 = v.toNat := by
  simp [State.half, State.field, ← BitVec.toNat_inj]

/-- R382: the needed and the available length do not overlap in ERRINFO when the latter fits in 32 bits. -/
theorem invalidPacket_info (l : Layer) (sub : BitVec 8) {avail : Nat} (need : Nat) (h : avail < 2 ^ 32) :
    (CmdError.invalidPacket l sub avail need).info = BitVec.ofNat 64 (need * 2 ^ 32 + avail) := by
  rw [CmdError.info, word64, ← Nat.shiftLeft_add_eq_or_of_lt h, Nat.shiftLeft_eq]

/-! ### ETH_PARSE -/

/-- The results of ETH_PARSE (R201): the fields, the class and the payload descriptor. -/
def ethParseResults (s : State) : List (Reg × Word) :=
  let b := inputBytes s
  [(16, zext64 (be48 b 0)), (17, zext64 (be48 b 6)), (18, zext64 (be16 b 12)),
    (19, (etherClass (be16 b 12)).code), (28, s.reg 1 + 14#64), (29, s.reg 2 - 14#64)]

theorem exec_ethParse_of_not_inputInRange {s : State} (h : ¬ InputInRange s) :
    exec .ethParse s = .next (s.raise (.bufferRange 0 (s.reg 1))) := by
  simp [exec, execEthParse, input_error h]

theorem exec_ethParse_of_short {s : State} (hin : InputInRange s) (hlen : (s.reg 2).toNat < 14) :
    exec .ethParse s = .next (s.raise (.invalidPacket .ethernet 0 (s.reg 2).toNat 14)) := by
  have hshort : (inputBytes s).length < 14 := by rwa [inputBytes_length]
  simp [exec, execEthParse, input_ok hin, requireLen_error hshort, inputBytes_length]

theorem exec_ethParse_of_complete {s : State} (hin : InputInRange s) (hlen : 14 ≤ (s.reg 2).toNat) :
    exec .ethParse s = .next (s.complete { regs := ethParseResults s }) := by
  have hlong : 14 ≤ (inputBytes s).length := by rwa [inputBytes_length]
  simp [exec, execEthParse, input_ok hin, requireLen_ok hlong, ethParseResults]

/-- Settles O31: out of range, too short, or the results of R201, each by ETH_PARSE's equation for the case. -/
theorem ethParseDecodesTheFrame : Obligations.EthParseDecodesTheFrame := by
  unfold Obligations.EthParseDecodesTheFrame
  refine ⟨by decide, fun s => ⟨exec_ethParse_of_not_inputInRange, fun hin hlen => ?short, fun hin hlen => ?parsed⟩⟩
  case short =>
    rw [exec_ethParse_of_short hin hlen, raise_eq_report, invalidPacket_info _ _ _ (by omega)]
    rfl
  case parsed =>
    refine ⟨_, exec_ethParse_of_complete hin hlen, writesOnly_complete _ _ _ rfl, ?_⟩
    simp [reg_complete_lookup, ethParseResults, etherClass_code, zext64]

/-! ### ETH_CLASSIFY -/

theorem exec_ethClassify (s : State) :
    exec .ethClassify s = .next (s.complete { regs := [(0, (etherClass (s.half 4)).code)] }) := rfl

/-- Settles O32: the class codes of `etherClass`, read by the value of bits 15:0. -/
theorem ethClassifyDispatches : Obligations.EthClassifyDispatches := by
  unfold Obligations.EthClassifyDispatches
  refine ⟨by decide, fun s => ⟨_, exec_ethClassify s, writesOnly_complete _ _ _ rfl, ?_⟩⟩
  simp [reg_complete_lookup, etherClass_code, half_eq_iff]

/-! ### ETH_BUILD -/

/-- The bytes ETH_BUILD writes (R203): the header of X4 to X6 and the input. -/
def ethBuildFrame (s : State) : List Byte :=
  etherFrame (s.macField 4) (s.macField 5) (s.half 6) (inputBytes s)

theorem ethBuildFrame_length (s : State) : (ethBuildFrame s).length = 14 + (s.reg 2).toNat := by
  rw [ethBuildFrame, etherFrame_length, inputBytes_length]

theorem exec_ethBuild_of_not_inputInRange {s : State} (h : ¬ InputInRange s) :
    exec .ethBuild s = .next (s.raise (.bufferRange 0 (s.reg 1))) := by
  simp [exec, execEthBuild, input_error h]

/-- With the input in range, ETH_BUILD ends by emitting its frame. -/
theorem exec_ethBuild_eq_emit {s : State} (hin : InputInRange s) :
    exec .ethBuild s = finish s (s.emit (ethBuildFrame s)) := by
  simp [exec, execEthBuild, input_ok hin, ethBuildFrame]

/-- Settles O33: the input is read before the frame is emitted, so the frame holds the payload of the state before the
command, and `emit_error` and `emit_ok` decide by its length 14 + X2. -/
theorem ethBuildWritesTheFrame : Obligations.EthBuildWritesTheFrame := by
  unfold Obligations.EthBuildWritesTheFrame
  refine ⟨by decide, fun s => ⟨exec_ethBuild_of_not_inputInRange, ?_⟩⟩
  rw [← ethBuildFrame_length]
  refine ⟨fun hin hout => ?overflow, fun hin hout => ?built⟩
  case overflow =>
    rw [exec_ethBuild_eq_emit hin, emit_error hout]
    rfl
  case built =>
    rw [exec_ethBuild_eq_emit hin, emit_ok hout]
    exact ⟨_, rfl, builds_complete⟩

end Sys2Proof.Machine
end

section
/-! SUPPORT. Proofs about the command word (30_encoding.md R110–R113) and about which interaction a step performs
(20_memory.md R81; 70_reset_and_hazards.md R425, R426). -/

namespace Sys2Proof.Machine

/-! ### Decoding -/

theorem decode_encode (i : Instr) : decode (encode i) = .ok i :=
  (decode_ok_iff _ _).2 ⟨extract_hi _ _, extract_lo _ _⟩

theorem eq_encode_of_decode {w : BitVec 32} {i : Instr} (h : decode w = .ok i) : w = encode i := by
  obtain ⟨hrsv, hopc⟩ := (decode_ok_iff w i).1 h
  rw [word_eq_append w, hrsv, hopc]
  rfl

/-- Settles O1: a command word is its reserved zeros above its OPC, and the opcode map is inverse to `opcOf`. -/
theorem decodeAndEncodeAgree : Obligations.DecodeAndEncodeAgree := by
  unfold Obligations.DecodeAndEncodeAgree
  exact ⟨decode_encode, fun _ _ => eq_encode_of_decode⟩

/-- A word whose reserved bits are 0 and whose OPC is assigned is a command. -/
theorem exists_decode_of_assigned {w : BitVec 32} (hrsv : w.extractLsb' 8 24 = 0#24)
    (hopc : opcReserved (w.extractLsb' 0 8) = false) : ∃ i, decode w = .ok i := by
  cases hi : instrOfOpc (w.extractLsb' 0 8) with
  | none => simp [(instrOfOpc_none_iff _).1 hi] at hopc
  | some i => exact ⟨i, (decode_ok_iff w i).2 ⟨hrsv, opcOf_of_instrOfOpc hi⟩⟩

/-- The three answers of `decode`, by the reserved bits first and the OPC next (R111). -/
theorem decode_cases (w : BitVec 32) :
    (w.extractLsb' 8 24 ≠ 0#24 ∧ decode w = .error .reservedBits) ∨
    (w.extractLsb' 8 24 = 0#24 ∧ opcReserved (w.extractLsb' 0 8) = true ∧ decode w = .error .unknownOpc) ∨
    (w.extractLsb' 8 24 = 0#24 ∧ opcReserved (w.extractLsb' 0 8) = false ∧ ∃ i, decode w = .ok i) := by
  by_cases hrsv : w.extractLsb' 8 24 = 0#24
  · cases hopc : opcReserved (w.extractLsb' 0 8) with
    | true => exact .inr (.inl ⟨hrsv, rfl, decode_unknown hrsv hopc⟩)
    | false => exact .inr (.inr ⟨hrsv, rfl, exists_decode_of_assigned hrsv hopc⟩)
  · exact .inl ⟨hrsv, decode_reserved hrsv⟩

/-- Settles O2: the three answers exclude each other. -/
theorem reservedWordsAreIllegal : Obligations.ReservedWordsAreIllegal := by
  unfold Obligations.ReservedWordsAreIllegal
  intro w
  rcases decode_cases w with ⟨hrsv, hd⟩ | ⟨hrsv, hopc, hd⟩ | ⟨hrsv, hopc, i, hd⟩
  · simp [hd, hrsv, wordWellFormed]
  · simp [hd, hrsv, hopc, wordWellFormed]
  · simp [hd, hrsv, hopc]

/-- Settles O3: each word is the encoding of its command. -/
theorem writtenOutWordsDecode : Obligations.WrittenOutWordsDecode := by
  unfold Obligations.WrittenOutWordsDecode
  exact ⟨decode_encode .ckAccum, decode_encode .ethClassify, decode_encode .arpHandle, decode_encode .arpcSweep,
    decode_encode .ip4Emit, decode_encode .icmpBuildReply, decode_encode .udpBuild, decode_encode .processFrame⟩

/-! ### A CMD write -/

theorem command_of_decode_ok {v : Word} {i : Instr} (s : State) (h : decode (v.setWidth 32) = .ok i) :
    command v s = exec i (s.beginCommand v) := by
  simp [command, h]

theorem command_of_reservedBits {v : Word} (s : State) (h : decode (v.setWidth 32) = .error .reservedBits) :
    command v s = .next ((s.beginCommand v).raise (.illegalCommand 1 (v.setWidth 32))) := by
  simp [command, h, illegalCommand]

theorem command_of_unknownOpc {v : Word} (s : State) (h : decode (v.setWidth 32) = .error .unknownOpc) :
    command v s = .next ((s.beginCommand v).raise (.illegalCommand 0 (v.setWidth 32))) := by
  simp [command, h, illegalCommand]

/-- A CMD write runs the command of its word or reports IllegalCommand (R111). -/
theorem command_cases (v : Word) (s : State) :
    (∃ i, decode (v.setWidth 32) = .ok i ∧ command v s = exec i (s.beginCommand v)) ∨
    ((∀ i, decode (v.setWidth 32) ≠ .ok i) ∧
      ∃ sub, command v s = .next ((s.beginCommand v).raise (.illegalCommand sub (v.setWidth 32)))) := by
  rcases decode_cases (v.setWidth 32) with ⟨-, hd⟩ | ⟨-, -, hd⟩ | ⟨-, -, i, hd⟩
  · exact .inr ⟨by simp [hd], 1, command_of_reservedBits s hd⟩
  · exact .inr ⟨by simp [hd], 0, command_of_unknownOpc s hd⟩
  · exact .inl ⟨i, hd, command_of_decode_ok s hd⟩

/-- Taking the CMD write and beginning its command, field by field (10_state.md R35, R36). -/
theorem taken_beginCommand {s : State} {v : Word} {rest : List HostOp} (h : s.pending = .csrWrite 0x020 v :: rest) :
    s.taken.beginCommand v =
      { s with pending := rest, cmd := v.setWidth 32, status := { s.status with busy := true } } := by
  simp [State.taken, State.beginCommand, statusAtStart, h]

/-- Settles O4: the step is `command`, which executes what its word decodes to. -/
theorem stepRunsTheDecodedCommand : Obligations.StepRunsTheDecodedCommand := by
  unfold Obligations.StepRunsTheDecodedCommand
  intro s v rest i hp hd
  rw [step_cmd hp, command_of_decode_ok _ hd, taken_beginCommand hp]

theorem opcReserved_of_no_opc {b : Byte} (h : ∀ i, opcOf i ≠ b) : opcReserved b = true := by
  rw [← instrOfOpc_none_iff]
  cases hi : instrOfOpc b with
  | none => rfl
  | some i => exact absurd (opcOf_of_instrOfOpc hi).symm (h i)

/-- Settles O5: the step is `command`, by the answer `decode` gives in each of R111's cases. -/
theorem cmdWriteDecodesAsRuled : Obligations.CmdWriteDecodesAsRuled := by
  unfold Obligations.CmdWriteDecodesAsRuled
  intro s v rest c hp hc
  subst hc
  simp only [step_cmd hp, ← taken_beginCommand hp]
  refine ⟨fun hrsv => ?reserved, fun hrsv hopc => ?unknown, fun i hrsv hopc => ?decoded⟩
  case reserved =>
    rw [command_of_reservedBits _ (decode_reserved hrsv)]
    rfl
  case unknown =>
    rw [command_of_unknownOpc _ (decode_unknown hrsv (opcReserved_of_no_opc hopc))]
    rfl
  case decoded => exact command_of_decode_ok _ ((decode_ok_iff _ _).2 ⟨hrsv, hopc.symm⟩)

/-! ### What a step can do -/

/-- Every step is idle, a CMD write with its command, or another interaction (R425). -/
theorem step_shape (s : State) :
    (s.pending = [] ∧ step s = .next s) ∨
    (∃ v rest, s.pending = .csrWrite 0x020 v :: rest ∧ step s = command v s.taken) ∨
    ∃ op rest, s.pending = op :: rest ∧ (∀ v, op ≠ .csrWrite 0x020 v) ∧ step s = hostAccess op s.taken := by
  cases hp : s.pending with
  | nil => exact .inl ⟨rfl, step_idle hp⟩
  | cons op rest =>
    by_cases hcmd : ∃ v, op = .csrWrite 0x020 v
    · obtain ⟨v, rfl⟩ := hcmd
      exact .inr (.inl ⟨v, rest, rfl, step_cmd hp⟩)
    · have hother : ∀ v, op ≠ .csrWrite 0x020 v := fun v hv => hcmd ⟨v, hv⟩
      exact .inr (.inr ⟨op, rest, rfl, hother, step_access hp hother⟩)

theorem command_eq_next (v : Word) (s : State) : ∃ t, command v s = .next t := by
  rcases command_cases v s with ⟨i, -, h⟩ | ⟨-, sub, h⟩
  · rcases exec_cases i (s.beginCommand v) with ⟨e, he⟩ | ⟨e, he⟩
    · exact ⟨_, h.trans he⟩
    · exact ⟨_, h.trans he⟩
  · exact ⟨_, h⟩

/-- R426: the only interactions without a move are PBUF accesses out of range. -/
theorem hostAccess_refused_iff (op : HostOp) (s : State) (r : Refusal) :
    hostAccess op s = .refused r ↔
      r = .hostPbufOutOfRange ∧ ∃ a, s.params.pbufSize ≤ a ∧ (op = .pbufRead a ∨ ∃ b, op = .pbufWrite a b) := by
  cases op with
  | csrWrite n v => simp [hostAccess]
  | csrRead n => simp [hostAccess]
  | pbufWrite a b => by_cases h : a < s.params.pbufSize <;> simp [hostAccess, h, Nat.le_of_not_lt, eq_comm]
  | pbufRead a => by_cases h : a < s.params.pbufSize <;> simp [hostAccess, h, Nat.le_of_not_lt, eq_comm]
  | tick => simp [hostAccess]
  | reset => simp [hostAccess]

/-- Settles O6: neither idling nor a CMD write is refused, so the refusals are those of `hostAccess`. -/
theorem onlyHostPbufOutOfRangeIsRefused : Obligations.OnlyHostPbufOutOfRangeIsRefused := by
  unfold Obligations.OnlyHostPbufOutOfRangeIsRefused
  intro s r
  rcases step_shape s with ⟨hp, h⟩ | ⟨v, rest, hp, h⟩ | ⟨op, rest, hp, -, h⟩
  · simp [h, hp]
  · obtain ⟨t, ht⟩ := command_eq_next v s.taken
    simp [h, ht, hp]
  · simp [h, hp, hostAccess_refused_iff, exists_or]

end Sys2Proof.Machine
end

section
/-! SUPPORT. Proofs about the machine's invariant, at reset and along every step (43_arp_cache.md R252; 20_memory.md R80;
10_state.md section 2; 60_exceptions.md R384). -/

namespace Sys2Proof.Machine

/-! ### At reset -/

theorem inv_resetWith {p : Params} (h : p.legal = true) : MachineInv (State.resetWith p) where
  legal := h
  canonical := (reset_memory_wf p).1
  within := (reset_memory_wf p).2
  cache := reset_cacheInv p
  idle := rfl
  lastOpc := rfl
  failReported := by simp [State.resetWith]
  noError _ := ⟨rfl, rfl, rfl⟩
  codes := by simp [State.resetWith]
  notDone _ := ⟨rfl, rfl⟩

/-- The boot writes of a clean entry touch nothing the invariant looks at (70 R423, R424). -/
theorem inv_of_tpeClean {s : State} (h : TpeClean s) : MachineInv s := by
  obtain ⟨hlegal, hs⟩ := h
  exact inv_congr (inv_resetWith hlegal) rfl (congrArg State.pbuf hs :) (congrArg State.cache hs :)
    (congrArg State.status hs :) (congrArg State.cmd hs :) (congrArg State.err hs :) (congrArg State.errInfo hs :)

/-- Settles O7: every field of the reset state meets its clause. -/
theorem resetMeetsTheInvariant : Obligations.ResetMeetsTheInvariant := by
  unfold Obligations.ResetMeetsTheInvariant
  exact ⟨fun _ => inv_resetWith, inv_resetWith (by decide), fun _ => inv_of_tpeClean⟩

/-! ### Along a step -/

theorem inv_taken {s : State} (h : MachineInv s) : MachineInv s.taken := inv_congr h rfl rfl rfl rfl rfl rfl rfl

/-- A host write of a CSR other than CMD reaches an X register or a field the invariant does not look at. -/
theorem writeCsr_keeps (s : State) (n : CsrNum) (v : Word) :
    (s.writeCsr n v).params = s.params ∧ (s.writeCsr n v).pbuf = s.pbuf ∧ (s.writeCsr n v).cache = s.cache ∧
      (s.writeCsr n v).status = s.status ∧ (s.writeCsr n v).cmd = s.cmd ∧ (s.writeCsr n v).err = s.err ∧
      (s.writeCsr n v).errInfo = s.errInfo := by
  unfold State.writeCsr
  repeat' split
  all_goals exact ⟨rfl, rfl, rfl, rfl, rfl, rfl, rfl⟩

theorem inv_storeByte {s : State} (h : MachineInv s) {a : Nat} (ha : a < s.params.pbufSize) (b : Byte) :
    MachineInv (s.storeByte a b) :=
  { h with
    canonical := wf_write h.canonical a b
    within := within_write h.within ha b }

theorem inv_resetEvent {s : State} (h : MachineInv s) : MachineInv s.resetEvent :=
  inv_congr (inv_resetWith h.legal) rfl rfl rfl rfl rfl rfl rfl

theorem inv_hostAccess {s t : State} {op : HostOp} (h : MachineInv s) (ht : hostAccess op s = .next t) : MachineInv t := by
  cases op with
  | csrWrite n v =>
    cases ht
    obtain ⟨h1, h2, h3, h4, h5, h6, h7⟩ := writeCsr_keeps s n v
    exact inv_congr h h1 h2 h3 h4 h5 h6 h7
  | csrRead n =>
    cases ht
    exact inv_congr h rfl rfl rfl rfl rfl rfl rfl
  | pbufWrite a b =>
    simp only [hostAccess] at ht
    split at ht
    · cases ht
      exact inv_storeByte h ‹_› b
    · cases ht
  | pbufRead a =>
    simp only [hostAccess] at ht
    split at ht
    · cases ht
      exact inv_congr h rfl rfl rfl rfl rfl rfl rfl
    · cases ht
  | tick =>
    cases ht
    exact inv_congr h rfl rfl rfl rfl rfl rfl rfl
  | reset =>
    cases ht
    exact inv_resetEvent h

/-- A command keeps the invariant from its CMD write to its end: its effects on the cache and PBUF are those of
`EffectsOf`. -/
theorem inv_commandStep {s t : State} {v : Word} (h : MachineInv s) (ht : command v s = .next t) : MachineInv t := by
  obtain ⟨hdone, hfailed⟩ := inv_command v h
  rcases command_cases v s with ⟨i, -, hc⟩ | ⟨-, sub, hc⟩
  · obtain ⟨r, hr, heff⟩ := exec_effects i (s.beginCommand v)
    rw [hc, hr] at ht
    rcases finish_cases _ _ _ ht with ⟨e, he, rfl⟩ | ⟨e, -, rfl⟩
    · have hi := heff e he
      exact hdone e (fun c hcache => (hi.cache c hcache).inv h.legal h.cache) fun st hst => (hi.store st hst).2
    · exact hfailed e
  · rw [hc] at ht
    cases ht
    exact hfailed _

/-- Settles O8: idling, a command and every other interaction keep the invariant. -/
theorem stepKeepsTheInvariant : Obligations.StepKeepsTheInvariant := by
  unfold Obligations.StepKeepsTheInvariant
  intro s t h ht
  rcases step_shape s with ⟨-, hs⟩ | ⟨v, rest, -, hs⟩ | ⟨op, rest, -, -, hs⟩
  · rw [hs] at ht
    cases ht
    exact h
  · exact inv_commandStep (inv_taken h) (hs ▸ ht)
  · exact inv_hostAccess (inv_taken h) (hs ▸ ht)

end Sys2Proof.Machine
end

section
/-! SUPPORT. Proofs about the interactions that start no command: reset, tick, CSR and PBUF accesses, and the script
operation `sb` (10_state.md R46, R54; 20_memory.md R82; 30_encoding.md R133; 70_reset_and_hazards.md R425–R427). -/

namespace Sys2Proof.Machine

theorem taken_eq {s : State} {op : HostOp} {rest : List HostOp} (h : s.pending = op :: rest) :
    s.taken = { s with pending := rest } := by
  simp [State.taken, h]

/-! ### Reset and tick -/

/-- Settles O9: the reset event's state is `resetWith` of the same parameters. -/
theorem resetGivesTheTableValues : Obligations.ResetGivesTheTableValues := by
  unfold Obligations.ResetGivesTheTableValues
  intro s rest hp
  refine ⟨s.taken.resetEvent, step_access hp (by simp), fun r => ?_, rfl, rfl, rfl, rfl, rfl, rfl, rfl, rfl, rfl, rfl, rfl,
    (reset_cacheInv s.params).sets, fun ws hws => ?_, rfl⟩
  · simp [State.reg, State.resetEvent, State.resetWith]
  · rw [List.eq_of_mem_replicate hws]
    exact ⟨List.length_replicate, fun slot hslot => List.eq_of_mem_replicate hslot⟩

theorem exec_keeps_now {i : Instr} {s t : State} (h : exec i s = .next t) : t.now = s.now := by
  rcases exec_cases i s with ⟨e, he⟩ | ⟨e, he⟩ <;> cases he.symm.trans h <;> rfl

/-- Settles O10: a tick is one addition on 64 bits, and no command's effects or report name NOW. -/
theorem tickAdvancesNow : Obligations.TickAdvancesNow := by
  unfold Obligations.TickAdvancesNow
  refine ⟨fun s rest hp => ⟨s.now + 1#64, by simp [BitVec.toNat_add], ?_⟩, fun _ _ _ => exec_keeps_now⟩
  rw [step_access hp (by simp), taken_eq hp]
  rfl

/-! ### CSR accesses -/

/-- Settles O11: `writeCsr`, number by number. -/
theorem csrWritesStoreDefinedFields : Obligations.CsrWritesStoreDefinedFields := by
  unfold Obligations.CsrWritesStoreDefinedFields
  intro s n v rest hp hn
  refine ⟨_, step_access hp (by simpa using hn), ?_⟩
  rw [taken_eq hp]
  refine ⟨fun h => ?reg, ?ourMac, ?ourIp, ?arpTimeout, ?now, ?replyTtl, fun h32 h => ?ignored⟩
  case reg => simp [State.writeCsr, h, State.setReg, Nat.mod_eq_of_lt h]
  case ourMac => rintro rfl; rfl
  case ourIp => rintro rfl; rfl
  case arpTimeout => rintro rfl; rfl
  case now => rintro rfl; rfl
  case replyTtl => rintro rfl; rfl
  case ignored =>
    simp only [List.mem_cons, List.not_mem_nil, or_false, not_or] at h
    obtain ⟨h1, h2, h3, h4, h5⟩ := h
    exact (dif_neg (Nat.not_lt.2 h32)).trans <| (if_neg h1).trans <| (if_neg h2).trans <| (if_neg h3).trans <|
      (if_neg h4).trans (if_neg h5)

/-- A field above smaller ones in a register. -/
theorem shiftLeft_or_toNat {a b : Word} {k : Nat} (hb : b.toNat < 2 ^ k) (ha : a.toNat * 2 ^ k < 2 ^ 64) :
    (a <<< k ||| b).toNat = a.toNat * 2 ^ k + b.toNat := by
  rw [BitVec.toNat_or, BitVec.toNat_shiftLeft, Nat.shiftLeft_eq, Nat.mod_eq_of_lt ha, ← Nat.shiftLeft_eq,
    ← Nat.shiftLeft_add_eq_or_of_lt hb]

theorem zext64_toNat {w : Nat} (v : BitVec w) (h : w ≤ 64) : (zext64 v).toNat = v.toNat :=
  (BitVec.toNat_setWidth 64 v).trans (Nat.mod_eq_of_lt (Nat.lt_of_lt_of_le v.isLt (Nat.pow_le_pow_right (by decide) h)))

theorem statusWord_toNat (st : StatusReg) :
    st.word.toNat = st.lastOpc.toNat * 2 ^ 8 + st.fail.toNat * 4 + st.done.toNat * 2 + st.busy.toNat := by
  have hopc := st.lastOpc.isLt
  have hfail := st.fail.toNat_lt
  have hdone := st.done.toNat_lt
  have hbusy := st.busy.toNat_lt
  simp only [StatusReg.word, BitVec.or_assoc]
  have low : (zext64 (BitVec.ofBool st.done) <<< 1 ||| zext64 (BitVec.ofBool st.busy)).toNat
      = st.done.toNat * 2 ^ 1 + st.busy.toNat := by
    rw [shiftLeft_or_toNat] <;> simp only [zext64_toNat, BitVec.toNat_ofBool, Nat.reduceLeDiff] <;> omega
  have mid : (zext64 (BitVec.ofBool st.fail) <<< 2 |||
      (zext64 (BitVec.ofBool st.done) <<< 1 ||| zext64 (BitVec.ofBool st.busy))).toNat
      = st.fail.toNat * 2 ^ 2 + (st.done.toNat * 2 ^ 1 + st.busy.toNat) := by
    rw [shiftLeft_or_toNat] <;> simp only [low, zext64_toNat, BitVec.toNat_ofBool, Nat.reduceLeDiff] <;> omega
  rw [shiftLeft_or_toNat] <;> simp only [mid, zext64_toNat, Nat.reduceLeDiff] <;> omega

theorem errWord_toNat (e : ErrReg) : e.word.toNat = e.layer.toNat * 2 ^ 16 + e.sub.toNat * 2 ^ 8 + e.code.toNat := by
  have hlayer := e.layer.isLt
  have hsub := e.sub.isLt
  have hcode := e.code.isLt
  simp only [ErrReg.word, BitVec.or_assoc]
  have low : (zext64 e.sub <<< 8 ||| zext64 e.code).toNat = e.sub.toNat * 2 ^ 8 + e.code.toNat := by
    rw [shiftLeft_or_toNat] <;> simp only [zext64_toNat, Nat.reduceLeDiff] <;> omega
  rw [shiftLeft_or_toNat] <;> simp only [low, zext64_toNat, Nat.reduceLeDiff] <;> omega

theorem accumulatorWord_toNat (k : Accumulator) :
    k.word.toNat = k.pb.toNat * 2 ^ 24 + k.pv.toNat * 2 ^ 16 + k.acc.toNat := by
  have hpb := k.pb.isLt
  have hpv := k.pv.toNat_lt
  have hacc := k.acc.isLt
  simp only [Accumulator.word, BitVec.or_assoc]
  have low : (zext64 (BitVec.ofBool k.pv) <<< 16 ||| zext64 k.acc).toNat = k.pv.toNat * 2 ^ 16 + k.acc.toNat := by
    rw [shiftLeft_or_toNat] <;> simp only [zext64_toNat, BitVec.toNat_ofBool, Nat.reduceLeDiff] <;> omega
  rw [shiftLeft_or_toNat] <;> simp only [low, zext64_toNat, Nat.reduceLeDiff] <;> omega

/-- The bounds of a legal choice of parameters (00_scope.md R10). -/
theorem legal_bounds {p : Params} (h : p.legal = true) :
    64 ≤ p.pbufSize ∧ p.pbufSize ≤ 2 ^ 31 ∧ 1 ≤ p.arpSets ∧ p.arpSets ≤ 2 ^ 16 ∧ 1 ≤ p.arpWays ∧ p.arpWays ≤ 2 ^ 16 := by
  simp only [Params.legal, Bool.and_eq_true, decide_eq_true_eq] at h
  omega

theorem geometryWord_toNat {p : Params} (h : p.legal = true) :
    (Params.geometryWord p).toNat = p.arpWays * 2 ^ 32 + p.arpSets := by
  obtain ⟨-, -, -, hsets, -, hways⟩ := legal_bounds h
  refine (toNat_append (BitVec.ofNat 32 p.arpWays) (BitVec.ofNat 32 p.arpSets)).trans ?_
  simp only [BitVec.toNat_ofNat]
  omega

/-- Settles O12: `readCsr`, number by number, with the assembled words as sums of their fields. -/
theorem csrReadsReturnTheirFields : Obligations.CsrReadsReturnTheirFields := by
  unfold Obligations.CsrReadsReturnTheirFields
  intro s n rest hp
  refine ⟨s.readCsr n, ?_, fun h => ?reg, ?cmd, ?status, ?err, ?errInfo, ?ourMac, ?ourIp, ?arpTimeout, ?now, ?replyTtl,
    ?ckState, ?arpGeom, ?pbufSize, fun h32 h => ?reserved⟩
  · rw [step_access hp (by simp), taken_eq hp]
    rfl
  case reg => exact dif_pos h
  case cmd => rintro rfl; exact zext64_toNat s.cmd (by decide)
  case status => rintro rfl; exact statusWord_toNat _
  case err => rintro rfl; exact errWord_toNat _
  case errInfo => rintro rfl; rfl
  case ourMac => rintro rfl; exact zext64_toNat s.ourMac (by decide)
  case ourIp => rintro rfl; exact zext64_toNat s.ourIp (by decide)
  case arpTimeout => rintro rfl; rfl
  case now => rintro rfl; rfl
  case replyTtl => rintro rfl; exact zext64_toNat s.replyTtl (by decide)
  case ckState => rintro rfl; exact accumulatorWord_toNat _
  case arpGeom => rintro rfl hlegal; exact geometryWord_toNat hlegal
  case pbufSize =>
    rintro rfl hlegal
    obtain ⟨-, hsize, -⟩ := legal_bounds hlegal
    exact Nat.mod_eq_of_lt (by omega)
  case reserved =>
    simp only [List.mem_cons, List.not_mem_nil, or_false, not_or] at h
    obtain ⟨h1, h2, h3, h4, h5, h6, h7, h8, h9, h10, h11, h12⟩ := h
    exact (dif_neg (Nat.not_lt.2 h32)).trans <| (if_neg h1).trans <| (if_neg h2).trans <| (if_neg h3).trans <|
      (if_neg h4).trans <| (if_neg h5).trans <| (if_neg h6).trans <| (if_neg h7).trans <| (if_neg h8).trans <|
      (if_neg h9).trans <| (if_neg h10).trans <| (if_neg h11).trans (if_neg h12)

/-! ### PBUF accesses -/

theorem step_pbufWrite {s : State} {a : Nat} {b : Byte} {rest : List HostOp} (h : s.pending = .pbufWrite a b :: rest)
    (ha : a < s.params.pbufSize) : step s = .next { s with pending := rest, pbuf := s.pbuf.write a b } := by
  rw [step_access h (by simp), taken_eq h]
  exact if_pos ha

/-- Settles O13: a write is one `storeByte`, a read one `reply`. -/
theorem hostPbufAccessesMoveOneByte : Obligations.HostPbufAccessesMoveOneByte := by
  unfold Obligations.HostPbufAccessesMoveOneByte
  intro s a rest ha
  refine ⟨fun b hp => ⟨_, step_pbufWrite hp ha, rfl, ?same, fun a' ha' => ?other⟩, fun hp => ?read⟩
  case same => exact (byteAt_storeByte s a b a).trans (if_pos rfl)
  case other => exact (byteAt_storeByte s a b a').trans (if_neg ha')
  case read =>
    rw [step_access hp (by simp), taken_eq hp]
    exact if_pos ha

theorem run_succ {M : Host.Core} {s t : M.State} (k : Nat) (h : M.step s = .next t) : M.run (k + 1) s = M.run k t := by
  simp [Host.Core.run, h]

/-- Running the writes of `sb` one after another writes the bytes one after another. -/
theorem run_storeOps (s : State) (a : Nat) (bytes : List Byte) (h : a + bytes.length ≤ s.params.pbufSize) :
    Host.Core.run core bytes.length { s with pending := storeOps a bytes } =
      .next { s with pending := [], pbuf := s.pbuf.writeBytes a bytes } := by
  induction bytes generalizing s a with
  | nil => rfl
  | cons b bs ih =>
    simp only [List.length_cons] at h
    have hstep : core.step { s with pending := storeOps a (b :: bs) } =
        .next { s with pending := storeOps (a + 1) bs, pbuf := s.pbuf.write a b } :=
      step_pbufWrite (s := { s with pending := storeOps a (b :: bs) }) rfl (by simp only; omega)
    refine (run_succ bs.length hstep).trans ?_
    exact ih { s with pbuf := s.pbuf.write a b } (a + 1) (by simp only; omega)

theorem storeOps_length (a : Nat) (bytes : List Byte) : (storeOps a bytes).length = bytes.length := by
  induction bytes generalizing a with
  | nil => rfl
  | cons b bs ih => simp [storeOps, ih]

/-- Settles O14: the run of the script's writes is `writeBytes`. -/
theorem scriptStoreWritesItsBytes : Obligations.ScriptStoreWritesItsBytes := by
  unfold Obligations.ScriptStoreWritesItsBytes
  intro s a bytes hwf h
  have hrun : runOps s (ScriptOp.sb a bytes).expand = .next { s with pending := [], pbuf := s.pbuf.writeBytes a bytes } := by
    rw [runOps, ScriptOp.expand, storeOps_length]
    exact run_storeOps s a bytes h
  exact ⟨_, hrun, rfl, wf_writeBytes hwf a bytes, stored_complete s { store := some ⟨a, bytes⟩ } ⟨a, bytes⟩ rfl⟩

end Sys2Proof.Machine
end

section
/-! SUPPORT. Proofs about all commands at once: their report, their frame, and the registers they never read
(60_exceptions.md R384; 10_state.md R33; 20_memory.md R85). -/

namespace Sys2Proof.Machine

/-! ### The report -/

theorem raise_code_ne_zero (s : State) (e : CmdError) : (s.raise e).err.code ≠ 0#8 := by
  cases e <;> simp [CmdError.errReg, CmdError.kind, ErrorKind.code]

/-- An interaction that starts no command and is not the reset leaves the report alone. -/
theorem hostAccess_keeps_report {s t : State} {op : HostOp} (h : hostAccess op s = .next t) (hr : op ≠ .reset) :
    t.status = s.status ∧ t.err = s.err ∧ t.errInfo = s.errInfo := by
  cases op with
  | csrWrite n v =>
    cases h
    obtain ⟨-, -, -, hstatus, -, herr, hinfo⟩ := writeCsr_keeps s n v
    exact ⟨hstatus, herr, hinfo⟩
  | csrRead n => cases h; exact ⟨rfl, rfl, rfl⟩
  | pbufWrite a b =>
    simp only [hostAccess] at h
    split at h <;> cases h
    exact ⟨rfl, rfl, rfl⟩
  | pbufRead a =>
    simp only [hostAccess] at h
    split at h <;> cases h
    exact ⟨rfl, rfl, rfl⟩
  | tick => cases h; exact ⟨rfl, rfl, rfl⟩
  | reset => exact absurd rfl hr

/-- Settles O15: a command completes or raises, and every other interaction but the reset is a `hostAccess`. -/
theorem failedCommandChangesOnlyTheReport : Obligations.FailedCommandChangesOnlyTheReport := by
  unfold Obligations.FailedCommandChangesOnlyTheReport
  refine ⟨fun i s => ?_, fun s t op rest hp hr hc ht => ?_⟩
  · rcases exec_cases i s with ⟨e, he⟩ | ⟨e, he⟩
    · exact ⟨_, he, fun hf => by simp [statusAtEnd] at hf, fun _ => completed_complete s e⟩
    · exact ⟨_, he, fun _ => ⟨rfl, rfl, raise_code_ne_zero s e⟩, fun hf => by simp [statusAtEnd] at hf⟩
  · exact hostAccess_keeps_report (s := s.taken) ((step_access hp hc).symm.trans ht) hr

/-! ### The frame -/

theorem toNat_word64 {n : Nat} (h : n < 2 ^ 64) : (word64 n).toNat = n := by
  rw [word64, BitVec.toNat_ofNat, Nat.mod_eq_of_lt h]

/-- A command that completes changes no byte outside the bytes it reports, from X3 on. -/
theorem byteAt_complete_outside {i : Instr} {s : State} {e : Effects} (he : EffectsOf i s e) (hlegal : s.params.legal = true)
    {a : Nat} (ha : a < (s.reg 3).toNat ∨ (s.reg 3).toNat + ((s.complete e).reg (countReg i)).toNat ≤ a) :
    (s.complete e).byteAt a = s.byteAt a := by
  cases hst : e.store with
  | none => exact byteAt_complete_none s e hst a
  | some st =>
    obtain ⟨haddr, hsize⟩ := he.store st hst
    obtain ⟨-, hbound, -⟩ := legal_bounds hlegal
    rw [he.count st hst, toNat_word64 (by omega)] at ha
    exact (stored_complete s e st hst).2 a (haddr ▸ ha)

/-- Settles O16: `EffectsOf` names what a completed command writes; a report writes none of it. -/
theorem commandFrames : Obligations.CommandFrames := by
  unfold Obligations.CommandFrames
  intro i s t ht
  obtain ⟨r, hr, heff⟩ := exec_effects i s
  rcases finish_cases _ _ _ (hr ▸ ht) with ⟨e, hok, rfl⟩ | ⟨e, -, rfl⟩
  · have he := heff e hok
    exact ⟨keeps_complete s e _ he.regs, fun hi => by simp [he.ck hi], fun hi => by simp [he.noCache hi],
      fun hi => byteAt_complete_none s e (he.noStore hi), fun hf => by simp [statusAtEnd] at hf,
      fun hlegal a => byteAt_complete_outside he hlegal⟩
  · exact ⟨keeps_raise s e _, fun _ => rfl, fun _ => rfl, fun _ _ => rfl, fun _ _ => rfl, fun _ _ _ => rfl⟩

/-! ### Registers that no command reads -/

/-- X0 and X16–X31, which hold results (10_state.md R33). -/
def ResultReg (r : Reg) : Prop := r.val = 0 ∨ 16 ≤ r.val

theorem insert_setReg (s : State) (r : Reg) (v : Word) : (s.setReg r v).insert = s.insert := rfl

theorem answersArp_setReg (s : State) (r : Reg) (v : Word) : (s.setReg r v).answersArp = s.answersArp := rfl

section
variable {r : Reg} (hr : ResultReg r) (s : State) (v : Word)
include hr

theorem operand_setReg (q : Reg) (h1 : 1 ≤ q.val) (h15 : q.val ≤ 15) : (s.setReg r v).reg q = s.reg q := by
  unfold ResultReg at hr
  exact reg_setReg_other s v (by rintro rfl; omega)

theorem field_setReg (n : Nat) (q : Reg) (h1 : 1 ≤ q.val) (h15 : q.val ≤ 15) : (s.setReg r v).field n q = s.field n q := by
  rw [State.field, operand_setReg hr s v q h1 h15, State.field]

theorem input_setReg : (s.setReg r v).input = s.input := by
  rw [State.input, operand_setReg hr s v 1 (by decide) (by decide), operand_setReg hr s v 2 (by decide) (by decide)]
  rfl

theorem output_setReg (b : List Byte) : (s.setReg r v).output b = s.output b := by
  rw [State.output, operand_setReg hr s v 3 (by decide) (by decide)]
  rfl

theorem emit_setReg (b : List Byte) : (s.setReg r v).emit b = s.emit b := by
  rw [State.emit, output_setReg hr s v, State.emit]

theorem emitHeader_setReg : (s.setReg r v).emitHeader = s.emitHeader := by
  simp (disch := decide) only [State.emitHeader, State.half, State.byteField, State.ipField, field_setReg hr s v]

theorem arpStep_setReg (m : BitVec 48) (b : List Byte) : arpStep (s.setReg r v) m b = arpStep s m b := by
  simp only [arpStep, output_setReg hr s v, insert_setReg, answersArp_setReg, setReg_ourMac]

theorem ip4Step_setReg (m : BitVec 48) (ea : Word) (b : List Byte) :
    ip4Step (s.setReg r v) m ea b = ip4Step s m ea b := by
  simp only [ip4Step, icmpStep, output_setReg hr s v, setReg_ourMac, setReg_replyTtl]

/-- Every command comes to the same effects, or the same error, whatever a result register holds before it. -/
theorem exec_setReg (i : Instr) : ∃ e, exec i s = finish s e ∧ exec i (s.setReg r v) = finish (s.setReg r v) e := by
  cases i <;>
    simp (disch := decide) only [exec, execCkClear, execCkAccum, execCkFinal, execCksum, execCkVerify, execEthParse,
      execEthClassify, execEthBuild, execArpParse, execArpBuildReq, execArpBuildReply, execArpHandle, execArpcInsert,
      execArpcLookup, execArpcSweep, execArpcRemove, execArpcCount, execIp4Parse, execIp4Build, execIp4Emit, execIcmpParse,
      execIcmpEmit, execIcmpBuildReply, execUdpParse, execUdpBuild, execUdpBuildEcho, execProcessFrame, State.macField,
      State.ipField, State.half, State.byteField, insert_setReg, answersArp_setReg, operand_setReg hr s v, field_setReg hr s v,
      input_setReg hr s v, emit_setReg hr s v, emitHeader_setReg hr s v, arpStep_setReg hr s v, ip4Step_setReg hr s v,
      setReg_params, setReg_arpTimeout, setReg_now, setReg_cache, setReg_ourMac, setReg_ck] <;>
    exact ⟨_, rfl, rfl⟩

end

/-- The same effects on a state with another value in one register differ in that register alone, and there only if they
do not write it. -/
theorem complete_setReg (s : State) (r : Reg) (v : Word) (e : Effects) :
    (∀ q, q ≠ r → ((s.setReg r v).complete e).reg q = (s.complete e).reg q) ∧
    (((s.setReg r v).complete e).reg r = (s.complete e).reg r ∨
      ((s.setReg r v).complete e).reg r = v ∧ (s.complete e).reg r = s.reg r) := by
  refine ⟨fun q hq => by simp only [reg_complete_lookup, reg_setReg_other s v hq], ?_⟩
  simp only [reg_complete_lookup, reg_setReg_same]
  cases e.regs.reverse.find? (·.1 = r) with
  | none => exact .inr ⟨rfl, rfl⟩
  | some _ => exact .inl rfl

/-- Settles O17: both runs end by the same effects or the same report. -/
theorem resultRegistersAreNeverRead : Obligations.ResultRegistersAreNeverRead := by
  unfold Obligations.ResultRegistersAreNeverRead
  intro i s r v t hr ht
  obtain ⟨e, he, he'⟩ := exec_setReg hr s v i
  rcases finish_cases _ _ _ (he ▸ ht) with ⟨e, rfl, rfl⟩ | ⟨e, rfl, rfl⟩
  · exact ⟨_, he', rfl, complete_setReg s r v e⟩
  · exact ⟨_, he', rfl, fun q hq => reg_setReg_other s v hq, .inr ⟨reg_setReg_same s r v, rfl⟩⟩

end Sys2Proof.Machine
end

section
/-! SUPPORT. What the commands answer by their input, their lengths and their output: the equation of each builder, and
the proofs about the errors in the order of 60_exceptions.md R383 (R380–R384; 20_memory.md R84, R85). -/

namespace Sys2Proof.Machine

/-! ### The three shared checks -/

theorem exec_of_input_ok {i : Instr} {s : State} {f : List Byte → Except CmdError Effects}
    (h : exec i s = finish s (s.input >>= f)) (hin : InputInRange s) : exec i s = finish s (f (inputBytes s)) := by
  rw [h, input_ok hin, except_ok_bind]

theorem exec_of_input_error {i : Instr} {s : State} {f : List Byte → Except CmdError Effects}
    (h : exec i s = finish s (s.input >>= f)) (hin : ¬ InputInRange s) :
    exec i s = .next (s.report 0x11 0 6 (s.reg 1)) := by
  rw [h, input_error hin]
  rfl

theorem inputBytes_length_lt {s : State} (hlegal : s.params.legal = true) (hin : InputInRange s) :
    (inputBytes s).length < 2 ^ 32 := by
  obtain ⟨-, hsize, -⟩ := legal_bounds hlegal
  unfold InputInRange at hin
  rw [inputBytes_length]
  omega

/-- The report of a command that ends by InvalidPacket (R381, R382). -/
theorem exec_of_invalidPacket {i : Instr} {s : State} {l : Layer} {sub : BitVec 8} {avail need : Nat}
    (h : exec i s = finish s (.error (.invalidPacket l sub avail need))) (ha : avail < 2 ^ 32) :
    exec i s = .next (s.report 0x01 sub l.code (BitVec.ofNat 64 (need * 2 ^ 32 + avail))) := by
  rw [h, finish_error, raise_eq_report, invalidPacket_info _ _ _ ha]
  rfl

/-- A command whose first check of its input is a length, of an input that is too short. -/
theorem exec_of_short {i : Instr} {s : State} {l : Layer} {need : Nat} {f : List Byte → Except CmdError Effects}
    (h : exec i s = finish s (s.input >>= f))
    (hf : ∀ b, b.length < need → f b = .error (.invalidPacket l 0 b.length need))
    (hlegal : s.params.legal = true) (hin : InputInRange s) (hlen : (s.reg 2).toNat < need) :
    exec i s = .next (s.report 0x01 0 l.code (BitVec.ofNat 64 (need * 2 ^ 32 + (s.reg 2).toNat))) := by
  rw [← inputBytes_length]
  refine exec_of_invalidPacket ?_ (inputBytes_length_lt hlegal hin)
  rw [exec_of_input_ok h hin, hf _ (by rwa [inputBytes_length])]

theorem requireLen_bind_error {α : Type} {l : Layer} {n : Nat} {f : List Byte → Unit → Except CmdError α} (b : List Byte)
    (h : b.length < n) : (requireLen l b n >>= f b) = .error (.invalidPacket l 0 b.length n) := by
  rw [requireLen_error h, except_error_bind]

theorem requireLen_bind_ok {α : Type} {l : Layer} {n : Nat} {f : Unit → Except CmdError α} {b : List Byte}
    (h : n ≤ b.length) : (requireLen l b n >>= f) = f () := by
  rw [requireLen_ok h, except_ok_bind]

theorem exec_of_emit_ok {i : Instr} {s : State} {b : List Byte} (h : exec i s = finish s (s.emit b))
    (hout : OutputInRange s b.length) : ∃ t, exec i s = .next t ∧ Builds s t b := by
  rw [h, emit_ok hout]
  exact ⟨_, rfl, builds_complete⟩

theorem exec_of_emit_error {i : Instr} {s : State} {b : List Byte} (h : exec i s = finish s (s.emit b))
    (hout : ¬ OutputInRange s b.length) : exec i s = .next (s.report 0x11 1 6 (s.reg 3)) := by
  rw [h, emit_error hout]
  rfl

/-! ### The bytes of the builders -/

/-- What `ip4Build` builds when the total length fits 16 bits (R293). -/
def ip4Datagram (src dst : BitVec 32) (protocol ttl : Byte) (payload : List Byte) : List Byte :=
  let h0 := (ip4BuildHeader src dst protocol ttl (20 + payload.length)).bytes
  withChecksum h0 10 (cksum h0) ++ payload

theorem ip4Build_eq_datagram {src dst : BitVec 32} {pr ttl : Byte} {p : List Byte} (h : 20 + p.length ≤ 0xFFFF) :
    ip4Build src dst pr ttl p = .ok (ip4Datagram src dst pr ttl p) := ip4Build_ok h

@[simp] theorem ip4Datagram_length (src dst : BitVec 32) (pr ttl : Byte) (p : List Byte) :
    (ip4Datagram src dst pr ttl p).length = 20 + p.length := by
  simp [ip4Datagram]

/-- What `udpBytes` builds when the length fits 16 bits (R340). -/
def udpDatagram (sa da : BitVec 32) (sp dp : BitVec 16) (payload : List Byte) : List Byte :=
  withChecksum (udpUnsealed sp dp payload) 6
    (cksum (udpPseudoHeader sa da (8 + payload.length) ++ udpUnsealed sp dp payload))

theorem udpBytes_eq_datagram {sa da : BitVec 32} {sp dp : BitVec 16} {p : List Byte} (h : 8 + p.length ≤ 0xFFFF) :
    udpBytes sa da sp dp p = .ok (udpDatagram sa da sp dp p) := udpBytes_ok h

@[simp] theorem udpDatagram_length (sa da : BitVec 32) (sp dp : BitVec 16) (p : List Byte) :
    (udpDatagram sa da sp dp p).length = 8 + p.length := by
  rw [udpDatagram, withChecksum_length _ _ _ (by rw [udpUnsealed_length]; omega), udpUnsealed_length]

/-! ### The equation of each builder -/

theorem exec_arpBuildReq (s : State) :
    exec .arpBuildReq s = finish s (s.emit (arpRequest (s.macField 4) (s.ipField 5) (s.ipField 6)).bytes) := rfl

section
variable {s : State} (hin : InputInRange s)
include hin

theorem exec_arpBuildReply_eq_emit (hlen : 28 ≤ (s.reg 2).toNat) :
    exec .arpBuildReply s = finish s (s.emit (arpReply (arpParse (inputBytes s)) (s.macField 4)).bytes) :=
  (exec_of_input_ok rfl hin).trans (by rw [requireLen_bind_ok (by rwa [inputBytes_length])])

theorem exec_ip4Build_eq_emit (hlen : 20 + (s.reg 2).toNat ≤ 0xFFFF) :
    exec .ip4Build s = finish s (s.emit
      (ip4Datagram (s.ipField 4) (s.ipField 5) (s.byteField 6) (s.byteField 7) (inputBytes s))) :=
  (exec_of_input_ok rfl hin).trans (by rw [ip4Build_eq_datagram (by rwa [inputBytes_length]), except_ok_bind])

theorem exec_ip4Emit_eq_emit : exec .ip4Emit s = finish s (s.emit (s.emitHeader.bytes ++ inputBytes s)) :=
  exec_of_input_ok (f := fun p => s.emit (s.emitHeader.bytes ++ p)) rfl hin

theorem exec_icmpEmit_eq_emit : exec .icmpEmit s = finish s (s.emit
    (icmpMessage (s.byteField 4) (s.byteField 5) (s.half 6) (s.half 7) (inputBytes s))) :=
  exec_of_input_ok
    (f := fun p => s.emit (icmpMessage (s.byteField 4) (s.byteField 5) (s.half 6) (s.half 7) p)) rfl hin

theorem exec_icmpBuildReply_eq_emit (hlen : 8 ≤ (s.reg 2).toNat) :
    exec .icmpBuildReply s = finish s (s.emit (icmpReply (inputBytes s))) :=
  (exec_of_input_ok rfl hin).trans (by rw [requireLen_bind_ok (by rwa [inputBytes_length])])

theorem exec_udpBuild_eq_emit (hlen : 8 + (s.reg 2).toNat ≤ 0xFFFF) :
    exec .udpBuild s = finish s (s.emit
      (udpDatagram (s.ipField 4) (s.ipField 5) (s.half 6) (s.half 7) (inputBytes s))) :=
  (exec_of_input_ok rfl hin).trans (by rw [udpBytes_eq_datagram (by rwa [inputBytes_length]), except_ok_bind])

theorem exec_udpBuildEcho_eq_emit (h8 : 8 ≤ (s.reg 2).toNat) (hlen : (s.reg 2).toNat ≤ 0xFFFF) :
    exec .udpBuildEcho s = finish s (s.emit (udpDatagram (s.ipField 4) (s.ipField 5) (be16 (inputBytes s) 2)
      (be16 (inputBytes s) 0) ((inputBytes s).drop 8))) := by
  refine (exec_of_input_ok rfl hin).trans ?_
  rw [requireLen_bind_ok (by rwa [inputBytes_length]),
    udpBytes_eq_datagram (by rw [List.length_drop, inputBytes_length]; omega), except_ok_bind]

end

/-! ### Errors of the input -/

/-- The eighteen commands that read the input descriptor do so before anything else (R383). -/
theorem exec_reads_input {i : Instr} (s : State)
    (h : i ∈ [.ckAccum, .cksum, .ckVerify, .ethParse, .ethBuild, .arpParse, .arpBuildReply, .arpHandle, .ip4Parse,
      .ip4Build, .ip4Emit, .icmpParse, .icmpEmit, .icmpBuildReply, .udpParse, .udpBuild, .udpBuildEcho, .processFrame]) :
    ∃ f, exec i s = finish s (s.input >>= f) := by
  simp only [List.mem_cons, List.not_mem_nil, or_false] at h
  rcases h with rfl | rfl | rfl | rfl | rfl | rfl | rfl | rfl | rfl | rfl | rfl | rfl | rfl | rfl | rfl | rfl | rfl | rfl <;>
    exact ⟨_, rfl⟩

/-- Settles O18: `MemRead` is the first thing each of these commands does. -/
theorem inputOutOfRangeIsReportedFirst : Obligations.InputOutOfRangeIsReportedFirst := by
  unfold Obligations.InputOutOfRangeIsReportedFirst
  intro s i hin hi
  obtain ⟨f, hf⟩ := exec_reads_input s hi
  exact exec_of_input_error hf hin

theorem ip4Parse_short {b : List Byte} (h : b.length < 20) :
    ip4Parse b = .error (.invalidPacket .ipv4 0 b.length 20) := by
  simp only [ip4Parse]
  rw [if_pos h]

theorem ip4Parse_badIhl {b : List Byte} (h1 : 20 ≤ b.length) (h2 : (byteOf b 0).toNat % 16 < 5) :
    ip4Parse b = .error (.invalidPacket .ipv4 1 b.length ((byteOf b 0).toNat % 16)) := by
  simp only [ip4Parse, ip4Header_ihl]
  rw [if_neg (by omega), if_pos h2]

theorem ip4Parse_cut {b : List Byte} (h1 : 20 ≤ b.length) (h2 : 5 ≤ (byteOf b 0).toNat % 16)
    (h3 : b.length < (byteOf b 0).toNat % 16 * 4) :
    ip4Parse b = .error (.invalidPacket .ipv4 2 b.length ((byteOf b 0).toNat % 16 * 4)) := by
  simp only [ip4Parse, Ip4Header.length, ip4Header_ihl]
  rw [if_neg (by omega), if_neg (by omega), if_pos h3]

theorem exec_ip4Parse_of_error {s : State} {e : CmdError} (hin : InputInRange s) (h : ip4Parse (inputBytes s) = .error e) :
    exec .ip4Parse s = finish s (.error e) :=
  (exec_of_input_ok rfl hin).trans (by rw [h, except_error_bind])

/-! ### The four branches of PROCESS_FRAME by EtherType (R361) -/

/-- The bytes behind a frame's Ethernet header. -/
def frameBody (s : State) : List Byte := (inputBytes s).drop 14

theorem frameBody_length (s : State) : (frameBody s).length = (s.reg 2).toNat - 14 := by
  rw [frameBody, List.length_drop, inputBytes_length]

section
variable {s : State} (hin : InputInRange s) (hlen : 14 ≤ (s.reg 2).toNat)
include hin hlen

theorem exec_processFrame_of_arp (h : be16 (inputBytes s) 12 = 0x0806#16) :
    exec .processFrame s = finish s (arpStep s (be48 (inputBytes s) 6) (frameBody s)) := by
  refine (exec_of_input_ok rfl hin).trans ?_
  rw [requireLen_bind_ok (by rwa [inputBytes_length])]
  simp [h, etherClass, frameBody]

theorem exec_processFrame_of_ipv4 (h : be16 (inputBytes s) 12 = 0x0800#16) :
    exec .processFrame s = finish s (ip4Step s (be48 (inputBytes s) 6) (s.reg 1 + 14#64) (frameBody s)) := by
  refine (exec_of_input_ok rfl hin).trans ?_
  rw [requireLen_bind_ok (by rwa [inputBytes_length])]
  simp [h, etherClass, frameBody]

theorem exec_processFrame_of_other (h1 : be16 (inputBytes s) 12 ≠ 0x0806#16) (h2 : be16 (inputBytes s) 12 ≠ 0x0800#16) :
    exec .processFrame s = .next (s.complete
      { regs := frameRegs (if be16 (inputBytes s) 12 = 0x86DD#16 then .dropIpv6 else .dropEthertype) 0 0 0
          (zext64 (be16 (inputBytes s) 12)) 0 0 0 }) := by
  refine (exec_of_input_ok rfl hin).trans ?_
  rw [requireLen_bind_ok (by rwa [inputBytes_length])]
  by_cases h3 : be16 (inputBytes s) 12 = 0x86DD#16
  · simp [h3, etherClass]
  · have hc : etherClass (be16 (inputBytes s) 12) = .unknown := by
      rw [etherClass, if_neg h1, if_neg h2, if_neg h3]
    simp [h3, hc]

end

theorem ip4Step_of_error {s : State} {m : BitVec 48} {ea : Word} {b : List Byte} {e : CmdError}
    (h : ip4Parse b = .error e) : ip4Step s m ea b = .error e := by
  rw [ip4Step, h, except_error_bind]

/-- Settles O19: each command's length check is its first, and `ip4Parse` makes the three checks of R291 in order. -/
theorem malformedInputIsInvalidPacket : Obligations.MalformedInputIsInvalidPacket := by
  unfold Obligations.MalformedInputIsInvalidPacket
  refine ⟨fun s i layer need hlegal hin hi hlen => ?lengths, fun s hlegal hin hlen => ?header, fun s hlegal hin hlen het => ?frame⟩
  case lengths =>
    simp only [List.mem_cons, Prod.mk.injEq, List.not_mem_nil, or_false] at hi
    rcases hi with ⟨rfl, rfl, rfl⟩ | ⟨rfl, rfl, rfl⟩ | ⟨rfl, rfl, rfl⟩ | ⟨rfl, rfl, rfl⟩ | ⟨rfl, rfl, rfl⟩ | ⟨rfl, rfl, rfl⟩ |
      ⟨rfl, rfl, rfl⟩ | ⟨rfl, rfl, rfl⟩ | ⟨rfl, rfl, rfl⟩ | ⟨rfl, rfl, rfl⟩
    · exact exec_of_short (l := .ethernet) rfl requireLen_bind_error hlegal hin hlen
    · exact exec_of_short (l := .arp) rfl requireLen_bind_error hlegal hin hlen
    · exact exec_of_short (l := .arp) rfl requireLen_bind_error hlegal hin hlen
    · exact exec_of_short (l := .arp) rfl requireLen_bind_error hlegal hin hlen
    · exact exec_of_short (l := .ipv4) rfl (fun b hb => by rw [ip4Parse_short hb, except_error_bind]) hlegal hin hlen
    · exact exec_of_short (l := .icmp) rfl requireLen_bind_error hlegal hin hlen
    · exact exec_of_short (l := .icmp) rfl requireLen_bind_error hlegal hin hlen
    · exact exec_of_short (l := .udp) rfl requireLen_bind_error hlegal hin hlen
    · exact exec_of_short (l := .udp) rfl requireLen_bind_error hlegal hin hlen
    · exact exec_of_short (l := .ethernet) rfl requireLen_bind_error hlegal hin hlen
  case header =>
    have hlt := inputBytes_length_lt hlegal hin
    rw [← inputBytes_length] at hlen ⊢
    exact ⟨fun h5 => exec_of_invalidPacket (exec_ip4Parse_of_error hin (ip4Parse_badIhl hlen h5)) hlt,
      fun h5 hcut => exec_of_invalidPacket (exec_ip4Parse_of_error hin (ip4Parse_cut hlen h5 hcut)) hlt⟩
  case frame =>
    have hlt : (frameBody s).length < 2 ^ 32 := by
      have := inputBytes_length_lt hlegal hin
      rw [frameBody, List.length_drop]
      omega
    have herr : ∀ {e}, ip4Parse (frameBody s) = .error e → exec .processFrame s = finish s (.error e) := fun he => by
      rw [exec_processFrame_of_ipv4 hin hlen het, ip4Step_of_error he]
    rw [← frameBody_length, show (inputBytes s).getD 14 0 = byteOf (frameBody s) 0 from (byteOf_drop (inputBytes s) 14 0).symm]
    exact ⟨fun h20 => exec_of_invalidPacket (herr (ip4Parse_short h20)) hlt,
      fun h20 h5 => exec_of_invalidPacket (herr (ip4Parse_badIhl h20 h5)) hlt,
      fun h20 h5 hcut => exec_of_invalidPacket (herr (ip4Parse_cut h20 h5 hcut)) hlt⟩

/-! ### Errors of the output and of the length -/

/-- Settles O20: each builder ends by emitting its bytes, whose number is n. -/
theorem outputOutOfRangeIsReported : Obligations.OutputOutOfRangeIsReported := by
  unfold Obligations.OutputOutOfRangeIsReported
  intro s i n hout h
  rcases h with ⟨rfl, rfl⟩ | ⟨hin, ⟨rfl, rfl⟩ | ⟨rfl, h28, rfl⟩ | ⟨rfl, rfl, hfit⟩ | ⟨rfl, rfl⟩ | ⟨rfl, rfl⟩ | ⟨rfl, h8, rfl⟩ |
    ⟨rfl, rfl, hfit⟩ | ⟨rfl, h8, rfl, hfit⟩⟩
  · exact exec_of_emit_error (exec_arpBuildReq s) (by rwa [arpBytes_length])
  · exact exec_of_emit_error (exec_ethBuild_eq_emit hin) (by rwa [ethBuildFrame_length])
  · exact exec_of_emit_error (exec_arpBuildReply_eq_emit hin h28) (by rwa [arpBytes_length])
  · exact exec_of_emit_error (exec_ip4Build_eq_emit hin hfit) (by rwa [ip4Datagram_length, inputBytes_length])
  · exact exec_of_emit_error (exec_ip4Emit_eq_emit hin)
      (by rwa [List.length_append, ip4HeaderBytes_length, inputBytes_length])
  · exact exec_of_emit_error (exec_icmpEmit_eq_emit hin) (by rwa [icmpMessage_length, inputBytes_length])
  · exact exec_of_emit_error (exec_icmpBuildReply_eq_emit hin h8)
      (by rwa [icmpReply_length _ (by rwa [inputBytes_length]), inputBytes_length])
  · exact exec_of_emit_error (exec_udpBuild_eq_emit hin hfit) (by rwa [udpDatagram_length, inputBytes_length])
  · exact exec_of_emit_error (exec_udpBuildEcho_eq_emit hin h8 hfit)
      (by rwa [udpDatagram_length, List.length_drop, inputBytes_length, Nat.add_sub_cancel' h8])

/-- A register's value plus a constant, as a length and as a word (log 13). -/
theorem word64_add_toNat (k : Nat) (x : Word) : word64 (k + x.toNat) = BitVec.ofNat 64 k + x := by
  rw [word64, BitVec.ofNat_add, BitVec.ofNat_toNat, BitVec.setWidth_eq]

/-- Settles O21: the length is checked before the output address is looked at. -/
theorem overlongBuildIsLengthOverflow : Obligations.OverlongBuildIsLengthOverflow := by
  unfold Obligations.OverlongBuildIsLengthOverflow
  intro s hin
  have hb := inputBytes_length s
  refine ⟨fun h => ?ip4, fun h => ?udp, fun h => ?echo⟩
  case ip4 =>
    refine (exec_of_input_ok rfl hin).trans ?_
    rw [ip4Build_error (by omega), hb, except_error_bind, finish_error, raise_eq_report]
    exact congrArg _ (congrArg _ (word64_add_toNat 20 (s.reg 2)))
  case udp =>
    refine (exec_of_input_ok rfl hin).trans ?_
    rw [udpBytes_error (by omega), hb, except_error_bind, finish_error, raise_eq_report]
    exact congrArg _ (congrArg _ (word64_add_toNat 8 (s.reg 2)))
  case echo =>
    have hd : 8 + ((inputBytes s).drop 8).length = 0 + (s.reg 2).toNat := by rw [List.length_drop]; omega
    refine (exec_of_input_ok rfl hin).trans ?_
    rw [requireLen_bind_ok (by omega), udpBytes_error (by omega), hd, except_error_bind, finish_error, raise_eq_report]
    exact congrArg _ (congrArg _ ((word64_add_toNat 0 (s.reg 2)).trans (BitVec.zero_add _)))

end Sys2Proof.Machine
end

section
/-! SUPPORT. Proofs about big-endian fields and the checksum function (00_scope.md R13; 40_checksum.md R170–R175, R181). -/

namespace Sys2Proof.Machine

/-! ### Big-endian fields -/

theorem be32_toNat (b : List Byte) (k : Nat) : (be32 b k).toNat = (be16 b k).toNat * 65536 + (be16 b (k + 2)).toNat :=
  toNat_append (be16 b k) (be16 b (k + 2))

theorem be48_toNat (b : List Byte) (k : Nat) : (be48 b k).toNat = (be16 b k).toNat * 2 ^ 32 + (be32 b (k + 2)).toNat :=
  toNat_append (be16 b k) (be32 b (k + 2))

theorem be16_put16 (v : BitVec 16) (rest : List Byte) : be16 (put16 v ++ rest) 0 = v := append_halves16 v

theorem be32_put32 (v : BitVec 32) (rest : List Byte) : be32 (put32 v ++ rest) 0 = v :=
  (congrArg₂ (· ++ ·) (append_halves16 _) (append_halves16 _)).trans (append_halves32 v)

theorem be48_put48 (v : BitVec 48) (rest : List Byte) : be48 (put48 v ++ rest) 0 = v :=
  (congrArg₂ (· ++ ·) (append_halves16 _) (be32_put32 (v.extractLsb' 0 32) rest)).trans (append_halves48 v)

/-- Settles O22: a field is its bytes put together, and a put field its halves. -/
theorem fieldsAreBigEndian : Obligations.FieldsAreBigEndian := by
  unfold Obligations.FieldsAreBigEndian
  exact ⟨be16_toNat, be32_toNat, be48_toNat, be16_put16, be32_put32, be48_put48⟩

/-! ### The one's-complement sum -/

/-- Settles O23: `osum` is `fold16` of the word sum, which is the sum over word positions. -/
theorem osumFoldsTheWordSum : Obligations.OsumFoldsTheWordSum := by
  unfold Obligations.OsumFoldsTheWordSum
  intro b
  simp only [← wordSum_eq_range, osum_eq]
  exact ⟨fold16_le _, fold16_mod _, fold16_eq_zero _, fold16_small, by rw [cksum_toNat, osum_eq]⟩

/-- Settles O24: feeding pieces in order is feeding their concatenation. -/
theorem streamedSumIsOsum : Obligations.StreamedSumIsOsum := by
  unfold Obligations.StreamedSumIsOsum
  rintro b pieces rfl
  rw [feedAll_flatten, clear_feedAll]

/-- Writing a checksum over a field is cutting it out and putting the checksum in its place. -/
theorem withChecksum_replace (p q : List Byte) (x y : Byte) (c : BitVec 16) :
    withChecksum (p ++ [x, y] ++ q) p.length c = p ++ put16 c ++ q := by
  simp [withChecksum, slice]

/-- Settles O25: the checksum replaces a zeroed field at an even offset. -/
theorem embeddedChecksumSumsToAllOnes : Obligations.EmbeddedChecksumSumsToAllOnes := by
  unfold Obligations.EmbeddedChecksumSumsToAllOnes
  intro b k hk hlt
  have hlen : (b.take k).length = k := by rw [List.length_take]; omega
  have hseal := withChecksum_replace (b.take k) (b.drop (k + 2)) 0 0
    (cksum (b.take k ++ [0#8, 0#8] ++ b.drop (k + 2)))
  rw [hlen] at hseal
  have hsum : osum (b.take k ++ put16 (cksum (b.take k ++ [0#8, 0#8] ++ b.drop (k + 2))) ++ b.drop (k + 2)) = 0xFFFF := by
    rw [← hseal]
    refine osum_sealed _ k hk ?_ ?_
    · simp only [List.length_append, hlen, List.length_cons, List.length_nil, List.length_drop]
      omega
    · rw [List.append_assoc, List.drop_append_of_le_length hlen.ge, List.drop_of_length_le hlen.le]
      rfl
  refine ⟨hsum, BitVec.eq_of_toNat_eq ?_⟩
  rw [cksum_toNat, hsum]
  rfl

theorem osum_eq_zero (b : List Byte) : osum b = 0 ↔ ∀ x ∈ b, x = 0#8 := by
  rw [osum_eq, fold16_eq_zero, wordSum_eq_zero]

theorem osum_append_even (a c : List Byte) (h : a.length % 2 = 0) :
    osum (a ++ c) = foldCarry (osum a + osum c) (osum a + osum c) := by
  rw [foldCarry_eq _ _ (Nat.le_refl _), osum_eq, osum_eq, osum_eq, wordSum_append _ _ h, fold16_add_left, fold16_add_right]

theorem wordSum_words (us : List (Byte × Byte)) :
    wordSum (us.flatMap fun u => [u.1, u.2]) = (us.map fun u => u.1.toNat * 256 + u.2.toNat).sum := by
  induction us with
  | nil => rfl
  | cons u us ih =>
    rw [List.flatMap_cons, List.map_cons, List.sum_cons, ← ih]
    rfl

/-- Settles O26: each law is a law of the word sum, folded. -/
theorem checksumLaws : Obligations.ChecksumLaws := by
  unfold Obligations.ChecksumLaws
  refine ⟨osum_eq_zero, fun b n => ?_, fun b h => ?_, osum_append_even, fun us vs h => ?_⟩
  · rw [osum_eq, wordSum_zeros_append, osum_eq]
  · rw [osum_eq, wordSum_odd_zero b h, osum_eq]
  · rw [osum_eq, osum_eq, wordSum_words, wordSum_words, (h.map _).sum_eq]

end Sys2Proof.Machine
end

section
/-! SUPPORT. Proofs about the checksum commands that read the input: CK_ACCUM, CKSUM, CK_VERIFY (40_checksum.md R177, R179,
R180). -/

namespace Sys2Proof.Machine

/-- The accumulator after CKSUM and CK_VERIFY: cleared, and the input fed. -/
def inputSum (s : State) : Accumulator := Accumulator.clear.feedAll (inputBytes s)

theorem inputSum_fin (s : State) : (inputSum s).fin.toNat = osum (inputBytes s) := clear_feedAll _

section
variable {s : State} (hin : InputInRange s)
include hin

theorem exec_ckAccum_of_inputInRange :
    exec .ckAccum s = .next (s.complete { ck := some (s.ck.feedAll (inputBytes s)) }) :=
  (exec_of_input_ok rfl hin).trans rfl

theorem exec_cksum_of_inputInRange :
    exec .cksum s = .next (s.complete
      { regs := [(0, zext64 (0xFFFF#16 - (inputSum s).fin)), (16, zext64 (inputSum s).fin)], ck := some (inputSum s) }) :=
  (exec_of_input_ok rfl hin).trans rfl

theorem exec_ckVerify_of_inputInRange :
    exec .ckVerify s = .next (s.complete
      { regs := [(0, if (inputSum s).fin = 0xFFFF#16 then 1#64 else 0#64), (16, zext64 (inputSum s).fin)]
        ck := some (inputSum s) }) := (exec_of_input_ok rfl hin).trans rfl

end

theorem inputBytes_of_length_zero {s : State} (h : (s.reg 2).toNat = 0) : inputBytes s = [] := by
  rw [inputBytes, h]
  rfl

theorem inputBytes_of_length_one {s : State} (h : (s.reg 2).toNat = 1) : inputBytes s = [s.byteAt (s.reg 1).toNat] := by
  rw [inputBytes, h]
  rfl

/-- Feeding one byte with a byte pending completes a word (R173). -/
theorem feed_of_pending {k : Accumulator} (h : k.pv = true) (c : Byte) :
    k.feed c = { acc := add1c k.acc (k.pb ++ c), pv := false, pb := 0#8 } := by
  simp [Accumulator.feed, h]

/-- Feeding one byte with none pending makes it the pending byte (R173). -/
theorem feed_of_no_pending {k : Accumulator} (h : k.pv = false) (c : Byte) : k.feed c = { acc := k.acc, pv := true, pb := c } := by
  simp [Accumulator.feed, h]

/-- Settles O28: the new accumulator is the old one fed with the input, by `feed` for one byte and by `clear_feedAll` for
a stream. -/
theorem ckAccumFeedsTheInput : Obligations.CkAccumFeedsTheInput := by
  unfold Obligations.CkAccumFeedsTheInput
  intro s hin
  refine ⟨_, exec_ckAccum_of_inputInRange hin, completed_complete _ _, keeps_complete _ _ _ (by simp), rfl,
    byteAt_complete_none _ _ rfl, ?_⟩
  simp only [complete_ck, Option.getD_some]
  refine ⟨fun h0 => ?none, fun h1 hpv => ?pending, fun h1 hpv => ?word, fun fed hfed => ?stream⟩
  case none => rw [inputBytes_of_length_zero h0]; rfl
  case pending =>
    rw [inputBytes_of_length_one h1]
    exact feed_of_no_pending hpv _
  case word =>
    have hfeed : s.ck.feedAll (inputBytes s) =
        { acc := add1c s.ck.acc (s.ck.pb ++ s.byteAt (s.reg 1).toNat), pv := false, pb := 0#8 } := by
      rw [inputBytes_of_length_one h1]
      exact feed_of_pending hpv _
    have hword : (s.ck.pb ++ s.byteAt (s.reg 1).toNat : BitVec 16).toNat =
        s.ck.pb.toNat * 256 + (s.byteAt (s.reg 1).toNat).toNat := toNat_append _ _
    rw [hfeed, ← hword]
    exact ⟨rfl, rfl, add1c_toNat_carry _ _⟩
  case stream =>
    rw [hfed, ← feedAll_append]
    exact ⟨rfl, clear_feedAll _, clear_feedAll_pv _⟩

/-- Settles O29: the fed accumulator reads as `osum`. -/
theorem cksumOfTheInput : Obligations.CksumOfTheInput := by
  unfold Obligations.CksumOfTheInput
  intro s hin
  refine ⟨_, exec_cksum_of_inputInRange hin, completed_complete _ _, keeps_complete _ _ _ (by simp), rfl,
    byteAt_complete_none _ _ rfl, ?_, ?_, rfl⟩
  · rw [← inputSum_fin, ← complement16_toNat, ← zext64_eq_ofNat]
    simp [reg_complete_lookup]
  · rw [← inputSum_fin, ← zext64_eq_ofNat]
    simp [reg_complete_lookup]

theorem inputSum_fin_eq_allOnes (s : State) : (inputSum s).fin = 0xFFFF#16 ↔ osum (inputBytes s) = 0xFFFF := by
  rw [← BitVec.toNat_inj, inputSum_fin]
  rfl

/-- Settles O30: the sum is all ones exactly when `osum` is 0xFFFF. -/
theorem ckVerifyTestsForAllOnes : Obligations.CkVerifyTestsForAllOnes := by
  unfold Obligations.CkVerifyTestsForAllOnes
  intro s hin
  refine ⟨_, exec_ckVerify_of_inputInRange hin, completed_complete _ _, keeps_complete _ _ _ (by simp), rfl,
    byteAt_complete_none _ _ rfl, ?_, ?_, rfl⟩
  · simp [reg_complete_lookup, inputSum_fin_eq_allOnes]
  · rw [← inputSum_fin, ← zext64_eq_ofNat]
    simp [reg_complete_lookup]

/-- CK_VERIFY of bytes that sum to all ones. -/
theorem ckVerify_of_allOnes {s t : State} (hin : InputInRange s) (hsum : osum (inputBytes s) = 0xFFFF)
    (ht : exec .ckVerify s = .next t) : t.reg 0 = 1 ∧ t.reg 16 = 0xFFFF := by
  have hfin := (inputSum_fin_eq_allOnes s).2 hsum
  cases (exec_ckVerify_of_inputInRange hin).symm.trans ht
  simp [reg_complete_lookup, hfin, zext64]

end Sys2Proof.Machine
end

section
/-! SUPPORT. What a round trip needs: a command that succeeded, the bytes it wrote read back, and bytes written where they
stood (10_state.md R33; 20_memory.md R84, R85). -/

namespace Sys2Proof.Machine

/-! ### A command that succeeded -/

theorem exec_deterministic {i : Instr} {s t u : State} (h : exec i s = .next t) (h' : exec i s = .next u) : t = u :=
  Host.Outcome.next.inj (h.symm.trans h')

theorem effects_of_success {i : Instr} {s t : State} {r : Except CmdError Effects} (h : exec i s = finish s r)
    (ht : exec i s = .next t) (hok : t.status.fail = false) : ∃ e, r = .ok e ∧ t = s.complete e := by
  rcases finish_cases _ _ _ (h.symm.trans ht) with he | ⟨e, -, rfl⟩
  · exact he
  · simp [statusAtEnd] at hok

/-- A command that reads the input and succeeded had its input in range, and answers what its rest does. -/
theorem input_of_success {i : Instr} {s t : State} {f : List Byte → Except CmdError Effects}
    (h : exec i s = finish s (s.input >>= f)) (ht : exec i s = .next t) (hok : t.status.fail = false) :
    InputInRange s ∧ ∃ e, f (inputBytes s) = .ok e ∧ t = s.complete e := by
  obtain ⟨e, he, rfl⟩ := effects_of_success h ht hok
  obtain ⟨b, hb, hf⟩ := bind_ok he
  obtain ⟨hin, rfl⟩ := input_eq_ok hb
  exact ⟨hin, e, hf, rfl⟩

/-- A builder that succeeded had its output in range and built its bytes. -/
theorem builds_of_success {i : Instr} {s t : State} {b : List Byte} (h : exec i s = finish s (s.emit b))
    (ht : exec i s = .next t) (hok : t.status.fail = false) : OutputInRange s b.length ∧ Builds s t b := by
  obtain ⟨e, he, rfl⟩ := effects_of_success h ht hok
  obtain ⟨hout, rfl⟩ := emit_eq_ok he
  exact ⟨hout, builds_complete⟩

section
variable {s t : State} {b : List Byte} (h : Builds s t b)
include h

theorem Builds.completed : Completed s t := h.1

theorem Builds.keeps : Keeps s t [0] := h.2.1

theorem Builds.count : t.reg 0 = word64 b.length := h.2.2.2.2.1

theorem Builds.stored : Stored s t (s.reg 3).toNat b := h.2.2.2.2.2

end

/-! ### Reading back what a builder wrote -/

/-- The input descriptor set to n bytes at a. -/
def describe (t : State) (a n : Word) : State := (t.setReg 1 a).setReg 2 n

theorem describe_reg_one (t : State) (a n : Word) : (describe t a n).reg 1 = a := by
  rw [describe, reg_setReg_other _ _ (by decide), reg_setReg_same]

theorem describe_reg_two (t : State) (a n : Word) : (describe t a n).reg 2 = n := reg_setReg_same _ _ _

theorem inputBytes_describe (t : State) (a n : Word) : inputBytes (describe t a n) = t.bytesAt a.toNat n.toNat := by
  rw [inputBytes, describe_reg_one, describe_reg_two, describe, bytesAt_setReg, bytesAt_setReg]

theorem inputInRange_describe (t : State) (a n : Word) :
    InputInRange (describe t a n) ↔ a.toNat + n.toNat ≤ t.params.pbufSize := by
  rw [InputInRange, describe_reg_one, describe_reg_two, describe, setReg_params, setReg_params]

/-- After a builder, the input descriptor set to the bytes it wrote. -/
def reread (s t : State) : State := describe t (s.reg 3) (t.reg 0)

theorem reread_reg_one (s t : State) : (reread s t).reg 1 = s.reg 3 := describe_reg_one _ _ _

theorem reread_reg_two (s t : State) : (reread s t).reg 2 = t.reg 0 := describe_reg_two _ _ _

theorem outputInRange_lt {s : State} {n : Nat} (hlegal : s.params.legal = true) (hout : OutputInRange s n) :
    (s.reg 3).toNat + n ≤ 2 ^ 31 := by
  obtain ⟨-, hsize, -⟩ := legal_bounds hlegal
  exact Nat.le_trans hout hsize

theorem inputInRange_lt {s : State} (hlegal : s.params.legal = true) (hin : InputInRange s) :
    (s.reg 1).toNat + (s.reg 2).toNat ≤ 2 ^ 31 := by
  obtain ⟨-, hsize, -⟩ := legal_bounds hlegal
  exact Nat.le_trans hin hsize

section
variable {s t : State} {b : List Byte} (hlegal : s.params.legal = true) (hout : OutputInRange s b.length)
  (hb : Builds s t b)
include hlegal hout hb

theorem reread_length : ((reread s t).reg 2).toNat = b.length := by
  have hlt := outputInRange_lt hlegal hout
  rw [reread_reg_two, hb.count, toNat_word64 (by omega)]

theorem reread_inputBytes : inputBytes (reread s t) = b := by
  have hlen := reread_length hlegal hout hb
  rw [reread_reg_two] at hlen
  rw [reread, inputBytes_describe, hlen, hb.stored.bytesAt]

theorem reread_inputInRange : InputInRange (reread s t) := by
  have hlen := reread_length hlegal hout hb
  rw [reread_reg_two] at hlen
  rw [reread, inputInRange_describe, hlen, hb.keeps.params]
  exact hout

end

/-- The first k bytes of what was stored. -/
theorem Stored.bytesAt_take {s t : State} {a : Nat} {b : List Byte} (h : Stored s t a b) {k : Nat} (hk : k ≤ b.length) :
    t.bytesAt a k = b.take k := by
  conv => rhs; rw [← h.bytesAt]
  rw [State.bytesAt, State.bytesAt, ← List.map_take, List.take_range, Nat.min_eq_left hk]

/-- The bytes from offset k on of what was stored. -/
theorem Stored.bytesAt_drop {s t : State} {a : Nat} {b : List Byte} (h : Stored s t a b) (k : Nat) :
    t.bytesAt (a + k) (b.length - k) = b.drop k := by
  rw [← Machine.bytesAt_drop, h.bytesAt]

theorem toNat_add_of_lt {x : Word} {k : Nat} (h : x.toNat + k < 2 ^ 64) : (x + BitVec.ofNat 64 k).toNat = x.toNat + k := by
  rw [BitVec.toNat_add, BitVec.toNat_ofNat, Nat.mod_eq_of_lt (a := k) (by omega), Nat.mod_eq_of_lt h]

theorem toNat_sub_of_le {x : Word} {k : Nat} (h : k ≤ x.toNat) : (x - BitVec.ofNat 64 k).toNat = x.toNat - k := by
  have hx := x.isLt
  rw [BitVec.toNat_sub, BitVec.toNat_ofNat, Nat.mod_eq_of_lt (a := k) (by omega)]
  omega

theorem SamePbuf.bytesAt {s t : State} (h : SamePbuf s t) (a n : Nat) : t.bytesAt a n = s.bytesAt a n := by
  simp only [State.bytesAt, h _]

theorem samePbuf_reread (s t : State) (regs : List (Reg × Word)) : SamePbuf t ((reread s t).complete { regs := regs }) := by
  intro a
  rw [byteAt_complete_none _ _ rfl, reread, describe, byteAt_setReg, byteAt_setReg]

/-- A payload descriptor read from what was stored is the payload. -/
theorem Stored.payload {s t u : State} {x n : Word} {b : List Byte} {k : Nat} (h : Stored s t x.toNat b)
    (hlt : x.toNat + b.length < 2 ^ 64) (hk : k ≤ b.length) (hn : n.toNat = b.length - k)
    (hpbuf : SamePbuf t u) : u.bytesAt (x + BitVec.ofNat 64 k).toNat n.toNat = b.drop k := by
  rw [hpbuf.bytesAt, toNat_add_of_lt (by omega), hn, h.bytesAt_drop]

/-! ### Writing bytes where they stand -/

/-- Bytes written where they already stand change nothing. -/
theorem samePbuf_of_stored {s p t : State} {a n : Nat} (h : Stored p t a (s.bytesAt a n)) (hp : SamePbuf s p) :
    SamePbuf s t := by
  obtain ⟨hinside, houtside⟩ := h
  intro x
  by_cases hx : a ≤ x ∧ x < a + n
  · have := hinside (x - a) (by rw [bytesAt_length]; omega)
    rw [bytesAt_getElem] at this
    rwa [show a + (x - a) = x by omega] at this
  · exact (houtside x (by rw [bytesAt_length]; omega)).trans (hp x)

/-- An input descriptor that skips the first k bytes of the input of s reads the rest of it. -/
theorem inputBytes_of_payload {s p : State} {k : Nat} (hlegal : s.params.legal = true) (hin : InputInRange s)
    (hk : k ≤ (s.reg 2).toNat) (hparams : p.params = s.params) (hpbuf : SamePbuf s p)
    (haddr : p.reg 1 = s.reg 1 + BitVec.ofNat 64 k) (hlen : p.reg 2 = s.reg 2 - BitVec.ofNat 64 k) :
    InputInRange p ∧ inputBytes p = (inputBytes s).drop k := by
  have hlt := inputInRange_lt hlegal hin
  have haddr' : (p.reg 1).toNat = (s.reg 1).toNat + k := by rw [haddr, toNat_add_of_lt (by omega)]
  have hlen' : (p.reg 2).toNat = (s.reg 2).toNat - k := by rw [hlen, toNat_sub_of_le hk]
  unfold InputInRange at hin ⊢
  refine ⟨by rw [haddr', hlen', hparams]; omega, ?_⟩
  rw [inputBytes, haddr', hlen', inputBytes, bytesAt_drop, hpbuf.bytesAt]

/-- A builder that writes the input of s to the address it was read from leaves PBUF as it was in s. -/
theorem emit_restores_input {i : Instr} {s p u : State} (hemit : exec i p = finish p (p.emit (inputBytes s)))
    (hin : InputInRange s) (hparams : p.params = s.params) (hpbuf : SamePbuf s p) (hout : p.reg 3 = s.reg 1)
    (hu : exec i p = .next u) : Completed p u ∧ u.reg 0 = s.reg 2 ∧ SamePbuf s u := by
  obtain ⟨u', hu', hb⟩ := exec_of_emit_ok hemit (by rw [OutputInRange, hout, inputBytes_length, hparams]; exact hin)
  cases exec_deterministic hu hu'
  refine ⟨hb.completed, ?_, samePbuf_of_stored (hout ▸ hb.stored) hpbuf⟩
  rw [hb.count, inputBytes_length, word64, BitVec.ofNat_toNat, BitVec.setWidth_eq]

end Sys2Proof.Machine
end

section
/-! SUPPORT. The round trip of the Ethernet commands (41_ethernet.md). -/

namespace Sys2Proof.Machine

/-- The bytes i to i+k−1, and the rest. -/
theorem take_drop_append (b : List Byte) (i k : Nat) : (b.drop i).take k ++ b.drop (i + k) = b.drop i := by
  rw [← List.drop_drop, List.take_append_drop]

/-! ### The fields of a frame -/

theorem etherFrame_dst (d m : BitVec 48) (ty : BitVec 16) (p : List Byte) : be48 (etherFrame d m ty p) 0 = d := by
  rw [etherFrame, List.append_assoc, List.append_assoc, be48_put48]

theorem etherFrame_drop_six (d m : BitVec 48) (ty : BitVec 16) (p : List Byte) :
    (etherFrame d m ty p).drop 6 = put48 m ++ (put16 ty ++ p) := rfl

theorem etherFrame_src (d m : BitVec 48) (ty : BitVec 16) (p : List Byte) : be48 (etherFrame d m ty p) 6 = m := by
  rw [← Nat.add_zero 6, ← be48_drop, etherFrame_drop_six, be48_put48]

theorem etherFrame_type (d m : BitVec 48) (ty : BitVec 16) (p : List Byte) : be16 (etherFrame d m ty p) 12 = ty :=
  append_halves16 ty

/-- A frame put together from its own fields. -/
theorem etherFrame_of_fields {b : List Byte} (h : 14 ≤ b.length) :
    etherFrame (be48 b 0) (be48 b 6) (be16 b 12) (b.drop 14) = b := by
  rw [etherFrame, put48_be48 b 0 (by omega), put48_be48 b 6 (by omega), put16_be16 b 12 (by omega), List.append_assoc,
    List.append_assoc, take_drop_append b 12 2, take_drop_append b 6 6, take_drop_append b 0 6, List.drop_zero]

/-! ### The commands -/

theorem ethBuild_of_success {s t : State} (ht : exec .ethBuild s = .next t) (hok : t.status.fail = false) :
    InputInRange s ∧ OutputInRange s (ethBuildFrame s).length ∧ Builds s t (ethBuildFrame s) := by
  obtain ⟨hin, -⟩ := input_of_success rfl ht hok
  exact ⟨hin, builds_of_success (exec_ethBuild_eq_emit hin) ht hok⟩

theorem ethParse_of_success {s t : State} (ht : exec .ethParse s = .next t) (hok : t.status.fail = false) :
    InputInRange s ∧ 14 ≤ (s.reg 2).toNat ∧ t = s.complete { regs := ethParseResults s } := by
  obtain ⟨hin, e, he, -⟩ := input_of_success rfl ht hok
  obtain ⟨_, hlen, -⟩ := bind_ok he
  have h14 := requireLen_eq_ok hlen
  rw [inputBytes_length] at h14
  exact ⟨hin, h14, exec_deterministic ht (exec_ethParse_of_complete hin h14)⟩

theorem zext64_setWidth {n : Nat} (v : BitVec n) (h : n ≤ 64) : (zext64 v).setWidth n = v := by
  rw [zext64, BitVec.setWidth_setWidth_of_le v h, BitVec.setWidth_eq]

/-- The operands with which ETH_BUILD writes back the frame of s that ETH_PARSE has taken apart: the payload descriptor as
input, the frame's own address as output, and its fields. -/
structure HoldsParsedFrame (s p : State) : Prop where
  params : p.params = s.params
  pbuf : SamePbuf s p
  addr : p.reg 1 = s.reg 1 + 14#64
  length : p.reg 2 = s.reg 2 - 14#64
  out : p.reg 3 = s.reg 1
  dst : p.macField 4 = be48 (inputBytes s) 0
  src : p.macField 5 = be48 (inputBytes s) 6
  type : p.half 6 = be16 (inputBytes s) 12

theorem holdsParsedFrame_rebuild (s : State) :
    let t := s.complete { regs := ethParseResults s }
    HoldsParsedFrame s ((((((t.setReg 1 (t.reg 28)).setReg 2 (t.reg 29)).setReg 3 (s.reg 1)).setReg 4 (t.reg 16)).setReg 5
      (t.reg 17)).setReg 6 (t.reg 18)) := by
  constructor
  case params => simp only [setReg_params, complete_params]
  case pbuf =>
    intro a
    simp only [byteAt_setReg]
    exact byteAt_complete_none s _ rfl a
  all_goals
    simp [State.macField, State.half, State.field, reg_setReg, reg_complete_lookup, ethParseResults, zext64_setWidth]

theorem HoldsParsedFrame.restores {s p u : State} (h : HoldsParsedFrame s p) (hlegal : s.params.legal = true)
    (hin : InputInRange s) (h14 : 14 ≤ (s.reg 2).toNat) (hu : exec .ethBuild p = .next u) :
    u.reg 0 = s.reg 2 ∧ SamePbuf s u := by
  obtain ⟨hpin, hpay⟩ := inputBytes_of_payload hlegal hin h14 h.params h.pbuf h.addr h.length
  have hframe : ethBuildFrame p = inputBytes s := by
    rw [ethBuildFrame, h.dst, h.src, h.type, hpay]
    exact etherFrame_of_fields (by rwa [inputBytes_length])
  have hemit := exec_ethBuild_eq_emit hpin
  rw [hframe] at hemit
  exact (emit_restores_input hemit hin h.params h.pbuf h.out hu).2

/-- Settles O34: the fields of the frame built are its operands, and a frame put together from its fields is itself. -/
theorem ethernetRoundTrip : Obligations.EthernetRoundTrip := by
  unfold Obligations.EthernetRoundTrip
  refine ⟨fun s t u hlegal ht hok hu => ?parse_build, fun s t u hlegal ht hok hu => ?build_parse⟩
  case parse_build =>
    obtain ⟨-, hout, hb⟩ := ethBuild_of_success ht hok
    have hlen := reread_length hlegal hout hb
    have hlt := outputInRange_lt hlegal hout
    have hcount := hb.count
    rw [ethBuildFrame_length] at hlen hlt hcount
    rw [word64_add_toNat] at hcount
    have hparse := exec_ethParse_of_complete (reread_inputInRange hlegal hout hb) (by omega)
    cases exec_deterministic hu hparse
    have h28 : ((reread s t).complete { regs := ethParseResults (reread s t) }).reg 28 = s.reg 3 + 14#64 := by
      simp [reg_complete_lookup, ethParseResults, reread_reg_one]
    have h29 : ((reread s t).complete { regs := ethParseResults (reread s t) }).reg 29 = s.reg 2 := by
      simp [reg_complete_lookup, ethParseResults, reread_reg_two, hcount]
    refine ⟨?_, ?_, ?_, h28, h29, ?_⟩
    · simp [reg_complete_lookup, ethParseResults, reread_inputBytes hlegal hout hb, ethBuildFrame, etherFrame_dst, zext64,
        State.macField, State.field]
    · simp [reg_complete_lookup, ethParseResults, reread_inputBytes hlegal hout hb, ethBuildFrame, etherFrame_src, zext64,
        State.macField, State.field]
    · simp [reg_complete_lookup, ethParseResults, reread_inputBytes hlegal hout hb, ethBuildFrame, etherFrame_type, zext64,
        State.half, State.field]
    · rw [h28, h29]
      exact hb.stored.payload (k := 14) (by rw [ethBuildFrame_length]; omega) (by rw [ethBuildFrame_length]; omega)
        (by rw [ethBuildFrame_length]; omega) (samePbuf_reread s t _)
  case build_parse =>
    obtain ⟨hin, h14, rfl⟩ := ethParse_of_success ht hok
    exact (holdsParsedFrame_rebuild s).restores hlegal hin h14 hu

end Sys2Proof.Machine
end

section
/-! SUPPORT. Proofs about ARP packets and their four commands (42_arp.md R220–R227). -/

namespace Sys2Proof.Machine

/-! ### Packets and their bytes -/

theorem arpBytes_sha (p : ArpPacket) : p.bytes.drop 8 = put48 p.sha ++ (put32 p.spa ++ (put48 p.tha ++ put32 p.tpa)) := rfl

theorem arpBytes_spa (p : ArpPacket) : p.bytes.drop 14 = put32 p.spa ++ (put48 p.tha ++ put32 p.tpa) := rfl

theorem arpBytes_tha (p : ArpPacket) : p.bytes.drop 18 = put48 p.tha ++ put32 p.tpa := rfl

theorem arpBytes_tpa (p : ArpPacket) : p.bytes.drop 24 = put32 p.tpa ++ [] := rfl

/-- Parsing what a packet is written as gives the packet (R221, R122). -/
theorem arpParse_bytes (p : ArpPacket) : arpParse p.bytes = p := by
  have hsha : be48 p.bytes 8 = p.sha := by rw [← Nat.add_zero 8, ← be48_drop, arpBytes_sha, be48_put48]
  have hspa : be32 p.bytes 14 = p.spa := by rw [← Nat.add_zero 14, ← be32_drop, arpBytes_spa, be32_put32]
  have htha : be48 p.bytes 18 = p.tha := by rw [← Nat.add_zero 18, ← be48_drop, arpBytes_tha, be48_put48]
  have htpa : be32 p.bytes 24 = p.tpa := by rw [← Nat.add_zero 24, ← be32_drop, arpBytes_tpa, be32_put32]
  have hhtype : be16 p.bytes 0 = p.htype := append_halves16 _
  have hptype : be16 p.bytes 2 = p.ptype := append_halves16 _
  have hoper : be16 p.bytes 6 = p.oper := append_halves16 _
  simp only [arpParse, hsha, hspa, htha, htpa, hhtype, hptype, hoper]
  rfl

/-- A field's bytes as the slice i to i+k−1. -/
theorem take_drop_eq_slice (b : List Byte) (i k : Nat) : (b.drop i).take k = (b.take (i + k)).drop i := by
  rw [List.drop_take, Nat.add_sub_cancel_left]

theorem put32_be32_slice {b : List Byte} {k : Nat} (h : k + 4 ≤ b.length) : put32 (be32 b k) = (b.take (k + 4)).drop k := by
  rw [put32_be32 b k h, take_drop_eq_slice]

theorem put48_be48_slice {b : List Byte} {k : Nat} (h : k + 6 ≤ b.length) : put48 (be48 b k) = (b.take (k + 6)).drop k := by
  rw [put48_be48 b k h, take_drop_eq_slice]

/-- The first six bytes of a packet are its first four fields. -/
theorem arpHead_bytes {b : List Byte} (h : 6 ≤ b.length) :
    put16 (be16 b 0) ++ put16 (be16 b 2) ++ [byteOf b 4, byteOf b 5] = b.take 6 := by
  have hpair : [byteOf b 4, byteOf b 5] = put16 (be16 b 4) := (put16_append _ _).symm
  rw [hpair, put16_be16 b 0 (by omega), put16_be16 b 2 (by omega), put16_be16 b 4 (by omega), List.drop_zero,
    ← List.take_add, ← List.take_add]

/-- The reply to a packet, byte for byte (R224, R225). -/
theorem arpReply_bytes {b : List Byte} (h : 28 ≤ b.length) (m : BitVec 48) :
    (arpReply (arpParse b) m).bytes = b.take 6 ++ [0x00, 0x02] ++ put48 m ++ put32 (be32 b 24) ++ (b.take 14).drop 8
      ++ (b.take 18).drop 14 := by
  have htwo : put16 2 = [0x00, 0x02] := by decide
  rw [← arpHead_bytes (by omega), ← put48_be48_slice (k := 8) (by omega), ← put32_be32_slice (k := 14) (by omega), ← htwo]
  rfl

/-- A request, byte for byte (R223). -/
theorem arpRequest_bytes (m : BitVec 48) (ip target : BitVec 32) :
    (arpRequest m ip target).bytes = [0x00, 0x01, 0x08, 0x00, 0x06, 0x04, 0x00, 0x01] ++ put48 m ++ put32 ip
      ++ [0, 0, 0, 0, 0, 0] ++ put32 target := by
  have hhead : put16 1 ++ put16 0x0800 ++ [6, 4] ++ put16 1 = [0x00, 0x01, 0x08, 0x00, 0x06, 0x04, 0x00, 0x01] := by decide
  have hzero : put48 0 = [0, 0, 0, 0, 0, 0] := by decide
  rw [← hhead, ← hzero]
  rfl

/-! ### ARP_PARSE -/

/-- The results of ARP_PARSE for a packet (R222). -/
def arpParseResults (p : ArpPacket) : List (Reg × Word) :=
  [(16, zext64 p.htype), (17, zext64 p.ptype), (18, zext64 p.hlen), (19, zext64 p.plen), (20, zext64 p.oper),
    (21, zext64 p.sha), (22, zext64 p.spa), (23, zext64 p.tha), (24, zext64 p.tpa), (25, zext64 (arpClass p.oper))]

theorem exec_arpParse_of_complete {s : State} (hin : InputInRange s) (hlen : 28 ≤ (s.reg 2).toNat) :
    exec .arpParse s = .next (s.complete { regs := arpParseResults (arpParse (inputBytes s)) }) :=
  (exec_of_input_ok rfl hin).trans (by rw [requireLen_bind_ok (by rwa [inputBytes_length])]; rfl)

/-- Settles O35: the results are the fields of the parsed packet. -/
theorem arpParseDecodesThePacket : Obligations.ArpParseDecodesThePacket := by
  unfold Obligations.ArpParseDecodesThePacket
  intro s hin hlen
  refine ⟨_, exec_arpParse_of_complete hin hlen, writesOnly_complete _ _ _ rfl, ?_⟩
  simp [reg_complete_lookup, arpParseResults, arpParse, zext64, byteOf, arpClass, apply_ite (BitVec.setWidth 64)]

/-! ### The builders -/

/-- Settles O36: the emitted bytes are those of `arpRequest`. -/
theorem arpBuildReqWritesTheRequest : Obligations.ArpBuildReqWritesTheRequest := by
  unfold Obligations.ArpBuildReqWritesTheRequest
  intro s hout
  obtain ⟨t, ht, hb⟩ := exec_of_emit_ok (exec_arpBuildReq s) (by rwa [arpBytes_length])
  rw [arpRequest_bytes] at hb
  exact ⟨t, ht, hb⟩

/-- Settles O37: the emitted bytes are those of `arpReply`. -/
theorem arpBuildReplySwapsAndSubstitutes : Obligations.ArpBuildReplySwapsAndSubstitutes := by
  unfold Obligations.ArpBuildReplySwapsAndSubstitutes
  intro s hin hlen hout
  have h28 : 28 ≤ (inputBytes s).length := by rwa [inputBytes_length]
  have hemit := exec_arpBuildReply_eq_emit hin hlen
  have hout' : OutputInRange s (arpReply (arpParse (inputBytes s)) (s.macField 4)).bytes.length := by
    rwa [arpBytes_length]
  obtain ⟨t, ht, hb⟩ := exec_of_emit_ok hemit hout'
  rw [arpReply_bytes h28, put32_be32_slice (by omega)] at hb
  exact ⟨t, ht, hb⟩

/-! ### ARP_HANDLE -/

theorem answersArp_iff (s : State) (p : ArpPacket) : s.answersArp p = true ↔ p.oper = 1#16 ∧ p.tpa = s.ourIp := by
  simp [State.answersArp]

/-- The cache after the sender of a packet is learned. -/
def learnedCache (s : State) (b : List Byte) : Cache := (s.insert (be32 b 14) (be48 b 8)).1

/-- The answer of ARP_HANDLE to the packet in the input (R227). -/
def arpAnswer (s : State) : Store :=
  { addr := (s.reg 3).toNat, bytes := (arpReply (arpParse (inputBytes s)) s.ourMac).bytes }

section
variable {s : State} (hin : InputInRange s) (hlen : 28 ≤ (s.reg 2).toNat)
include hin hlen

theorem exec_arpHandle_of_asked (hask : s.answersArp (arpParse (inputBytes s)) = true) :
    exec .arpHandle s = finish s ((s.emit (arpReply (arpParse (inputBytes s)) s.ourMac).bytes).map fun reply =>
      { reply with cache := some (learnedCache s (inputBytes s)) }) := by
  refine (exec_of_input_ok rfl hin).trans ?_
  rw [requireLen_bind_ok (by rwa [inputBytes_length])]
  exact congrArg (finish s) (if_pos hask)

theorem exec_arpHandle_of_answered (hask : s.answersArp (arpParse (inputBytes s)) = true) (hout : OutputInRange s 28) :
    exec .arpHandle s = .next (s.complete
      { regs := [(0, 28#64)], cache := some (learnedCache s (inputBytes s)), store := some (arpAnswer s) }) := by
  rw [exec_arpHandle_of_asked hin hlen hask, emit_ok (by rwa [arpBytes_length]), arpBytes_length]
  rfl

theorem exec_arpHandle_of_not_asked (hask : ¬ s.answersArp (arpParse (inputBytes s)) = true) :
    exec .arpHandle s = .next (s.complete { regs := [(0, 0#64)], cache := some (learnedCache s (inputBytes s)) }) := by
  refine (exec_of_input_ok rfl hin).trans ?_
  rw [requireLen_bind_ok (by rwa [inputBytes_length])]
  exact congrArg (finish s) (if_neg hask)

end

/-- Settles O38: the sender is learned in every case; the reply is emitted for a Request for OUR_IP. -/
theorem arpHandleLearnsAndAnswers : Obligations.ArpHandleLearnsAndAnswers := by
  unfold Obligations.ArpHandleLearnsAndAnswers
  intro s hin hlen
  have h28 : 28 ≤ (inputBytes s).length := by rwa [inputBytes_length]
  refine ⟨fun hask hout => ?answered, fun hask hout => ?unfit, fun hask => ?learned⟩
  case answered =>
    have hbytes := arpReply_bytes h28 s.ourMac
    rw [hask.2] at hbytes
    rw [← hbytes]
    exact ⟨_, exec_arpHandle_of_answered hin hlen ((answersArp_iff _ _).2 hask) hout, completed_complete _ _,
      keeps_complete _ _ _ (by simp), rfl, rfl, by simp [reg_complete_lookup], stored_complete s _ (arpAnswer s) rfl⟩
  case unfit =>
    rw [exec_arpHandle_of_asked hin hlen ((answersArp_iff _ _).2 hask), emit_error (by rwa [arpBytes_length])]
    rfl
  case learned =>
    exact ⟨_, exec_arpHandle_of_not_asked hin hlen fun h => hask ((answersArp_iff _ _).1 h), completed_complete _ _,
      keeps_complete _ _ _ (by simp), rfl, rfl, by simp [reg_complete_lookup], byteAt_complete_none _ _ rfl⟩

/-! ### Round trips -/

/-- Parsing the packet that a builder wrote returns its fields. -/
theorem arpParse_of_built {s t u : State} {p : ArpPacket} (hlegal : s.params.legal = true)
    (hout : OutputInRange s p.bytes.length) (hb : Builds s t p.bytes) (hu : exec .arpParse (reread s t) = .next u) :
    u = (reread s t).complete { regs := arpParseResults p } := by
  have hlen := reread_length hlegal hout hb
  rw [arpBytes_length] at hlen
  have hparse := exec_arpParse_of_complete (reread_inputInRange hlegal hout hb) hlen.ge
  rw [reread_inputBytes hlegal hout hb, arpParse_bytes] at hparse
  exact exec_deterministic hu hparse

theorem arpBuildReply_of_success {s t : State} (ht : exec .arpBuildReply s = .next t) (hok : t.status.fail = false) :
    InputInRange s ∧ 28 ≤ (s.reg 2).toNat := by
  obtain ⟨hin, e, he, -⟩ := input_of_success rfl ht hok
  obtain ⟨_, hlen, -⟩ := bind_ok he
  have h28 := requireLen_eq_ok hlen
  rw [inputBytes_length] at h28
  exact ⟨hin, h28⟩

/-- Settles O39: a packet is what its bytes parse to, and the reply's reply has the addresses swapped back. -/
theorem arpRoundTrip : Obligations.ArpRoundTrip := by
  unfold Obligations.ArpRoundTrip
  refine ⟨fun p => ⟨arpParse_bytes p, arpBytes_length p⟩, fun s t u hlegal ht hok hu => ?request,
    fun s t u v hlegal ht hok hu hv => ?reply, fun q m => ?swap⟩
  case request =>
    obtain ⟨hout, hb⟩ := builds_of_success (exec_arpBuildReq s) ht hok
    cases arpParse_of_built hlegal hout hb hu
    simp [reg_complete_lookup, arpParseResults, arpRequest, zext64, State.macField, State.ipField, State.field]
  case reply =>
    obtain ⟨hin, h28⟩ := arpBuildReply_of_success ht hok
    obtain ⟨hout, hb⟩ := builds_of_success (exec_arpBuildReply_eq_emit hin h28) ht hok
    cases exec_deterministic hu (exec_arpParse_of_complete hin h28)
    cases arpParse_of_built hlegal hout hb hv
    simp [reg_complete_lookup, arpParseResults, arpReply, zext64, State.macField, State.field]
  case swap =>
    rw [arpParse_bytes]
    exact ⟨rfl, rfl, rfl, rfl⟩

end Sys2Proof.Machine
end

section
/-! SUPPORT. Proofs about the IPv4 commands (44_ipv4.md R290–R295). -/

namespace Sys2Proof.Machine

/-! ### IP4_PARSE -/

/-- The results of IP4_PARSE for a header and an input descriptor (R292). -/
def ip4ParseResults (s : State) (h : Ip4Header) : List (Reg × Word) :=
  [(16, zext64 h.version), (17, zext64 h.ihl), (18, zext64 h.tos), (19, zext64 h.totalLength),
    (20, zext64 h.identification), (21, zext64 h.flags), (22, zext64 h.fragmentOffset), (23, zext64 h.ttl),
    (24, zext64 h.protocol), (25, zext64 h.checksum), (26, zext64 h.src), (27, zext64 h.dst),
    (28, s.reg 1 + word64 h.length), (29, s.reg 2 - word64 h.length), (30, s.reg 1 + 20#64), (31, word64 (h.length - 20))]

theorem exec_ip4Parse_of_ok {s : State} {q : Ip4Packet} (hin : InputInRange s) (h : ip4Parse (inputBytes s) = .ok q) :
    exec .ip4Parse s = .next (s.complete { regs := ip4ParseResults s q.header }) :=
  (exec_of_input_ok rfl hin).trans (by rw [h]; rfl)

theorem ip4Header_length (b : List Byte) : (ip4Header b).length = 4 * ((byteOf b 0).toNat % 16) := by
  rw [Ip4Header.length, ip4Header_ihl, Nat.mul_comm]

/-- Settles O46: the results are the fields of the header, the packed ones by their values. -/
theorem ip4ParseDecodesTheHeader : Obligations.Ip4ParseDecodesTheHeader := by
  unfold Obligations.Ip4ParseDecodesTheHeader
  intro s hin b ihl h20 h5 hcut
  have hparse := ip4Parse_ok (b := b) (by rwa [inputBytes_length]) h5 (by rwa [inputBytes_length])
  refine ⟨_, exec_ip4Parse_of_ok hin hparse, writesOnly_complete _ _ _ rfl, ?_⟩
  have hversion := ip4Header_version b
  have hihl := ip4Header_ihl b
  have hflags := ip4Header_flags b
  have hoffset := ip4Header_fragmentOffset b
  have hlength := ip4Header_length b
  simp only [reg_complete_lookup, ip4ParseResults]
  refine ⟨?_, ?_, rfl, rfl, rfl, ?_, ?_, rfl, rfl, rfl, rfl, rfl, ?_, ?_, rfl, ?_⟩
  · exact (zext64_toNat _ (by decide)).trans hversion
  · exact (zext64_toNat _ (by decide)).trans hihl
  · exact (zext64_toNat _ (by decide)).trans hflags
  · exact (zext64_toNat _ (by decide)).trans hoffset
  · rw [hlength]; rfl
  · rw [hlength]; rfl
  · rw [hlength]; rfl

/-! ### Packed fields -/

/-- A field above a smaller one, as the number their bits make (R125). -/
theorem packFields_eq {m k n : Nat} (hn : m + k = n) (a : BitVec m) (b : BitVec k) :
    (a.setWidth n <<< k ||| b.setWidth n) = BitVec.ofNat n (a.toNat * 2 ^ k + b.toNat) := by
  subst hn
  have ha : a.toNat * 2 ^ k + b.toNat < 2 ^ (m + k) := toNat_append a b ▸ (a ++ b).isLt
  have hak : a.toNat < 2 ^ (m + k) := Nat.lt_of_lt_of_le a.isLt (Nat.pow_le_pow_right (by decide) (by omega))
  have hbk : b.toNat < 2 ^ (m + k) := Nat.lt_of_lt_of_le b.isLt (Nat.pow_le_pow_right (by decide) (by omega))
  apply BitVec.eq_of_toNat_eq
  rw [BitVec.toNat_or, BitVec.toNat_shiftLeft, BitVec.toNat_setWidth, BitVec.toNat_setWidth, BitVec.toNat_ofNat,
    Nat.mod_eq_of_lt hak, Nat.mod_eq_of_lt hbk, Nat.mod_eq_of_lt ha, Nat.shiftLeft_eq, Nat.mod_eq_of_lt (by omega),
    ← Nat.shiftLeft_eq, Nat.shiftLeft_add_eq_or_of_lt b.isLt]

theorem packFields_toNat {m k n : Nat} (hn : m + k = n) (a : BitVec m) (b : BitVec k) :
    (a.setWidth n <<< k ||| b.setWidth n).toNat = a.toNat * 2 ^ k + b.toNat := by
  rw [packFields_eq hn, BitVec.toNat_ofNat, Nat.mod_eq_of_lt]
  subst hn
  exact toNat_append a b ▸ (a ++ b).isLt

theorem firstByte_eq (h : Ip4Header) (p : List Byte) :
    byteOf (h.bytes ++ p) 0 = (h.version.setWidth 8 <<< 4) ||| h.ihl.setWidth 8 := rfl

theorem flagsWord_eq (h : Ip4Header) (p : List Byte) :
    be16 (h.bytes ++ p) 6 = (h.flags.setWidth 16 <<< 13) ||| h.fragmentOffset.setWidth 16 := append_halves16 _

/-- Decoding what a header is written as gives the header (R124, R125). -/
theorem ip4Header_bytes (h : Ip4Header) (p : List Byte) : ip4Header (h.bytes ++ p) = h := by
  have hfirst : (byteOf (h.bytes ++ p) 0).toNat = h.version.toNat * 2 ^ 4 + h.ihl.toNat := by
    rw [firstByte_eq, packFields_toNat (m := 4) (k := 4) (n := 8) rfl]
  have hword : (be16 (h.bytes ++ p) 6).toNat = h.flags.toNat * 2 ^ 13 + h.fragmentOffset.toNat := by
    rw [flagsWord_eq, packFields_toNat (m := 3) (k := 13) (n := 16) rfl]
  have hihlLt := h.ihl.isLt
  have hoffsetLt := h.fragmentOffset.isLt
  have hversion : (ip4Header (h.bytes ++ p)).version = h.version :=
    BitVec.eq_of_toNat_eq (by rw [ip4Header_version, hfirst]; omega)
  have hihl : (ip4Header (h.bytes ++ p)).ihl = h.ihl :=
    BitVec.eq_of_toNat_eq (by rw [ip4Header_ihl, hfirst]; omega)
  have hflags : (ip4Header (h.bytes ++ p)).flags = h.flags :=
    BitVec.eq_of_toNat_eq (by rw [ip4Header_flags, hword]; omega)
  have hoffset : (ip4Header (h.bytes ++ p)).fragmentOffset = h.fragmentOffset :=
    BitVec.eq_of_toNat_eq (by rw [ip4Header_fragmentOffset, hword]; omega)
  have hlength : (ip4Header (h.bytes ++ p)).totalLength = h.totalLength := append_halves16 _
  have hident : (ip4Header (h.bytes ++ p)).identification = h.identification := append_halves16 _
  have hsum : (ip4Header (h.bytes ++ p)).checksum = h.checksum := append_halves16 _
  have hsrc : (ip4Header (h.bytes ++ p)).src = h.src := be32_put32 h.src (put32 h.dst ++ p)
  have hdst : (ip4Header (h.bytes ++ p)).dst = h.dst := be32_put32 h.dst p
  calc ip4Header (h.bytes ++ p)
      = { ip4Header (h.bytes ++ p) with
          version := h.version, ihl := h.ihl, flags := h.flags, fragmentOffset := h.fragmentOffset
          totalLength := h.totalLength, identification := h.identification, checksum := h.checksum
          src := h.src, dst := h.dst } := by
        rw [← hversion, ← hihl, ← hflags, ← hoffset, ← hlength, ← hident, ← hsum, ← hsrc, ← hdst]
    _ = h := rfl

/-- The header decoded from a sequence, written out, is its first 20 bytes. -/
theorem ip4Header_bytes_append {b : List Byte} (h : 20 ≤ b.length) : (ip4Header b).bytes ++ b.drop 20 = b := by
  have hfirst : ((ip4Header b).version.setWidth 8 <<< 4) ||| (ip4Header b).ihl.setWidth 8 = byteOf b 0 := by
    apply BitVec.eq_of_toNat_eq
    rw [packFields_toNat (m := 4) (k := 4) (n := 8) rfl, ip4Header_version, ip4Header_ihl]
    omega
  have hword : ((ip4Header b).flags.setWidth 16 <<< 13) ||| (ip4Header b).fragmentOffset.setWidth 16 = be16 b 6 := by
    apply BitVec.eq_of_toNat_eq
    rw [packFields_toNat (m := 3) (k := 13) (n := 16) rfl, ip4Header_flags, ip4Header_fragmentOffset]
    omega
  have hpair0 : [byteOf b 0, byteOf b 1] = put16 (be16 b 0) := (put16_append _ _).symm
  have hpair8 : [byteOf b 8, byteOf b 9] = put16 (be16 b 8) := (put16_append _ _).symm
  have hbytes : (ip4Header b).bytes = put16 (be16 b 0) ++ put16 (be16 b 2) ++ put16 (be16 b 4) ++ put16 (be16 b 6)
      ++ put16 (be16 b 8) ++ put16 (be16 b 10) ++ put32 (be32 b 12) ++ put32 (be32 b 16) := by
    rw [Ip4Header.bytes, hfirst, hword, ← hpair0, ← hpair8]
    rfl
  rw [hbytes, put16_be16 b 0 (by omega), put16_be16 b 2 (by omega), put16_be16 b 4 (by omega), put16_be16 b 6 (by omega),
    put16_be16 b 8 (by omega), put16_be16 b 10 (by omega), put32_be32 b 12 (by omega), put32_be32 b 16 (by omega),
    List.drop_zero, ← List.take_add, ← List.take_add, ← List.take_add, ← List.take_add, ← List.take_add, ← List.take_add,
    ← List.take_add, List.take_append_drop]

/-! ### The builders -/

/-- The header IP4_BUILD writes, before its checksum is known, byte for byte (R293). -/
theorem ip4BuildHeader_bytes (src dst : BitVec 32) (pr ttl : Byte) (n : Nat) :
    (ip4BuildHeader src dst pr ttl n).bytes = [0x45, 0x00] ++ put16 (BitVec.ofNat 16 n) ++ [0, 0, 0, 0] ++ [ttl, pr]
      ++ [0, 0] ++ put32 src ++ put32 dst := by
  have hzero : put16 0 = [0, 0] := by decide
  have hflags : put16 (((0 : BitVec 3).setWidth 16 <<< 13) ||| (0 : BitVec 13).setWidth 16) = [0, 0] := by decide
  have hfirst : (((4 : BitVec 4).setWidth 8 <<< 4) ||| (5 : BitVec 4).setWidth 8) = 0x45 := by decide
  simp only [Ip4Header.bytes, ip4BuildHeader, hzero, hflags, hfirst]
  rfl

/-- Settles O47: the emitted bytes are the sealed header of `ip4BuildHeader` and the input. -/
theorem ip4BuildWritesTheDatagram : Obligations.Ip4BuildWritesTheDatagram := by
  unfold Obligations.Ip4BuildWritesTheDatagram
  intro s hin hfit hout
  obtain ⟨t, ht, hb⟩ := exec_of_emit_ok (exec_ip4Build_eq_emit hin hfit) (by rwa [ip4Datagram_length, inputBytes_length])
  rw [ip4Datagram, ip4BuildHeader_bytes, inputBytes_length] at hb
  exact ⟨t, ht, hb⟩

/-- Settles O48: the emitted bytes are the header of the operands and the input. -/
theorem ip4EmitWritesTheFieldsGiven : Obligations.Ip4EmitWritesTheFieldsGiven := by
  unfold Obligations.Ip4EmitWritesTheFieldsGiven
  intro s hin hout
  obtain ⟨t, ht, hb⟩ := exec_of_emit_ok (exec_ip4Emit_eq_emit hin)
    (by rwa [List.length_append, ip4HeaderBytes_length, inputBytes_length])
  have hfirst := packFields_eq (n := 8) rfl (s.field 4 4) (s.field 4 5)
  have hword := packFields_eq (n := 16) rfl (s.field 3 9) (s.field 13 10)
  simp only [Ip4Header.bytes, State.emitHeader, hfirst, hword] at hb
  simp only [State.field, BitVec.toNat_setWidth] at hb
  exact ⟨t, ht, hb⟩

/-! ### Round trips -/

/-- The header IP4_BUILD writes, its checksum filled in. -/
def ip4SealedHeader (src dst : BitVec 32) (protocol ttl : Byte) (n : Nat) : Ip4Header :=
  { ip4BuildHeader src dst protocol ttl n with checksum := cksum (ip4BuildHeader src dst protocol ttl n).bytes }

theorem ip4SealedHeader_bytes (src dst : BitVec 32) (pr ttl : Byte) (n : Nat) :
    (ip4SealedHeader src dst pr ttl n).bytes = withChecksum (ip4BuildHeader src dst pr ttl n).bytes 10
      (cksum (ip4BuildHeader src dst pr ttl n).bytes) := rfl

theorem ip4Datagram_eq_header_append (src dst : BitVec 32) (pr ttl : Byte) (p : List Byte) :
    ip4Datagram src dst pr ttl p = (ip4SealedHeader src dst pr ttl (20 + p.length)).bytes ++ p := rfl

/-- The header IP4_BUILD writes sums to all ones (R295 (1)). -/
theorem osum_ip4SealedHeader (src dst : BitVec 32) (pr ttl : Byte) (n : Nat) :
    osum (ip4SealedHeader src dst pr ttl n).bytes = 65535 := by
  rw [ip4SealedHeader_bytes]
  exact osum_sealed _ 10 rfl (by rw [ip4HeaderBytes_length]; decide) (by rw [ip4BuildHeader_bytes]; rfl)

/-- A header without options and its payload parse to themselves. -/
theorem ip4Parse_header_append {h : Ip4Header} (hihl : h.ihl = 5#4) (p : List Byte) :
    ip4Parse (h.bytes ++ p) = .ok { header := h, options := [], payload := p } := by
  have hdr := ip4Header_bytes h p
  have hlen : (h.bytes ++ p).length = 20 + p.length := by rw [List.length_append, ip4HeaderBytes_length]
  have h5 : (byteOf (h.bytes ++ p) 0).toNat % 16 = 5 := by rw [← ip4Header_ihl, hdr, hihl]; rfl
  rw [ip4Parse_ok (by omega) (by omega) (by omega), hdr, h5]
  have hopt : slice (h.bytes ++ p) 20 (5 * 4) = [] := List.drop_eq_nil_of_le (by rw [List.length_take]; omega)
  have hpay : (h.bytes ++ p).drop (5 * 4) = p := List.drop_left' (ip4HeaderBytes_length h)
  rw [hopt, hpay]

theorem ip4Build_of_success {s t : State} (ht : exec .ip4Build s = .next t) (hok : t.status.fail = false) :
    InputInRange s ∧ 20 + (s.reg 2).toNat ≤ 0xFFFF := by
  obtain ⟨hin, e, he, -⟩ := input_of_success rfl ht hok
  refine ⟨hin, ?_⟩
  obtain ⟨out, hb, -⟩ := bind_ok he
  by_contra hlong
  rw [ip4Build_error (by rw [inputBytes_length]; omega)] at hb
  cases hb

theorem ip4Parse_of_success {s t : State} (ht : exec .ip4Parse s = .next t) (hok : t.status.fail = false) :
    InputInRange s ∧ 20 ≤ (s.reg 2).toNat ∧ t = s.complete { regs := ip4ParseResults s (ip4Header (inputBytes s)) } := by
  obtain ⟨hin, e, he, -⟩ := input_of_success rfl ht hok
  obtain ⟨q, hq, -⟩ := bind_ok he
  have hparse := exec_ip4Parse_of_ok hin hq
  by_cases hlen : 20 ≤ (inputBytes s).length
  · simp only [ip4Parse] at hq
    rw [if_neg (by omega)] at hq
    split at hq
    · cases hq
    · split at hq
      · cases hq
      · cases hq
        exact ⟨hin, inputBytes_length s ▸ hlen, exec_deterministic ht hparse⟩
  · rw [ip4Parse_short (by omega)] at hq
    cases hq

/-- The operands with which IP4_EMIT writes back the datagram of s that IP4_PARSE has taken apart. -/
structure HoldsParsedDatagram (s p : State) : Prop where
  params : p.params = s.params
  pbuf : SamePbuf s p
  addr : p.reg 1 = s.reg 1 + 20#64
  length : p.reg 2 = s.reg 2 - 20#64
  out : p.reg 3 = s.reg 1
  header : p.emitHeader = ip4Header (inputBytes s)

theorem HoldsParsedDatagram.restores {s p u : State} (h : HoldsParsedDatagram s p) (hlegal : s.params.legal = true)
    (hin : InputInRange s) (h20 : 20 ≤ (s.reg 2).toNat) (hu : exec .ip4Emit p = .next u) :
    u.status.fail = false ∧ u.reg 0 = s.reg 2 ∧ SamePbuf s u := by
  obtain ⟨hpin, hpay⟩ := inputBytes_of_payload hlegal hin h20 h.params h.pbuf h.addr h.length
  have hemit := exec_ip4Emit_eq_emit hpin
  rw [h.header, hpay, ip4Header_bytes_append (by rwa [inputBytes_length])] at hemit
  obtain ⟨⟨hstatus, -⟩, hcount, hpbuf⟩ := emit_restores_input hemit hin h.params h.pbuf h.out hu
  exact ⟨by rw [hstatus], hcount, hpbuf⟩

/-- Registers written on top of a state, as by the host. -/
def withRegs (t : State) (regs : List (Reg × Word)) : State := { t with x := writeRegs t.x regs }

theorem withRegs_reg (t : State) (regs : List (Reg × Word)) (r : Reg) :
    (withRegs t regs).reg r = ((regs.reverse.find? (·.1 = r)).map (·.2)).getD (t.reg r) :=
  reg_complete_lookup t { regs := regs } r

theorem withRegs_params (t : State) (regs : List (Reg × Word)) : (withRegs t regs).params = t.params := rfl

theorem withRegs_byteAt (t : State) (regs : List (Reg × Word)) (a : Nat) : (withRegs t regs).byteAt a = t.byteAt a :=
  byteAt_congr (s := t) (t := withRegs t regs) rfl rfl a

/-- The registers IP4_EMIT reads, as IP4_PARSE of s, ending in t, has left their values (R295 (2)). -/
def emitOperands (s t : State) : List (Reg × Word) :=
  [(1, t.reg 28), (2, t.reg 29), (3, s.reg 1), (4, t.reg 16), (5, t.reg 17), (6, t.reg 18), (7, t.reg 19), (8, t.reg 20),
    (9, t.reg 21), (10, t.reg 22), (11, t.reg 23), (12, t.reg 24), (13, t.reg 25), (14, t.reg 26), (15, t.reg 27)]

theorem holdsParsedDatagram_rebuild {s t : State} (h5 : (ip4Header (inputBytes s)).ihl = 5#4)
    (ht : t = s.complete { regs := ip4ParseResults s (ip4Header (inputBytes s)) }) :
    HoldsParsedDatagram s (withRegs t (emitOperands s t)) := by
  have hlength : word64 (ip4Header (inputBytes s)).length = 20#64 := by rw [Ip4Header.length, h5]; rfl
  constructor
  case params => rw [withRegs_params, ht, complete_params]
  case pbuf =>
    intro a
    rw [withRegs_byteAt, ht]
    exact byteAt_complete_none s _ rfl a
  case header =>
    simp [State.emitHeader, State.field, State.byteField, State.half, State.ipField, withRegs_reg, emitOperands, ht,
      reg_complete_lookup, ip4ParseResults, zext64_setWidth]
  all_goals simp [withRegs_reg, emitOperands, ht, reg_complete_lookup, ip4ParseResults, hlength]

/-- What IP4_PARSE returns of a datagram that IP4_BUILD wrote (R295 (1)). -/
theorem ip4Parse_of_built {s t u : State} {src dst : BitVec 32} {pr ttl : Byte} (hlegal : s.params.legal = true)
    (hout : OutputInRange s (ip4Datagram src dst pr ttl (inputBytes s)).length)
    (hb : Builds s t (ip4Datagram src dst pr ttl (inputBytes s))) (hu : exec .ip4Parse (reread s t) = .next u) :
    u = (reread s t).complete
      { regs := ip4ParseResults (reread s t) (ip4SealedHeader src dst pr ttl (20 + (s.reg 2).toNat)) } := by
  have hbytes := reread_inputBytes hlegal hout hb
  rw [ip4Datagram_eq_header_append, inputBytes_length] at hbytes
  have hparse := ip4Parse_header_append (h := ip4SealedHeader src dst pr ttl (20 + (s.reg 2).toNat)) rfl (inputBytes s)
  rw [← hbytes] at hparse
  have hexec := exec_ip4Parse_of_ok (reread_inputInRange hlegal hout hb) hparse
  exact exec_deterministic hu hexec

/-- CK_VERIFY of the 20 header bytes that IP4_BUILD wrote answers 1 (R295 (1)). -/
theorem ckVerify_of_builtHeader {s t v : State} {src dst : BitVec 32} {pr ttl : Byte}
    (hout : OutputInRange s (ip4Datagram src dst pr ttl (inputBytes s)).length)
    (hb : Builds s t (ip4Datagram src dst pr ttl (inputBytes s)))
    (hv : exec .ckVerify (describe t (s.reg 3) 20) = .next v) : v.reg 0 = 1 := by
  have hlen : 20 ≤ (ip4Datagram src dst pr ttl (inputBytes s)).length := by rw [ip4Datagram_length]; omega
  have hin : InputInRange (describe t (s.reg 3) 20) := by
    rw [inputInRange_describe, hb.keeps.params]
    exact Nat.le_trans (Nat.add_le_add_left hlen _) hout
  have hbytes : inputBytes (describe t (s.reg 3) 20) =
      (ip4SealedHeader src dst pr ttl (20 + (inputBytes s).length)).bytes := by
    rw [inputBytes_describe]
    exact hb.stored.bytesAt_take hlen
  exact (ckVerify_of_allOnes hin (by rw [hbytes, osum_ip4SealedHeader]) hv).1

theorem zext64_ofNat16 {n : Nat} (h : n ≤ 0xFFFF) : zext64 (BitVec.ofNat 16 n) = word64 n := by
  rw [zext64_eq_ofNat, BitVec.toNat_ofNat, Nat.mod_eq_of_lt (by omega)]
  rfl

/-- Settles O49: the header decoded from its bytes is itself, the sealed header sums to all ones, and a datagram put
together from its own header and payload is itself. -/
theorem ip4RoundTrip : Obligations.Ip4RoundTrip := by
  unfold Obligations.Ip4RoundTrip
  refine ⟨fun s t u v hlegal ht hok hu hv => ?parse_build, fun s t u hlegal ht hok h5 hu => ?emit_parse,
    fun b h20 _ => ip4Header_bytes_append h20⟩
  case parse_build =>
    obtain ⟨hin, hfit⟩ := ip4Build_of_success ht hok
    obtain ⟨hout, hb⟩ := builds_of_success (exec_ip4Build_eq_emit hin hfit) ht hok
    have hverify := ckVerify_of_builtHeader hout hb hv
    have hcount := hb.count
    have hlt := outputInRange_lt hlegal hout
    have hlen := ip4Datagram_length (s.ipField 4) (s.ipField 5) (s.byteField 6) (s.byteField 7) (inputBytes s)
    rw [inputBytes_length] at hlen
    rw [hlen, word64_add_toNat] at hcount
    rw [hlen] at hlt
    have hu := ip4Parse_of_built hlegal hout hb hu
    have h19 : u.reg 19 = 20 + s.reg 2 := by
      simp only [hu, reg_complete_lookup, ip4ParseResults]
      exact (zext64_ofNat16 (by omega)).trans (word64_add_toNat 20 (s.reg 2))
    have h28 : u.reg 28 = s.reg 3 + 20#64 := by
      simp only [hu, reg_complete_lookup, ip4ParseResults]
      exact congrArg (· + 20#64) (reread_reg_one s t)
    have h29 : u.reg 29 = s.reg 2 := by
      simp only [hu, reg_complete_lookup, ip4ParseResults]
      exact (congrArg (· - 20#64) ((reread_reg_two s t).trans hcount)).trans (add_sub_cancel_left _ _)
    have hpayload : u.bytesAt (u.reg 28).toNat (u.reg 29).toNat = inputBytes s := by
      rw [h28, h29]
      exact hb.stored.payload (k := 20) (by omega) (by omega) (by omega) (hu ▸ samePbuf_reread s t _)
    have h25 : u.reg 25 = (cksum (ip4BuildHeader (s.ipField 4) (s.ipField 5) (s.byteField 6) (s.byteField 7)
        (20 + (s.reg 2).toNat)).bytes).setWidth 64 := by
      simp only [hu, reg_complete_lookup, ip4ParseResults]
      rfl
    rw [ip4BuildHeader_bytes] at h25
    refine ⟨?_, ?_, ?_, h19, ?_, ?_, ?_, ?_, ?_, h25, ?_, ?_, h28, h29, ?_, hverify, hpayload⟩
    all_goals
      simp only [hu, reg_complete_lookup, ip4ParseResults]
    all_goals rfl
  case emit_parse =>
    obtain ⟨hin, h20, hparsed⟩ := ip4Parse_of_success ht hok
    have hihl : (ip4Header (inputBytes s)).ihl = 5#4 := by
      have h17 : zext64 (ip4Header (inputBytes s)).ihl = 5#64 := by
        simpa [hparsed, reg_complete_lookup, ip4ParseResults] using h5
      rw [← zext64_setWidth (ip4Header (inputBytes s)).ihl (by decide), h17]
      rfl
    exact (holdsParsedDatagram_rebuild hihl hparsed).restores hlegal hin h20 hu

end Sys2Proof.Machine
end

section
/-! SUPPORT. Proofs about the ICMP commands (45_icmp.md R320–R324). -/

namespace Sys2Proof.Machine

/-! ### ICMP_PARSE -/

/-- The results of ICMP_PARSE (R321). -/
def icmpParseResults (s : State) : List (Reg × Word) :=
  let b := inputBytes s
  [(16, zext64 (byteOf b 0)), (17, zext64 (byteOf b 1)), (18, zext64 (be16 b 2)), (19, zext64 (be16 b 4)),
    (20, zext64 (be16 b 6)), (21, icmpClass (byteOf b 0)), (28, s.reg 1 + 8#64), (29, s.reg 2 - 8#64)]

theorem exec_icmpParse_of_complete {s : State} (hin : InputInRange s) (hlen : 8 ≤ (s.reg 2).toNat) :
    exec .icmpParse s = .next (s.complete { regs := icmpParseResults s }) :=
  (exec_of_input_ok rfl hin).trans (by rw [requireLen_bind_ok (by rwa [inputBytes_length])]; rfl)

/-- Settles O50: the results are the fields and the type's class. -/
theorem icmpParseDecodesTheMessage : Obligations.IcmpParseDecodesTheMessage := by
  unfold Obligations.IcmpParseDecodesTheMessage
  intro s hin hlen
  refine ⟨_, exec_icmpParse_of_complete hin hlen, writesOnly_complete _ _ _ rfl, ?_⟩
  simp only [reg_complete_lookup, icmpParseResults]
  exact ⟨rfl, rfl, rfl, rfl, rfl, rfl, rfl, rfl⟩

/-! ### The builders -/

/-- R322: the message sealed over its zeroed checksum field. -/
theorem icmpSeal_eq (m0 : List Byte) : icmpSeal m0 = m0.take 2 ++ put16 (cksum m0) ++ m0.drop 4 := rfl

/-- R323: the reply is the sealed request with its first four bytes zeroed. -/
theorem icmpReply_eq (b : List Byte) : icmpReply b = icmpSeal ([0, 0, 0, 0] ++ b.drop 4) := by
  have hrest : slice b 4 8 ++ b.drop 8 = b.drop 4 := by
    rw [slice, ← take_drop_eq_slice b 4 4, take_drop_append b 4 4]
  rw [icmpReply, List.append_assoc, hrest]
  rfl

/-- Settles O51: the emitted bytes are the sealed message of the operands. -/
theorem icmpEmitWritesTheMessage : Obligations.IcmpEmitWritesTheMessage := by
  unfold Obligations.IcmpEmitWritesTheMessage
  intro s hin hout
  obtain ⟨t, ht, hb⟩ := exec_of_emit_ok (exec_icmpEmit_eq_emit hin) (by rwa [icmpMessage_length, inputBytes_length])
  rw [icmpMessage, icmpSeal_eq] at hb
  exact ⟨t, ht, hb⟩

/-- Settles O52: the emitted bytes are the sealed reply. -/
theorem icmpBuildReplyEchoesTheRequest : Obligations.IcmpBuildReplyEchoesTheRequest := by
  unfold Obligations.IcmpBuildReplyEchoesTheRequest
  intro s hin h8 hout
  have hlen := icmpReply_length (inputBytes s) (by rwa [inputBytes_length])
  obtain ⟨t, ht, hb⟩ := exec_of_emit_ok (exec_icmpBuildReply_eq_emit hin h8) (by rwa [hlen, inputBytes_length])
  rw [icmpReply_eq, icmpSeal_eq] at hb
  exact ⟨t, ht, hb⟩

/-! ### Verification -/

/-- A sealed message sums to all ones (R324). -/
theorem osum_icmpSeal {m0 : List Byte} (h : 4 ≤ m0.length) (hz : (m0.drop 2).take 2 = [0#8, 0#8]) :
    osum (icmpSeal m0) = 0xFFFF := osum_sealed m0 2 rfl h hz

theorem osum_icmpMessage (t c : Byte) (i q : BitVec 16) (p : List Byte) : osum (icmpMessage t c i q p) = 0xFFFF :=
  osum_icmpSeal (by simp) rfl

theorem osum_icmpReply (b : List Byte) : osum (icmpReply b) = 0xFFFF := by
  rw [icmpReply_eq]
  exact osum_icmpSeal (by simp) rfl

/-- CK_VERIFY of bytes that a builder wrote and that sum to all ones. -/
theorem ckVerify_of_built {s t u : State} {b : List Byte} (hlegal : s.params.legal = true)
    (hbuilt : OutputInRange s b.length ∧ Builds s t b) (hsum : osum b = 0xFFFF)
    (hu : exec .ckVerify (reread s t) = .next u) : u.reg 0 = 1 ∧ u.reg 16 = 0xFFFF := by
  obtain ⟨hout, hb⟩ := hbuilt
  exact ckVerify_of_allOnes (reread_inputInRange hlegal hout hb) (by rwa [reread_inputBytes hlegal hout hb]) hu

theorem icmpBuildReply_of_success {s t : State} (ht : exec .icmpBuildReply s = .next t) (hok : t.status.fail = false) :
    InputInRange s ∧ 8 ≤ (s.reg 2).toNat := by
  obtain ⟨hin, e, he, -⟩ := input_of_success rfl ht hok
  obtain ⟨_, hlen, -⟩ := bind_ok he
  have h8 := requireLen_eq_ok hlen
  rw [inputBytes_length] at h8
  exact ⟨hin, h8⟩

/-- Settles O53: both commands write sealed messages. -/
theorem icmpOutputVerifies : Obligations.IcmpOutputVerifies := by
  unfold Obligations.IcmpOutputVerifies
  rintro i s t u (rfl | rfl) hlegal ht hok hu
  · obtain ⟨hin, -⟩ := input_of_success rfl ht hok
    exact ckVerify_of_built hlegal (builds_of_success (exec_icmpEmit_eq_emit hin) ht hok) (osum_icmpMessage _ _ _ _ _) hu
  · obtain ⟨hin, h8⟩ := icmpBuildReply_of_success ht hok
    exact ckVerify_of_built hlegal (builds_of_success (exec_icmpBuildReply_eq_emit hin h8) ht hok) (osum_icmpReply _) hu

end Sys2Proof.Machine
end

section
/-! SUPPORT. Proofs about the UDP commands (46_udp.md R340–R344). -/

namespace Sys2Proof.Machine

/-! ### UDP_PARSE -/

/-- The results of UDP_PARSE (R341). -/
def udpParseResults (s : State) : List (Reg × Word) :=
  let b := inputBytes s
  [(16, zext64 (be16 b 0)), (17, zext64 (be16 b 2)), (18, zext64 (be16 b 4)), (19, zext64 (be16 b 6)),
    (28, s.reg 1 + 8#64), (29, s.reg 2 - 8#64)]

theorem exec_udpParse_of_complete {s : State} (hin : InputInRange s) (hlen : 8 ≤ (s.reg 2).toNat) :
    exec .udpParse s = .next (s.complete { regs := udpParseResults s }) :=
  (exec_of_input_ok rfl hin).trans (by rw [requireLen_bind_ok (by rwa [inputBytes_length])]; rfl)

/-- Settles O54: the results are the fields as they stand. -/
theorem udpParseDecodesTheDatagram : Obligations.UdpParseDecodesTheDatagram := by
  unfold Obligations.UdpParseDecodesTheDatagram
  intro s hin hlen
  refine ⟨_, exec_udpParse_of_complete hin hlen, writesOnly_complete _ _ _ rfl, ?_⟩
  simp only [reg_complete_lookup, udpParseResults]
  exact ⟨rfl, rfl, rfl, rfl, rfl, rfl⟩

/-! ### The builders -/

/-- Settles O55: both builders emit `udpDatagram`, the echo with the request's ports swapped. -/
theorem udpBuildersWriteTheDatagram : Obligations.UdpBuildersWriteTheDatagram := by
  unfold Obligations.UdpBuildersWriteTheDatagram
  intro s hin
  refine ⟨fun hfit hout => ?_, fun h8 hfit hout => ?_⟩
  · have hbuilt := exec_of_emit_ok (exec_udpBuild_eq_emit hin hfit) (by rwa [udpDatagram_length, inputBytes_length])
    exact hbuilt
  · have hbuilt := exec_of_emit_ok (exec_udpBuildEcho_eq_emit hin h8 hfit)
      (by rwa [udpDatagram_length, List.length_drop, inputBytes_length, Nat.add_sub_cancel' h8])
    exact hbuilt

/-! ### Round trip -/

section
variable (sa da : BitVec 32) (sp dp : BitVec 16) (p : List Byte)

theorem udpDatagram_sourcePort : be16 (udpDatagram sa da sp dp p) 0 = sp := append_halves16 _

theorem udpDatagram_destinationPort : be16 (udpDatagram sa da sp dp p) 2 = dp := append_halves16 _

theorem udpDatagram_lengthField : be16 (udpDatagram sa da sp dp p) 4 = BitVec.ofNat 16 (8 + p.length) := append_halves16 _

/-- Pseudo-header and datagram sum to all ones (R344 (2)). -/
theorem osum_udpDatagram : osum (udpPseudoHeader sa da (8 + p.length) ++ udpDatagram sa da sp dp p) = 0xFFFF :=
  osum_prefix_sealed _ _ 6 (by simp [udpPseudoHeader]) rfl (by rw [udpUnsealed_length]; omega) rfl

end

theorem udpBuild_of_success {s t : State} (ht : exec .udpBuild s = .next t) (hok : t.status.fail = false) :
    InputInRange s ∧ 8 + (s.reg 2).toNat ≤ 0xFFFF := by
  obtain ⟨hin, e, he, -⟩ := input_of_success rfl ht hok
  refine ⟨hin, ?_⟩
  obtain ⟨out, hb, -⟩ := bind_ok he
  by_contra hlong
  rw [udpBytes_error (by rw [inputBytes_length]; omega)] at hb
  cases hb

/-- Settles O56: the fields of the datagram built are its operands, and it is sealed with its pseudo-header. -/
theorem udpRoundTrip : Obligations.UdpRoundTrip := by
  unfold Obligations.UdpRoundTrip
  intro s t u hlegal ht hok hu
  obtain ⟨hin, hfit⟩ := udpBuild_of_success ht hok
  obtain ⟨hout, hb⟩ := builds_of_success (exec_udpBuild_eq_emit hin hfit) ht hok
  have hbytes := reread_inputBytes hlegal hout hb
  have hsum := osum_udpDatagram (s.ipField 4) (s.ipField 5) (s.half 6) (s.half 7) (inputBytes s)
  have hrlen := reread_length hlegal hout hb
  have hcount := hb.count
  have hlt := outputInRange_lt hlegal hout
  have hlen := udpDatagram_length (s.ipField 4) (s.ipField 5) (s.half 6) (s.half 7) (inputBytes s)
  rw [inputBytes_length] at hlen hsum
  rw [hlen] at hrlen hlt
  rw [hlen, word64_add_toNat] at hcount
  have hparse := exec_udpParse_of_complete (reread_inputInRange hlegal hout hb) (by omega)
  have hu := exec_deterministic hu hparse
  have h16 : u.reg 16 = zext64 (s.half 6) := by
    simp only [hu, reg_complete_lookup, udpParseResults, hbytes]
    exact congrArg zext64 (udpDatagram_sourcePort _ _ _ _ _)
  have h17 : u.reg 17 = zext64 (s.half 7) := by
    simp only [hu, reg_complete_lookup, udpParseResults, hbytes]
    exact congrArg zext64 (udpDatagram_destinationPort _ _ _ _ _)
  have h18 : u.reg 18 = 8 + s.reg 2 := by
    have hfield := udpDatagram_lengthField (s.ipField 4) (s.ipField 5) (s.half 6) (s.half 7) (inputBytes s)
    rw [inputBytes_length] at hfield
    simp only [hu, reg_complete_lookup, udpParseResults, hbytes]
    exact (congrArg zext64 hfield).trans ((zext64_ofNat16 hfit).trans (word64_add_toNat 8 (s.reg 2)))
  have h28 : u.reg 28 = s.reg 3 + 8#64 := by
    simp only [hu, reg_complete_lookup, udpParseResults]
    exact congrArg (· + 8#64) (reread_reg_one s t)
  have h29 : u.reg 29 = s.reg 2 := by
    simp only [hu, reg_complete_lookup, udpParseResults]
    exact (congrArg (· - 8#64) ((reread_reg_two s t).trans hcount)).trans (add_sub_cancel_left _ _)
  refine ⟨h16, h17, h18, h28, h29, ?payload, ?sum⟩
  case payload =>
    rw [h28, h29]
    exact hb.stored.payload (k := 8) (by omega) (by omega) (by omega) (hu ▸ samePbuf_reread s t _)
  case sum =>
    rw [reread_reg_two] at hrlen
    rw [hrlen, ← hlen, hb.stored.bytesAt, ← hsum, hlen, udpPseudoHeader]
    rfl

end Sys2Proof.Machine
end

section
/-! SUPPORT. Proofs about PROCESS_FRAME (47_pipeline.md R361–R370). -/

namespace Sys2Proof.Machine

/-! ### The result registers -/

/-- What the eight result registers hold after a frame (R362). -/
theorem reg_frameRegs {s : State} {e : Effects} {d : Disposition} {x16 x17 x18 x19 x20 x28 x29 : Word}
    (h : e.regs = frameRegs d x16 x17 x18 x19 x20 x28 x29) :
    (s.complete e).reg 0 = d.code ∧ (s.complete e).reg 16 = x16 ∧ (s.complete e).reg 17 = x17 ∧
      (s.complete e).reg 18 = x18 ∧ (s.complete e).reg 19 = x19 ∧ (s.complete e).reg 20 = x20 ∧
      (s.complete e).reg 28 = x28 ∧ (s.complete e).reg 29 = x29 := by
  simp [reg_complete_lookup, h, frameRegs]

theorem keeps_frameRegs {s : State} {e : Effects} {d : Disposition} {x16 x17 x18 x19 x20 x28 x29 : Word}
    (h : e.regs = frameRegs d x16 x17 x18 x19 x20 x28 x29) : Keeps s (s.complete e) [0, 16, 17, 18, 19, 20, 28, 29] :=
  keeps_complete s e _ (by simp [h, frameRegs])

/-- Settles O57: a frame of another type has result registers alone. -/
theorem frameOfOtherTypeIsDropped : Obligations.FrameOfOtherTypeIsDropped := by
  unfold Obligations.FrameOfOtherTypeIsDropped
  intro s hin h14 et harp hip4
  obtain ⟨h0, h16, h17, h18, h19, h20, h28, h29⟩ := reg_frameRegs (s := s)
    (e := { regs := frameRegs (if et = 0x86DD#16 then .dropIpv6 else .dropEthertype) 0 0 0 (zext64 et) 0 0 0 }) rfl
  refine ⟨_, exec_processFrame_of_other hin h14 harp hip4, writesOnly_complete _ _ _ rfl, ?_, h19, ?_⟩
  · rw [h0, apply_ite Disposition.code]
    rfl
  · simp only [List.forall_mem_cons, List.not_mem_nil, false_implies, implies_true, and_true]
    exact ⟨h16, h17, h18, h20, h28, h29⟩

/-! ### The ARP step (R363, R364) -/

/-- The frame that answers the ARP packet e. -/
def arpReplyFrame (s : State) (m : BitVec 48) (e : List Byte) : List Byte :=
  etherFrame m s.ourMac 0x0806#16 (arpReply (arpParse e) s.ourMac).bytes

theorem arpReplyFrame_length (s : State) (m : BitVec 48) (e : List Byte) : (arpReplyFrame s m e).length = 42 := by
  rw [arpReplyFrame, etherFrame_length, arpBytes_length]

/-- The effects of answering the ARP packet e. -/
def arpReplyEffects (s : State) (m : BitVec 48) (e : List Byte) : Effects :=
  { regs := frameRegs .arpReplied 42 (zext64 (be32 e 14)) (zext64 (be48 e 8)) 0 0 0 0
    cache := some (learnedCache s e), store := some ⟨(s.reg 3).toNat, arpReplyFrame s m e⟩ }

section
variable {s : State} {m : BitVec 48} {e : List Byte}

theorem arpStep_short (h : e.length < 28) : arpStep s m e = .error (.invalidPacket .arp 0 e.length 28) :=
  requireLen_bind_error (f := fun _ _ => _) e h

variable (h28 : 28 ≤ e.length)
include h28

theorem arpStep_of_asked (hask : s.answersArp (arpParse e) = true) :
    arpStep s m e = (s.output (arpReplyFrame s m e) >>= fun st => .ok
      { regs := frameRegs .arpReplied 42 (zext64 (be32 e 14)) (zext64 (be48 e 8)) 0 0 0 0
        cache := some (learnedCache s e), store := some st }) :=
  (requireLen_bind_ok h28).trans (if_pos hask)

theorem arpStep_of_not_asked (hask : ¬ s.answersArp (arpParse e) = true) :
    arpStep s m e = .ok
      { regs := frameRegs .arpLearned 0 (zext64 (be32 e 14)) (zext64 (be48 e 8)) 0 0 0 0
        cache := some (learnedCache s e) } :=
  (requireLen_bind_ok h28).trans (if_neg hask)

end

/-- R364: the reply frame, byte for byte. -/
theorem arpReplyFrame_bytes {s : State} {e : List Byte} (h28 : 28 ≤ e.length) (m : BitVec 48) (htpa : be32 e 24 = s.ourIp) :
    arpReplyFrame s m e = put48 m ++ put48 s.ourMac ++ [0x08, 0x06] ++ e.take 6 ++ [0x00, 0x02] ++ put48 s.ourMac
      ++ put32 s.ourIp ++ (e.take 14).drop 8 ++ (e.take 18).drop 14 := by
  have htype : put16 0x0806#16 = [0x08, 0x06] := by decide
  rw [arpReplyFrame, etherFrame, arpReply_bytes h28, htpa, htype]
  simp only [List.append_assoc]

/-- Settles O58: `arpStep` is short, answers, or learns. -/
theorem arpFrameIsLearnedAndAnswered : Obligations.ArpFrameIsLearnedAndAnswered := by
  unfold Obligations.ArpFrameIsLearnedAndAnswered
  intro s hin h14 het e learned asked
  have hexec : exec .processFrame s = finish s (arpStep s (be48 (inputBytes s) 6) e) := exec_processFrame_of_arp hin h14 het
  have hasked : s.answersArp (arpParse e) = true ↔ asked := answersArp_iff s _
  refine ⟨fun hlegal hshort => ?short, fun h28 hask hout => ?unfit, fun h28 hout => ?done⟩
  case short =>
    rw [arpStep_short hshort] at hexec
    exact exec_of_invalidPacket hexec (Nat.lt_trans hshort (by decide))
  case unfit =>
    rw [hexec, arpStep_of_asked h28 (hasked.2 hask), output_error (by rwa [arpReplyFrame_length])]
    rfl
  case done =>
    by_cases hask : asked
    · rw [arpStep_of_asked h28 (hasked.2 hask), output_ok (by rw [arpReplyFrame_length]; exact hout hask)] at hexec
      obtain ⟨h0, h16, h17, h18, h19, h20, h28', h29⟩ := reg_frameRegs (s := s)
        (e := arpReplyEffects s (be48 (inputBytes s) 6) e) rfl
      refine ⟨_, hexec, completed_complete _ _, keeps_frameRegs rfl, rfl, rfl, h17, h18, ?_, fun _ => ⟨h0, h16, ?_⟩,
        fun hn => absurd hask hn⟩
      · simp only [List.forall_mem_cons, List.not_mem_nil, false_implies, implies_true, and_true]
        exact ⟨h19, h20, h28', h29⟩
      · rw [← arpReplyFrame_bytes h28 _ hask.2]
        exact stored_complete s _ ⟨_, _⟩ rfl
    · rw [arpStep_of_not_asked h28 (fun h => hask (hasked.1 h))] at hexec
      obtain ⟨h0, h16, h17, h18, h19, h20, h28', h29⟩ := reg_frameRegs (s := s)
        (e := { regs := frameRegs .arpLearned 0 (zext64 (be32 e 14)) (zext64 (be48 e 8)) 0 0 0 0,
                cache := some (learnedCache s e) }) rfl
      refine ⟨_, hexec, completed_complete _ _, keeps_frameRegs rfl, rfl, rfl, h17, h18, ?_, fun h => absurd h hask,
        fun _ => ⟨h0, h16, byteAt_complete_none _ _ rfl⟩⟩
      simp only [List.forall_mem_cons, List.not_mem_nil, false_implies, implies_true, and_true]
      exact ⟨h19, h20, h28', h29⟩

/-! ### The IPv4 step (R365–R368) -/

section
variable {s : State} {m : BitVec 48} {ea : Word} {e : List Byte} {q : Ip4Packet} (hq : ip4Parse e = .ok q)
include hq

theorem ip4Step_of_icmp (h : q.header.protocol = 1#8) : ip4Step s m ea e = icmpStep s m q := by
  rw [ip4Step, hq, except_ok_bind, if_pos h]

theorem ip4Step_of_udp (h : q.header.protocol = 17#8) :
    ip4Step s m ea e = udpStep (ea + word64 q.header.length) q := by
  rw [ip4Step, hq, except_ok_bind, if_neg (by rw [h]; decide), if_pos h]

theorem ip4Step_of_other (h1 : q.header.protocol ≠ 1#8) (h17 : q.header.protocol ≠ 17#8) :
    ip4Step s m ea e = .ok
      { regs := frameRegs .dropIpproto 0 (zext64 q.header.src) (zext64 q.header.dst) (zext64 q.header.protocol) 0 0 0 } := by
  rw [ip4Step, hq, except_ok_bind, if_neg h1, if_neg h17]
  rfl

end

/-- The frame that answers the echo request in the packet q. -/
def echoReplyFrame (s : State) (m : BitVec 48) (q : Ip4Packet) : List Byte :=
  etherFrame m s.ourMac 0x0800#16 (ip4Datagram q.header.dst q.header.src 1 s.replyTtl (icmpReply q.payload))

theorem echoReplyFrame_length (s : State) (m : BitVec 48) {q : Ip4Packet} (h8 : 8 ≤ q.payload.length) :
    (echoReplyFrame s m q).length = 34 + q.payload.length := by
  rw [echoReplyFrame, etherFrame_length, ip4Datagram_length, icmpReply_length _ h8]
  omega

/-- The effects of answering the echo request in the packet q. -/
def echoEffects (s : State) (m : BitVec 48) (q : Ip4Packet) : Effects :=
  { regs := frameRegs .icmpReplied (word64 (34 + q.payload.length)) (zext64 q.header.src) (zext64 q.header.dst) 8 0 0 0
    store := some ⟨(s.reg 3).toNat, echoReplyFrame s m q⟩ }

section
variable {s : State} {m : BitVec 48} {q : Ip4Packet}

theorem icmpStep_short (h : q.payload.length < 8) :
    icmpStep s m q = .error (.invalidPacket .icmp 0 q.payload.length 8) :=
  requireLen_bind_error (f := fun _ _ => _) q.payload h

variable (h8 : 8 ≤ q.payload.length)
include h8

theorem icmpStep_ignored (h : byteOf q.payload 0 ≠ 8#8) :
    icmpStep s m q = .ok
      { regs := frameRegs .icmpIgnored 0 (zext64 q.header.src) (zext64 q.header.dst) (zext64 (byteOf q.payload 0)) 0 0 0 } :=
  (requireLen_bind_ok h8).trans (if_neg h)

theorem icmpStep_overflow (h : byteOf q.payload 0 = 8#8) (hlong : 0xFFFF < 20 + q.payload.length) :
    icmpStep s m q = .error (.lengthOverflow 0 (20 + q.payload.length)) := by
  refine ((requireLen_bind_ok h8).trans (if_pos h)).trans ?_
  rw [ip4Build_error (by rwa [icmpReply_length _ h8]), icmpReply_length _ h8, except_error_bind]

theorem icmpStep_echo (h : byteOf q.payload 0 = 8#8) (hfit : 20 + q.payload.length ≤ 0xFFFF) :
    icmpStep s m q = (s.output (echoReplyFrame s m q) >>= fun st => .ok
      { regs := frameRegs .icmpReplied (word64 (34 + q.payload.length)) (zext64 q.header.src) (zext64 q.header.dst) 8 0 0 0
        store := some st }) := by
  refine ((requireLen_bind_ok h8).trans (if_pos h)).trans ?_
  rw [ip4Build_eq_datagram (by rwa [icmpReply_length _ h8]), except_ok_bind, h]
  rfl

theorem icmpStep_answered (h : byteOf q.payload 0 = 8#8) (hfit : 20 + q.payload.length ≤ 0xFFFF)
    (hout : OutputInRange s (34 + q.payload.length)) : icmpStep s m q = .ok (echoEffects s m q) := by
  rw [icmpStep_echo h8 h hfit, output_ok (by rwa [echoReplyFrame_length _ _ h8])]
  rfl

theorem udpStep_eq (ua : Word) :
    udpStep ua q = .ok
      { regs := frameRegs .udpDelivered 0 (zext64 q.header.src) (zext64 q.header.dst) (zext64 (be16 q.payload 0))
          (zext64 (be16 q.payload 2)) (ua + 8#64) (word64 (q.payload.length - 8)) } :=
  requireLen_bind_ok h8

end

theorem udpStep_short {q : Ip4Packet} (ua : Word) (h : q.payload.length < 8) :
    udpStep ua q = .error (.invalidPacket .udp 0 q.payload.length 8) :=
  requireLen_bind_error (f := fun _ _ => _) q.payload h

/-- R365: the reply frame, byte for byte. -/
theorem echoReplyFrame_bytes (s : State) (m : BitVec 48) {q : Ip4Packet} (h8 : 8 ≤ q.payload.length) :
    let h0 := (ip4BuildHeader q.header.dst q.header.src 1 s.replyTtl (20 + q.payload.length)).bytes
    let m0 := [0, 0, 0, 0] ++ q.payload.drop 4
    echoReplyFrame s m q = put48 m ++ put48 s.ourMac ++ [0x08, 0x00] ++ (h0.take 10 ++ put16 (cksum h0) ++ h0.drop 12)
      ++ (m0.take 2 ++ put16 (cksum m0) ++ m0.drop 4) := by
  intro h0 m0
  have htype : put16 0x0800#16 = [0x08, 0x00] := by decide
  have hreply : icmpReply q.payload = m0.take 2 ++ put16 (cksum m0) ++ m0.drop 4 := by rw [icmpReply_eq, icmpSeal_eq]
  rw [← hreply, echoReplyFrame, etherFrame, ip4Datagram, icmpReply_length _ h8, htype]
  exact (List.append_assoc _ _ _).symm

/-- The packet a whole IPv4 header and what follows it parse to (R291). -/
def wholePacket (e : List Byte) : Ip4Packet :=
  let h := (byteOf e 0).toNat % 16 * 4
  { header := ip4Header e, options := slice e 20 h, payload := e.drop h }

/-- A frame that only reports results changes no byte. -/
theorem dispatched_of_regs {s : State} {d : Disposition} {x16 x17 x18 x19 x20 x28 x29 : Word}
    (h : exec .processFrame s = finish s (.ok { regs := frameRegs d x16 x17 x18 x19 x20 x28 x29 })) :
    ∃ t, exec .processFrame s = .next t ∧
      (Completed s t ∧ Keeps s t [0, 16, 17, 18, 19, 20, 28, 29] ∧ t.ck = s.ck ∧ t.cache = s.cache ∧
        t.reg 0 = d.code ∧ t.reg 16 = x16 ∧ t.reg 17 = x17 ∧ t.reg 18 = x18 ∧ t.reg 19 = x19 ∧ t.reg 20 = x20 ∧
        t.reg 28 = x28 ∧ t.reg 29 = x29) ∧ SamePbuf s t :=
  ⟨_, h, ⟨completed_complete _ _, keeps_frameRegs rfl, rfl, rfl, reg_frameRegs rfl⟩, byteAt_complete_none _ _ rfl⟩

/-- Settles O59: `ip4Step` dispatches by the protocol, and each step by its own checks. -/
theorem ip4FrameIsDispatched : Obligations.Ip4FrameIsDispatched := by
  unfold Obligations.Ip4FrameIsDispatched
  intro s hlegal hin h14 het e h m src dst h20 h5 hcut regs
  have hihl : 5 ≤ (byteOf e 0).toNat % 16 := Nat.le_of_mul_le_mul_right (c := 4) h5 (by decide)
  have hq : ip4Parse e = .ok (wholePacket e) := ip4Parse_ok h20 hihl hcut
  have hlt : m.length < 2 ^ 32 := by
    have := inputBytes_length_lt hlegal hin
    simp only [m, e, List.length_drop]
    omega
  have hexec : exec .processFrame s = finish s (ip4Step s (be48 (inputBytes s) 6) (s.reg 1 + 14#64) e) :=
    exec_processFrame_of_ipv4 hin h14 het
  refine ⟨fun hp h8 ht hfit hout => ?echo, fun hp h8 ht hlong => ?overflow, fun hp h8 ht hfit hout => ?unfit,
    fun hp h8 ht => ?ignored, fun hp hshort => ?icmpShort, fun hp h8 => ?udp, fun hp hshort => ?udpShort,
    fun h1 h17 => ?other⟩
  case echo =>
    rw [ip4Step_of_icmp hq hp, icmpStep_answered (q := wholePacket e) h8 ht hfit hout] at hexec
    have hregs := reg_frameRegs (s := s) (e := echoEffects s (be48 (inputBytes s) 6) (wholePacket e)) rfl
    have hstored := stored_complete s (echoEffects s (be48 (inputBytes s) 6) (wholePacket e)) _ rfl
    have hbytes := echoReplyFrame_bytes s (be48 (inputBytes s) 6) (q := wholePacket e) h8
    rw [ip4BuildHeader_bytes] at hbytes
    rw [hbytes] at hstored
    exact ⟨_, hexec, ⟨completed_complete _ _, keeps_frameRegs rfl, rfl, rfl, hregs⟩, hstored⟩
  case overflow =>
    rw [hexec, ip4Step_of_icmp hq hp, icmpStep_overflow (q := wholePacket e) h8 ht hlong]
    rfl
  case unfit =>
    rw [hexec, ip4Step_of_icmp hq hp, icmpStep_echo (q := wholePacket e) h8 ht hfit,
      output_error (by rwa [echoReplyFrame_length (q := wholePacket e) _ _ h8])]
    rfl
  case ignored =>
    rw [ip4Step_of_icmp hq hp, icmpStep_ignored (q := wholePacket e) h8 ht] at hexec
    exact dispatched_of_regs hexec
  case icmpShort =>
    rw [ip4Step_of_icmp hq hp, icmpStep_short (q := wholePacket e) hshort] at hexec
    exact exec_of_invalidPacket hexec hlt
  case udp =>
    have haddr : s.reg 1 + 14#64 + word64 (wholePacket e).header.length + 8#64 = s.reg 1 + BitVec.ofNat 64 (14 + h + 8) := by
      rw [BitVec.ofNat_add, BitVec.ofNat_add, ← add_assoc, ← add_assoc, wholePacket, Ip4Header.length, ip4Header_ihl]
      rfl
    rw [ip4Step_of_udp hq hp, udpStep_eq (q := wholePacket e) h8, haddr] at hexec
    exact dispatched_of_regs hexec
  case udpShort =>
    rw [ip4Step_of_udp hq hp, udpStep_short (q := wholePacket e) _ hshort] at hexec
    exact exec_of_invalidPacket hexec hlt
  case other =>
    rw [ip4Step_of_other hq h1 h17] at hexec
    exact dispatched_of_regs hexec

/-! ### What a processed frame may change (R370) -/

/-- The disposition of a whole frame, by its bytes and OUR_IP (R361–R368, R370 (4)). -/
def frameDisposition (b : List Byte) (ourIp : BitVec 32) : Disposition :=
  let e := b.drop 14
  let h := ip4Header e
  match etherClass (be16 b 12) with
  | .unknown => .dropEthertype
  | .ipv6 => .dropIpv6
  | .arp => if be16 e 6 = 1#16 ∧ be32 e 24 = ourIp then .arpReplied else .arpLearned
  | .ipv4 =>
    if h.protocol = 1#8 then (if byteOf (e.drop h.length) 0 = 8#8 then .icmpReplied else .icmpIgnored)
    else if h.protocol = 17#8 then .udpDelivered else .dropIpproto

/-- What the effects of PROCESS_FRAME may be, by the disposition: a store at X3 of the X16 bytes for dispositions 3 and 4
alone, and one insert of the packet's sender for 2 and 3 alone. -/
structure FrameEffects (s : State) (d : Disposition) (e : Effects) : Prop where
  code : (s.complete e).reg 0 = d.code
  noStore : d ≠ .arpReplied → d ≠ .icmpReplied → e.store = none
  store : ∀ st, e.store = some st → st.addr = (s.reg 3).toNat ∧ ((s.complete e).reg 16).toNat = st.bytes.length
  noCache : d ≠ .arpLearned → d ≠ .arpReplied → e.cache = none
  cache : d = .arpLearned ∨ d = .arpReplied → e.cache = some (learnedCache s (frameBody s))

/-- A disposition that only reports results. -/
theorem frameEffects_regs (s : State) {d : Disposition} {x16 x17 x18 x19 x20 x28 x29 : Word} (h1 : d ≠ .arpLearned)
    (h2 : d ≠ .arpReplied) : FrameEffects s d { regs := frameRegs d x16 x17 x18 x19 x20 x28 x29 } where
  code := (reg_frameRegs rfl).1
  noStore _ _ := rfl
  store _ h := by cases h
  noCache _ _ := rfl
  cache h := absurd h (not_or.2 ⟨h1, h2⟩)

theorem frameEffects_arp {s : State} {m : BitVec 48} {e : Effects} (h : arpStep s m (frameBody s) = .ok e) :
    FrameEffects s
      (if be16 (frameBody s) 6 = 1#16 ∧ be32 (frameBody s) 24 = s.ourIp then .arpReplied else .arpLearned) e := by
  obtain ⟨_, hlen, -⟩ := bind_ok h
  have h28 := requireLen_eq_ok hlen
  have hasked : s.answersArp (arpParse (frameBody s)) = true ↔
      be16 (frameBody s) 6 = 1#16 ∧ be32 (frameBody s) 24 = s.ourIp := answersArp_iff s _
  by_cases hask : s.answersArp (arpParse (frameBody s)) = true
  · rw [arpStep_of_asked h28 hask] at h
    obtain ⟨st, hst, he⟩ := bind_ok h
    obtain ⟨-, rfl⟩ := output_eq_ok hst
    cases he
    rw [if_pos (hasked.1 hask)]
    obtain ⟨h0, h16, -⟩ := reg_frameRegs (s := s) (e := arpReplyEffects s m (frameBody s)) rfl
    exact
      { code := h0, noStore := fun hn => absurd rfl hn, noCache := fun _ hn => absurd rfl hn, cache := fun _ => rfl
        store := by
          rintro st hst
          cases hst
          rw [arpReplyFrame_length]
          exact ⟨rfl, congrArg BitVec.toNat h16⟩ }
  · rw [arpStep_of_not_asked h28 hask] at h
    cases h
    rw [if_neg fun hn => hask (hasked.2 hn)]
    exact
      { code := (reg_frameRegs rfl).1, noStore := fun _ _ => rfl, noCache := fun hn => absurd rfl hn, cache := fun _ => rfl
        store := fun _ hst => by cases hst }

theorem frameEffects_icmp {s : State} {m : BitVec 48} {q : Ip4Packet} {e : Effects} (h : icmpStep s m q = .ok e) :
    FrameEffects s (if byteOf q.payload 0 = 8#8 then .icmpReplied else .icmpIgnored) e := by
  obtain ⟨_, hlen, -⟩ := bind_ok h
  have h8 := requireLen_eq_ok hlen
  by_cases ht : byteOf q.payload 0 = 8#8
  · rw [if_pos ht]
    by_cases hfit : 20 + q.payload.length ≤ 0xFFFF
    · rw [icmpStep_echo h8 ht hfit] at h
      obtain ⟨st, hst, he⟩ := bind_ok h
      obtain ⟨-, rfl⟩ := output_eq_ok hst
      cases he
      obtain ⟨h0, h16, -⟩ := reg_frameRegs (s := s) (e := echoEffects s m q) rfl
      exact
        { code := h0, noStore := fun _ hn => absurd rfl hn, noCache := fun _ _ => rfl, cache := by simp
          store := by
            rintro st hst
            cases hst
            refine ⟨rfl, ?_⟩
            rw [echoReplyFrame_length _ _ h8]
            exact (congrArg BitVec.toNat h16).trans (toNat_word64 (by omega)) }
    · rw [icmpStep_overflow h8 ht (by omega)] at h
      cases h
  · rw [icmpStep_ignored h8 ht] at h
    cases h
    rw [if_neg ht]
    exact frameEffects_regs s (by decide) (by decide)

theorem ip4Parse_eq_ok {e : List Byte} {q : Ip4Packet} (h : ip4Parse e = .ok q) :
    20 ≤ e.length ∧ q = { header := ip4Header e, options := slice e 20 (ip4Header e).length
                          payload := e.drop (ip4Header e).length } := by
  simp only [ip4Parse] at h
  split at h
  · cases h
  · split at h
    · cases h
    · split at h
      · cases h
      · cases h
        exact ⟨by omega, rfl⟩

theorem frameEffects_ip4 {s : State} {m : BitVec 48} {ea : Word} {e : List Byte} {f : Effects}
    (h : ip4Step s m ea e = .ok f) :
    FrameEffects s
      (if (ip4Header e).protocol = 1#8 then
        (if byteOf (e.drop (ip4Header e).length) 0 = 8#8 then .icmpReplied else .icmpIgnored)
      else if (ip4Header e).protocol = 17#8 then .udpDelivered else .dropIpproto) f := by
  obtain ⟨q, hq, -⟩ := bind_ok h
  obtain ⟨-, hq'⟩ := ip4Parse_eq_ok hq
  have hheader : q.header = ip4Header e := by rw [hq']
  have hpayload : q.payload = e.drop (ip4Header e).length := by rw [hq']
  rw [← hpayload, ← hheader]
  by_cases h1 : q.header.protocol = 1#8
  · rw [ip4Step_of_icmp hq h1] at h
    rw [if_pos h1]
    exact frameEffects_icmp h
  · rw [if_neg h1]
    by_cases h17 : q.header.protocol = 17#8
    · rw [ip4Step_of_udp hq h17] at h
      obtain ⟨_, hlen, -⟩ := bind_ok h
      rw [udpStep_eq (requireLen_eq_ok hlen)] at h
      cases h
      rw [if_pos h17]
      exact frameEffects_regs s (by decide) (by decide)
    · rw [ip4Step_of_other hq h1 h17] at h
      cases h
      rw [if_neg h17]
      exact frameEffects_regs s (by decide) (by decide)

/-- A frame that was processed has the disposition of its bytes, and the effects that go with it. -/
theorem processFrame_of_success {s t : State} (ht : exec .processFrame s = .next t) (hok : t.status.fail = false) :
    ∃ e, t = s.complete e ∧ FrameEffects s (frameDisposition (inputBytes s) s.ourIp) e := by
  obtain ⟨hin, e, he, rfl⟩ := input_of_success rfl ht hok
  obtain ⟨_, -, he⟩ := bind_ok he
  refine ⟨e, rfl, ?_⟩
  unfold frameDisposition
  cases hclass : etherClass (be16 (inputBytes s) 12) <;> simp only [hclass] at he ⊢
  case unknown =>
    cases he
    exact frameEffects_regs s (by decide) (by decide)
  case arp => exact frameEffects_arp he
  case ipv4 => exact frameEffects_ip4 he
  case ipv6 =>
    cases he
    exact frameEffects_regs s (by decide) (by decide)

theorem Disposition.code_injective {d d' : Disposition} (h : d.code = d'.code) : d = d' := by
  revert h
  cases d <;> cases d' <;> decide

/-- Settles O60: the disposition is a function of the bytes and OUR_IP, and decides which effects there are. -/
theorem framePipelineLaws : Obligations.FramePipelineLaws := by
  unfold Obligations.FramePipelineLaws
  refine ⟨fun s t ht hok => ?_, fun s s' t t' ht hok ht' hok' hbytes hip => ?_⟩
  · obtain ⟨e, rfl, he⟩ := processFrame_of_success ht hok
    have hcode := he.code
    refine ⟨fun ⟨h3, h4⟩ => ?pbuf, fun a ha => ?outside, fun ⟨h2, h3⟩ => ?noCache, fun h => ?cache⟩
    case pbuf =>
      exact byteAt_complete_none s e (he.noStore (fun hd => h3 (by rw [hcode, hd]; rfl)) fun hd => h4 (by rw [hcode, hd]; rfl))
    case outside =>
      cases hst : e.store with
      | none => exact byteAt_complete_none s e hst a
      | some st =>
        obtain ⟨haddr, hlen⟩ := he.store st hst
        rw [hlen, ← haddr] at ha
        exact (stored_complete s e st hst).2 a ha
    case noCache =>
      rw [complete_cache, he.noCache (fun hd => h2 (by rw [hcode, hd]; rfl)) fun hd => h3 (by rw [hcode, hd]; rfl)]
      rfl
    case cache =>
      have hd := h.imp (fun h2 => Disposition.code_injective (d' := .arpLearned) (hcode.symm.trans h2))
        fun h3 => Disposition.code_injective (d' := .arpReplied) (hcode.symm.trans h3)
      rw [complete_cache, he.cache hd, learnedCache, frameBody, be32_drop, be48_drop]
      rfl
  · obtain ⟨e, rfl, he⟩ := processFrame_of_success ht hok
    obtain ⟨e', rfl, he'⟩ := processFrame_of_success ht' hok'
    rw [he.code, he'.code, hbytes, hip]

end Sys2Proof.Machine
end

section
/-! SUPPORT. Proofs about the five commands of the ARP cache (43_arp_cache.md R250–R264). -/

namespace Sys2Proof.Machine

/-! ### What each command answers -/

theorem exec_arpcInsert (s : State) : exec .arpcInsert s = .next (s.complete
    { regs := [(0, word64 (s.insert (s.ipField 4) (s.macField 5)).2)]
      cache := some (s.insert (s.ipField 4) (s.macField 5)).1 }) := rfl

/-- The cache with the entry of way w of ip's set removed. -/
def State.removeWay (s : State) (ip : BitVec 32) (w : Nat) : Cache := s.cache.put (setIndex s.params ip) w none

section
variable {s : State}

theorem exec_arpcLookup_of_none (h : s.cache.find s.params (s.ipField 4) = none) :
    exec .arpcLookup s = .next (s.complete { regs := [(0, 0#64), (16, 0#64)] }) := by
  simp [exec, execArpcLookup, h]

theorem exec_arpcRemove_of_none (h : s.cache.find s.params (s.ipField 4) = none) :
    exec .arpcRemove s = .next (s.complete { regs := [(0, 0#64)] }) := by
  simp [exec, execArpcRemove, h]

variable {w : Nat} {e : CacheEntry} (h : s.cache.find s.params (s.ipField 4) = some (w, e))
include h

theorem exec_arpcLookup_of_live (hl : e.live s.now s.arpTimeout = true) :
    exec .arpcLookup s = .next (s.complete { regs := [(0, 1#64), (16, zext64 e.mac)] }) := by
  simp [exec, execArpcLookup, h, hl]

theorem exec_arpcLookup_of_stale (hl : e.live s.now s.arpTimeout = false) :
    exec .arpcLookup s = .next (s.complete
      { regs := [(0, 0#64), (16, 0#64)], cache := some (s.removeWay (s.ipField 4) w) }) := by
  simp [exec, execArpcLookup, h, hl, State.removeWay]

theorem exec_arpcRemove_of_some :
    exec .arpcRemove s = .next (s.complete
      { regs := [(0, if e.live s.now s.arpTimeout then 1#64 else 0#64)], cache := some (s.removeWay (s.ipField 4) w) }) := by
  simp [exec, execArpcRemove, h, State.removeWay]

end

theorem live_eq_true_iff {now timeout : Word} {e : CacheEntry} :
    e.live now timeout = true ↔ age now e.ts < timeout.toNat := by simp [CacheEntry.live]

theorem live_eq_false_iff {now timeout : Word} {e : CacheEntry} :
    e.live now timeout = false ↔ timeout.toNat ≤ age now e.ts := by simp [CacheEntry.live]

/-! ### Slots after a change of one way -/

theorem slot_put_same {p : Params} {c : Cache} (hi : CacheInv p c) {set way : Nat} (hs : set < p.arpSets)
    (hw : way < p.arpWays) (x : Slot) : (c.put set way x).slot set way = x := by
  rw [slot_put, if_pos ⟨rfl, rfl, hi.sets ▸ hs, hi.ways_length hs ▸ hw⟩]

theorem slot_put_other (c : Cache) {set way set' way' : Nat} (x : Slot) (h : (set', way') ≠ (set, way)) :
    (c.put set way x).slot set' way' = c.slot set' way' := by
  rw [slot_put, if_neg fun ⟨hs, hw, _⟩ => h (by rw [hs, hw])]

/-- A slot that holds an entry is one of the array's. -/
theorem slot_some_lt {p : Params} {c : Cache} (hi : CacheInv p c) {set way : Nat} {e : CacheEntry}
    (h : c.slot set way = some e) : set < p.arpSets ∧ way < p.arpWays := by
  obtain ⟨hs, hw⟩ := slot_some_bounds h
  rw [hi.sets] at hs
  exact ⟨hs, hi.ways_length hs ▸ hw⟩

/-! ### ARPC_INSERT -/

/-- Settles O40: `victim_spec` says which way and code there is, and only that way is written. -/
theorem arpcInsertChoosesTheVictim : Obligations.ArpcInsertChoosesTheVictim := by
  unfold Obligations.ArpcInsertChoosesTheVictim
  intro s hinv ip set holds free stale
  obtain ⟨way, code, hv, hway, hins, hslot, -⟩ :=
    cacheInsert_spec hinv.legal hinv.cache s.arpTimeout s.now ip ((s.reg 5).setWidth 48)
  have hexec := exec_arpcInsert s
  have hsame : s.insert (s.ipField 4) (s.macField 5) = _ := hins
  rw [hsame] at hexec
  refine ⟨_, way, hexec, completed_complete _ _, keeps_complete _ _ _ (by simp), rfl, byteAt_complete_none _ _ rfl, hway,
    hslot, fun set' way' hne => slot_put_other _ _ hne, ?_⟩
  have hcode : ∀ c cache, (s.complete { regs := [(0, word64 code)], cache := cache, ck := c }).reg 0 = word64 code := by
    simp [reg_complete_lookup]
  rw [hcode]
  obtain ⟨-, hcase⟩ := victim_spec hinv.legal hinv.cache s.now s.arpTimeout ip set way code rfl hv
  rcases hcase with ⟨rfl, hhold⟩ | ⟨hno, ⟨rfl, hfree, hlow⟩ | ⟨hfull, ⟨rfl, hstale, hlow⟩ | ⟨rfl, hlive, hold⟩⟩⟩
  · exact .inl ⟨rfl, hhold⟩
  · exact .inr (.inl ⟨rfl, fun w ⟨e, he, hip⟩ => hno w e he hip, ⟨hway, hfree⟩, fun w hw ⟨_, hn⟩ => hlow w hw hn⟩)
  · exact .inr (.inr (.inl ⟨rfl, fun w ⟨e, he, hip⟩ => hno w e he hip, fun w ⟨hw, hn⟩ => hfull w hw hn, hstale,
      fun w hw ⟨e, he, hage⟩ => Nat.not_lt.2 hage (hlow w hw e he)⟩))
  · exact .inr (.inr (.inr ⟨rfl, fun w ⟨e, he, hip⟩ => hno w e he hip, fun w ⟨hw, hn⟩ => hfull w hw hn,
      fun w ⟨e, he, hage⟩ => Nat.not_lt.2 hage (hlive w e he), hold⟩))

/-! ### ARPC_LOOKUP and ARPC_REMOVE -/

/-- The removal of an entry that stands in the cache. -/
theorem slot_removeWay {s : State} (hi : CacheInv s.params s.cache) {ip : BitVec 32} {w : Nat} {e : CacheEntry}
    (hs : s.cache.slot (setIndex s.params ip) w = some e) :
    (s.removeWay ip w).slot (setIndex s.params ip) w = none ∧
      ∀ set' w', (set', w') ≠ (setIndex s.params ip, w) → (s.removeWay ip w).slot set' w' = s.cache.slot set' w' := by
  obtain ⟨hset, hway⟩ := slot_some_lt hi hs
  exact ⟨slot_put_same hi hset hway none, fun set' w' hne => slot_put_other _ _ hne⟩

/-- Settles O41: by what the search finds: nothing, a live entry or a stale one. -/
theorem arpcLookupReturnsOnlyLiveEntries : Obligations.ArpcLookupReturnsOnlyLiveEntries := by
  unfold Obligations.ArpcLookupReturnsOnlyLiveEntries
  intro s hinv ip set
  have hfound : ∀ w e, s.cache.slot set w = some e → e.ip = ip → s.cache.find s.params (s.ipField 4) = some (w, e) :=
    fun w e hs he => find_of_slot hinv.cache hs he
  cases hf : s.cache.find s.params (s.ipField 4) with
  | none =>
    refine ⟨_, exec_arpcLookup_of_none hf, completed_complete _ _, keeps_complete _ _ _ (by simp), rfl,
      byteAt_complete_none _ _ rfl, fun w e hs he => ?_, fun w e hs he => ?_, fun _ => ?_⟩
    · simp [hfound w e hs he] at hf
    · simp [hfound w e hs he] at hf
    · simp [reg_complete_lookup]
  | some we =>
    obtain ⟨w, e⟩ := we
    obtain ⟨hslot, hip⟩ := find_some hf
    have honly : ∀ w' e', s.cache.slot set w' = some e' → e'.ip = ip → w' = w ∧ e' = e := fun w' e' hs he => by
      have := (hfound w' e' hs he).symm.trans hf
      simpa using this
    cases hl : e.live s.now s.arpTimeout with
    | true =>
      refine ⟨_, exec_arpcLookup_of_live hf hl, completed_complete _ _, keeps_complete _ _ _ (by simp), rfl,
        byteAt_complete_none _ _ rfl, fun w' e' hs he hage => ?_, fun w' e' hs he hage => ?_, fun hno => ?_⟩
      · obtain ⟨-, rfl⟩ := honly w' e' hs he
        simp [reg_complete_lookup, zext64]
      · obtain ⟨-, rfl⟩ := honly w' e' hs he
        exact absurd (live_eq_true_iff.1 hl) (Nat.not_lt.2 hage)
      · exact absurd hip (hno w e hslot)
    | false =>
      refine ⟨_, exec_arpcLookup_of_stale hf hl, completed_complete _ _, keeps_complete _ _ _ (by simp), rfl,
        byteAt_complete_none _ _ rfl, fun w' e' hs he hage => ?_, fun w' e' hs he hage => ?_, fun hno => ?_⟩
      · obtain ⟨-, rfl⟩ := honly w' e' hs he
        exact absurd hage (Nat.not_lt.2 (live_eq_false_iff.1 hl))
      · obtain ⟨rfl, rfl⟩ := honly w' e' hs he
        exact ⟨by simp [reg_complete_lookup], by simp [reg_complete_lookup], slot_removeWay hinv.cache hslot⟩
      · exact absurd hip (hno w e hslot)

/-- Settles O42: by what the search finds. -/
theorem arpcRemoveReportsLiveEntries : Obligations.ArpcRemoveReportsLiveEntries := by
  unfold Obligations.ArpcRemoveReportsLiveEntries
  intro s hinv ip set
  have hfound : ∀ w e, s.cache.slot set w = some e → e.ip = ip → s.cache.find s.params (s.ipField 4) = some (w, e) :=
    fun w e hs he => find_of_slot hinv.cache hs he
  cases hf : s.cache.find s.params (s.ipField 4) with
  | none =>
    refine ⟨_, exec_arpcRemove_of_none hf, completed_complete _ _, keeps_complete _ _ _ (by simp), rfl,
      byteAt_complete_none _ _ rfl, fun w e hs he => ?_, fun _ => ?_⟩
    · simp [hfound w e hs he] at hf
    · simp [reg_complete_lookup]
  | some we =>
    obtain ⟨w, e⟩ := we
    obtain ⟨hslot, hip⟩ := find_some hf
    refine ⟨_, exec_arpcRemove_of_some hf, completed_complete _ _, keeps_complete _ _ _ (by simp), rfl,
      byteAt_complete_none _ _ rfl, fun w' e' hs he => ?_, fun hno => absurd hip (hno w e hslot)⟩
    have heq := (hfound w' e' hs he).symm.trans hf
    simp only [Option.some.injEq, Prod.mk.injEq] at heq
    obtain ⟨rfl, rfl⟩ := heq
    exact ⟨by simp [reg_complete_lookup, live_eq_true_iff], slot_removeWay hinv.cache hslot⟩

/-! ### ARPC_SWEEP and ARPC_COUNT -/

theorem countP_eq_range (ws : List Slot) (test : Slot → Bool) :
    ws.countP test = (List.range ws.length).countP fun w => test (ws.getD w none) := by
  have hws : ws = (List.range ws.length).map fun w => ws.getD w none := by
    apply List.ext_getElem (by simp)
    intro i h1 h2
    simp [List.getD_eq_getElem?_getD, List.getElem?_eq_getElem h1]
  conv => lhs; rw [hws]
  rw [List.countP_map]
  rfl

/-- The count over the array, as the number of (set, way) pairs. -/
theorem count_eq_range {p : Params} {c : Cache} (hi : CacheInv p c) (test : Slot → Bool) :
    c.count test = ((List.range p.arpSets).map fun set =>
      (List.range p.arpWays).countP fun w => test (c.slot set w)).sum := by
  rw [Cache.count]
  congr 1
  apply List.ext_getElem (by simp [hi.sets])
  intro i h1 h2
  have hlt : i < c.length := by simpa using h1
  have hways : c.ways i = c.get ⟨i, hlt⟩ := by simp [Cache.ways, List.getD_eq_getElem?_getD, List.getElem?_eq_getElem hlt]
  rw [List.getElem_map, List.getElem_map, List.getElem_range]
  change List.countP test (c.get ⟨i, hlt⟩) = _
  rw [← hways, countP_eq_range, hi.ways_length (hi.sets ▸ hlt)]
  rfl

theorem count_le {p : Params} {c : Cache} (hi : CacheInv p c) (test : Slot → Bool) :
    c.count test ≤ p.arpSets * p.arpWays := by
  rw [Cache.count, ← hi.sets, ← List.length_map (f := List.countP test)]
  refine List.sum_le_card_nsmul _ _ fun n hn => ?_
  obtain ⟨ws, hws, rfl⟩ := List.mem_map.1 hn
  exact hi.ways ws hws ▸ List.countP_le_length

theorem toNat_word64_count {s : State} (hinv : MachineInv s) (test : Slot → Bool) :
    (word64 (s.cache.count test)).toNat = s.cache.count test := by
  obtain ⟨-, -, -, hsets, -, hways⟩ := legal_bounds hinv.legal
  have hle := count_le hinv.cache test
  have hmul : s.params.arpSets * s.params.arpWays ≤ 2 ^ 16 * 2 ^ 16 := Nat.mul_le_mul hsets hways
  exact toNat_word64 (by omega)

theorem decide_lt_eq_not_le (a b : Nat) : decide (a < b) = !decide (b ≤ a) := by
  rw [← decide_not, decide_eq_decide, Nat.not_le]

theorem stale_eq_any (now timeout : Word) (x : Slot) :
    Slot.stale now timeout x = Option.any (fun e => decide (timeout.toNat ≤ age now e.ts)) x := by
  cases x with
  | none => rfl
  | some e => simp [Slot.stale, CacheEntry.live, decide_lt_eq_not_le]

theorem live_eq_any (now timeout : Word) (x : Slot) :
    Slot.live now timeout x = Option.any (fun e => !decide (timeout.toNat ≤ age now e.ts)) x := by
  cases x with
  | none => rfl
  | some e => simp [Slot.live, CacheEntry.live, decide_lt_eq_not_le]

/-- Settles O43: staleness is one test of an entry's age, and both commands count by it. -/
theorem arpcSweepAndCountUseOneStaleness : Obligations.ArpcSweepAndCountUseOneStaleness := by
  unfold Obligations.ArpcSweepAndCountUseOneStaleness
  intro s hinv stale number
  refine ⟨⟨_, rfl, completed_complete _ _, keeps_complete _ _ _ (by simp), rfl, byteAt_complete_none _ _ rfl,
    fun set w => ?swept, ?sweepNumber⟩, _, rfl, writesOnly_complete _ _ _ rfl, ?countNumber⟩
  case swept =>
    refine (slot_sweep s.cache s.now s.arpTimeout set w).trans ?_
    congr 1
    funext e
    simp [stale, CacheEntry.live, decide_lt_eq_not_le]
  case sweepNumber =>
    rw [reg_complete_lookup]
    refine (toNat_word64_count hinv _).trans ?_
    rw [count_eq_range hinv.cache]
    simp only [stale_eq_any]
    rfl
  case countNumber =>
    rw [reg_complete_lookup]
    refine (toNat_word64_count hinv _).trans ?_
    rw [count_eq_range hinv.cache]
    simp only [live_eq_any]
    rfl

/-! ### Time to live -/

/-- An inserted entry stands in a way of the set of its address. -/
theorem slot_insert {s : State} (hlegal : s.params.legal = true) (hi : CacheInv s.params s.cache) (ip : BitVec 32)
    (mac : BitVec 48) : CacheInv s.params (s.insert ip mac).1 ∧
      ∃ w, (s.insert ip mac).1.slot (setIndex s.params ip) w = some { ip := ip, mac := mac, ts := s.now } := by
  obtain ⟨w, code, -, -, hins, hslot, hinv⟩ := cacheInsert_spec hlegal hi s.arpTimeout s.now ip mac
  refine ⟨hinv, w, ?_⟩
  rw [State.insert, hins]
  exact hslot

/-- The removed way was the only one that held its address. -/
theorem removeWay_not_held {s : State} (hi : CacheInv s.params s.cache) {ip : BitVec 32} {w : Nat} {e : CacheEntry}
    (hs : s.cache.slot (setIndex s.params ip) w = some e) (he : e.ip = ip) (set w' : Nat) (e' : CacheEntry)
    (hs' : (s.removeWay ip w).slot set w' = some e') : e'.ip ≠ ip := by
  intro he'
  obtain ⟨hgone, hrest⟩ := slot_removeWay hi hs
  by_cases heq : (set, w') = (setIndex s.params ip, w)
  · obtain ⟨rfl, rfl⟩ := Prod.mk.inj heq
    rw [hgone] at hs'
    cases hs'
  · rw [hrest _ _ heq] at hs'
    have hset : set = setIndex s.params ip := he' ▸ hi.placed _ _ _ hs'
    subst hset
    exact heq (by rw [hi.unique _ _ _ _ _ hs' hs (by rw [he', he])])

/-- What a lookup answers when ip was the last address inserted: by the age of that insert. -/
theorem lookup_of_inserted {s u v : State} {ip : BitVec 32} {mac : BitVec 48} (hlegal : s.params.legal = true)
    (hi : CacheInv s.params s.cache) (hv : exec .arpcLookup u = .next v) (hparams : u.params = s.params)
    (hcache : u.cache = (s.insert ip mac).1) (hip : u.ipField 4 = ip) :
    (age u.now s.now < u.arpTimeout.toNat → v.reg 0 = 1 ∧ v.reg 16 = mac.setWidth 64) ∧
      (u.arpTimeout.toNat ≤ age u.now s.now → v.reg 0 = 0 ∧ ∀ set w e, v.cache.slot set w = some e → e.ip ≠ ip) := by
  subst hip
  obtain ⟨hinv, w, hslot⟩ := slot_insert hlegal hi (u.ipField 4) mac
  rw [← hparams, ← hcache] at hinv hslot
  have hfind := find_of_slot hinv hslot rfl
  constructor
  · intro hage
    cases exec_deterministic hv (exec_arpcLookup_of_live hfind (live_eq_true_iff.2 hage))
    simp [reg_complete_lookup, zext64]
  · intro hage
    cases exec_deterministic hv (exec_arpcLookup_of_stale hfind (live_eq_false_iff.2 hage))
    exact ⟨by simp [reg_complete_lookup], removeWay_not_held hinv hslot rfl⟩

/-- A successful ARP_HANDLE learns the packet's sender (R227). -/
theorem arpHandle_of_success {s t : State} (ht : exec .arpHandle s = .next t) (hok : t.status.fail = false) :
    ∃ e, t = s.complete e ∧ e.cache = some (learnedCache s (inputBytes s)) := by
  obtain ⟨hin, e, he, rfl⟩ := input_of_success rfl ht hok
  obtain ⟨_, hlen, -⟩ := bind_ok he
  have h28 := requireLen_eq_ok hlen
  rw [inputBytes_length] at h28
  by_cases hask : s.answersArp (arpParse (inputBytes s)) = true
  · obtain ⟨e', he', heq⟩ := effects_of_success (exec_arpHandle_of_asked hin h28 hask) ht hok
    rw [heq]
    cases hemit : s.emit (arpReply (arpParse (inputBytes s)) s.ourMac).bytes with
    | error err => simp [hemit, Except.map] at he'
    | ok reply =>
      simp only [hemit, Except.map, Except.ok.injEq] at he'
      exact ⟨_, rfl, he' ▸ rfl⟩
  · exact ⟨_, exec_deterministic ht (exec_arpHandle_of_not_asked hin h28 hask), rfl⟩

/-- Settles O44: both parts are a lookup of the address that was inserted last. -/
theorem cacheTimeAndOverwriteProperties : Obligations.CacheTimeAndOverwriteProperties := by
  unfold Obligations.CacheTimeAndOverwriteProperties
  refine ⟨fun s t v later hinv ht hnow hv => ?timeToLive, fun s t u hinv ht hok htimeout hu => ?overwrite⟩
  case timeToLive =>
    cases exec_deterministic ht (exec_arpcInsert s)
    have hage : age later s.now = later.toNat - s.now.toNat := if_pos hnow
    have hip : ∀ x c, (s.complete { regs := [(0, x)], cache := c }).ipField 4 = s.ipField 4 := by
      simp [State.ipField, State.field, reg_complete_lookup]
    obtain ⟨hlive, hstale⟩ := lookup_of_inserted (mac := s.macField 5) hinv.legal hinv.cache hv rfl rfl
      (hip _ (some (s.insert (s.ipField 4) (s.macField 5)).1))
    exact ⟨fun h => hlive (by simp only [complete_arpTimeout, hage]; omega),
      fun h => hstale (by simp only [complete_arpTimeout, hage]; omega)⟩
  case overwrite =>
    obtain ⟨e, rfl, hcache⟩ := arpHandle_of_success ht hok
    have hage : age s.now s.now < s.arpTimeout.toNat := by
      have hpos : s.arpTimeout.toNat ≠ 0 := fun h => htimeout (BitVec.eq_of_toNat_eq h)
      simp only [age, ge_iff_le, le_refl, if_true]
      omega
    refine (lookup_of_inserted (ip := be32 (inputBytes s) 14) hinv.legal hinv.cache hu rfl ?_ ?_).1 hage
    · simp [hcache, learnedCache]
    · simp [State.ipField, State.field]

end Sys2Proof.Machine
end

section
/-! SUPPORT. Proofs that the cache agrees with the source's unbounded map (43_arp_cache.md R262). -/

namespace Sys2Proof.Machine

/-! ### Live entries of the array and of the map -/

theorem liveEntry_eq_some_iff {s : State} (hi : CacheInv s.params s.cache) {ip : BitVec 32} {x : BitVec 48 × Word} :
    s.liveEntry ip = some x ↔ ∃ w e, s.cache.slot (setIndex s.params ip) w = some e ∧ e.ip = ip ∧
      e.live s.now s.arpTimeout = true ∧ (e.mac, e.ts) = x := by
  unfold State.liveEntry
  cases hf : s.cache.find s.params ip with
  | none => simpa using fun w e hs he => absurd he (find_none hf w e hs)
  | some we =>
    obtain ⟨w, e⟩ := we
    obtain ⟨hs, he⟩ := find_some hf
    constructor
    · intro h
      simp only [Option.ite_none_right_eq_some, Option.some.injEq] at h
      exact ⟨w, e, hs, he, h⟩
    · rintro ⟨w', e', hs', he', hl, hx⟩
      cases (find_of_slot hi hs' he').symm.trans hf
      simp [hl, hx]

/-- Two arrays whose live slots of ip are the same have the same live entry of ip. -/
theorem liveEntry_congr {s t : State} (hs : CacheInv s.params s.cache) (ht : CacheInv t.params t.cache) {ip : BitVec 32}
    (h : ∀ w e, e.ip = ip →
      ((t.cache.slot (setIndex t.params ip) w = some e ∧ e.live t.now t.arpTimeout = true) ↔
        (s.cache.slot (setIndex s.params ip) w = some e ∧ e.live s.now s.arpTimeout = true))) :
    t.liveEntry ip = s.liveEntry ip := by
  ext x
  rw [liveEntry_eq_some_iff hs, liveEntry_eq_some_iff ht]
  refine exists_congr fun w => exists_congr fun e => ⟨fun ⟨h1, h2, h3, h4⟩ => ?_, fun ⟨h1, h2, h3, h4⟩ => ?_⟩
  · obtain ⟨h1, h3⟩ := (h w e h2).1 ⟨h1, h3⟩
    exact ⟨h1, h2, h3, h4⟩
  · obtain ⟨h1, h3⟩ := (h w e h2).2 ⟨h1, h3⟩
    exact ⟨h1, h2, h3, h4⟩

theorem liveEntry_of_slot {s : State} (hi : CacheInv s.params s.cache) {ip : BitVec 32} {w : Nat} {e : CacheEntry}
    (hs : s.cache.slot (setIndex s.params ip) w = some e) (he : e.ip = ip) :
    s.liveEntry ip = if e.live s.now s.arpTimeout then some (e.mac, e.ts) else none := by
  rw [State.liveEntry, find_of_slot hi hs he]

theorem liveEntry_eq_none {s : State} {ip : BitVec 32}
    (h : ∀ w e, s.cache.slot (setIndex s.params ip) w = some e → e.ip ≠ ip) : s.liveEntry ip = none := by
  cases hf : s.cache.find s.params ip with
  | none => rw [State.liveEntry, hf]
  | some we => exact absurd (find_some hf).2 (h _ _ (find_some hf).1)

theorem liveAt_eq_some_iff {m : SourceMap} {now timeout : Word} {ip : BitVec 32} {x : BitVec 48 × Word} :
    m.liveAt now timeout ip = some x ↔ m ip = some x ∧ age now x.2 < timeout.toNat := by
  simp [SourceMap.liveAt, Option.filter_eq_some_iff]

theorem liveAt_insert (m : SourceMap) (ip k : BitVec 32) (mac : BitVec 48) (now timeout : Word) :
    (m.insert ip mac now).liveAt now timeout k =
      if k = ip then (if age now now < timeout.toNat then some (mac, now) else none) else m.liveAt now timeout k := by
  unfold SourceMap.liveAt SourceMap.insert
  split <;> simp [Option.filter]

theorem liveAt_remove (m : SourceMap) (ip k : BitVec 32) (now timeout : Word) :
    (m.remove ip).liveAt now timeout k = if k = ip then none else m.liveAt now timeout k := by
  unfold SourceMap.liveAt SourceMap.remove
  split <;> simp [Option.filter]

/-- A sweep of the map removes no live entry (R262). -/
theorem liveAt_liveAt (m : SourceMap) (now timeout : Word) (k : BitVec 32) :
    (m.liveAt now timeout).liveAt now timeout k = m.liveAt now timeout k := by
  ext x
  simp only [liveAt_eq_some_iff]
  tauto

/-! ### What leaves the agreement alone -/

theorem age_mono {now now' ts : Word} (h : now.toNat ≤ now'.toNat) : age now ts ≤ age now' ts := by
  unfold age
  split <;> split <;> omega

/-- As time goes by, and the timeout is not raised, the live entries of both become fewer, by the same test. -/
theorem agreesWith_of_later {s t : State} {m : SourceMap} (hi : CacheInv s.params s.cache) (hparams : t.params = s.params)
    (hcache : t.cache = s.cache) (hnow : s.now.toNat ≤ t.now.toNat) (htimeout : t.arpTimeout.toNat ≤ s.arpTimeout.toNat)
    (h : AgreesWith s m) : AgreesWith t m := by
  intro ip
  have hi' : CacheInv t.params t.cache := by rwa [hparams, hcache]
  have hearlier : ∀ ts, age t.now ts < t.arpTimeout.toNat → age s.now ts < s.arpTimeout.toNat := fun ts hage => by
    have := age_mono (ts := ts) hnow
    omega
  ext x
  have hx := (liveEntry_eq_some_iff hi (x := x)).symm.trans (((h ip).congr_left).trans liveAt_eq_some_iff)
  rw [liveEntry_eq_some_iff hi', liveAt_eq_some_iff, hparams, hcache]
  constructor
  · rintro ⟨w, e, hs, he, hl, rfl⟩
    rw [live_eq_true_iff] at hl
    exact ⟨(hx.1 ⟨w, e, hs, he, live_eq_true_iff.2 (hearlier _ hl), rfl⟩).1, hl⟩
  · rintro ⟨hm, hl⟩
    obtain ⟨w, e, hs, he, -, rfl⟩ := hx.2 ⟨hm, hearlier _ hl⟩
    exact ⟨w, e, hs, he, live_eq_true_iff.2 hl, rfl⟩

/-- A step that touches neither the cache nor time keeps the agreement. -/
theorem agreesWith_of_same {s t : State} {m : SourceMap} {results : List Reg} (hi : CacheInv s.params s.cache)
    (hk : Keeps s t results) (hcache : t.cache = s.cache) (h : AgreesWith s m) : AgreesWith t m :=
  agreesWith_of_later hi hk.params hcache (by rw [hk.now]) (by rw [hk.arpTimeout]) h

/-! ### The changes of the cache -/

section
variable {s t : State} {results : List Reg} (hlegal : s.params.legal = true) (hi : CacheInv s.params s.cache)
  (hk : Keeps s t results) {ip : BitVec 32}

include hi hk

/-- A removal of one slot, live or stale, seen from every address. -/
theorem liveEntry_removeWay {w : Nat} {e : CacheEntry} (hs : s.cache.slot (setIndex s.params ip) w = some e)
    (he : e.ip = ip) (hcache : t.cache = s.removeWay ip w) (k : BitVec 32) :
    t.liveEntry k = if k = ip then none else s.liveEntry k := by
  have hi' : CacheInv t.params t.cache := by
    rw [hk.params, hcache]
    exact hi.remove _ _
  split
  · subst k
    refine liveEntry_eq_none ?_
    rw [hk.params, hcache]
    exact fun w' e' => removeWay_not_held hi hs he _ w' e'
  · rename_i hne
    refine liveEntry_congr hi hi' fun w' e' he' => ?_
    rw [hk.params, hcache, hk.now, hk.arpTimeout]
    by_cases hsame : (setIndex s.params k, w') = (setIndex s.params ip, w)
    · obtain ⟨h1, rfl⟩ := Prod.mk.inj hsame
      have hother : e ≠ e' := fun heq => hne (by rw [← he', ← heq, he])
      simp [h1, (slot_removeWay hi hs).1, hs, hother]
    · rw [(slot_removeWay hi hs).2 _ _ hsame]

/-- A sweep leaves the live entries. -/
theorem liveEntry_sweep (hcache : t.cache = s.cache.sweep s.now s.arpTimeout) (k : BitVec 32) :
    t.liveEntry k = s.liveEntry k := by
  have hi' : CacheInv t.params t.cache := by
    rw [hk.params, hcache]
    exact hi.sweep _ _
  refine liveEntry_congr hi hi' fun w e _ => ?_
  rw [hk.params, hcache, hk.now, hk.arpTimeout, slot_sweep, Option.filter_eq_some_iff]
  tauto

include hlegal

/-- An insert whose code is not 3 displaces no live entry of another address: its victim held ip, was free, or was stale. -/
theorem liveEntry_insert {mac : BitVec 48} (hcache : t.cache = (s.insert ip mac).1) (hcode : s.insertCode ip mac ≠ 3)
    (k : BitVec 32) : t.liveEntry k =
      if k = ip then (if age s.now s.now < s.arpTimeout.toNat then some (mac, s.now) else none) else s.liveEntry k := by
  obtain ⟨w, code, hv, hw, hins, hslot, hi'⟩ := cacheInsert_spec hlegal hi s.arpTimeout s.now ip mac
  rw [State.insertCode, hins] at hcode
  rw [State.insert] at hcache
  rw [← hcache, ← hk.params] at hi'
  rw [hins] at hcache
  dsimp only at hcache
  split
  · subst k
    rw [← hcache, ← hk.params] at hslot
    rw [liveEntry_of_slot hi' hslot rfl, hk.now, hk.arpTimeout]
    simp [CacheEntry.live]
  · rename_i hne
    refine liveEntry_congr hi hi' fun w' e' he' => ?_
    rw [hk.params, hcache, hk.now, hk.arpTimeout]
    by_cases hsame : (setIndex s.params k, w') = (setIndex s.params ip, w)
    · obtain ⟨h1, rfl⟩ := Prod.mk.inj hsame
      rw [h1, hslot]
      have hvictim : ¬ (s.cache.slot (setIndex s.params ip) w' = some e' ∧ e'.live s.now s.arpTimeout = true) := by
        rintro ⟨hs, hl⟩
        rw [live_eq_true_iff] at hl
        rcases (victim_spec hlegal hi s.now s.arpTimeout ip _ w' code rfl hv).2 with
          ⟨-, e, he, hip⟩ | ⟨-, ⟨-, hfree, -⟩ | ⟨-, ⟨-, ⟨e, he, hage⟩, -⟩ | ⟨h3, -⟩⟩⟩
        · cases hs.symm.trans he
          exact hne (he'.symm.trans hip)
        · cases hs.symm.trans hfree
        · cases hs.symm.trans he
          omega
        · exact hcode h3
      refine iff_of_false (fun ⟨hs, _⟩ => hne ?_) hvictim
      cases hs
      exact he'.symm
    · rw [slot_put_other _ _ hsame]

end

/-! ### The commands -/

theorem exec_keeps {i : Instr} {s t : State} (h : exec i s = .next t) : Keeps s t (resultsOf i) := (commandFrames i s t h).1

/-- A lookup removes at most a stale entry. -/
theorem liveEntry_arpcLookup {s t : State} (hi : CacheInv s.params s.cache) (ht : exec .arpcLookup s = .next t) (k : BitVec 32) :
    t.liveEntry k = s.liveEntry k := by
  have hk := exec_keeps ht
  cases hf : s.cache.find s.params (s.ipField 4) with
  | none =>
    cases exec_deterministic ht (exec_arpcLookup_of_none hf)
    rfl
  | some we =>
    obtain ⟨w, e⟩ := we
    obtain ⟨hs, he⟩ := find_some hf
    cases hl : e.live s.now s.arpTimeout with
    | true =>
      cases exec_deterministic ht (exec_arpcLookup_of_live hf hl)
      rfl
    | false =>
      cases exec_deterministic ht (exec_arpcLookup_of_stale hf hl)
      rw [liveEntry_removeWay hi hk hs he rfl]
      split
      · subst k
        simp [liveEntry_of_slot hi hs he, hl]
      · rfl

theorem liveEntry_arpcRemove {s t : State} (hi : CacheInv s.params s.cache) (ht : exec .arpcRemove s = .next t) (k : BitVec 32) :
    t.liveEntry k = if k = s.ipField 4 then none else s.liveEntry k := by
  have hk := exec_keeps ht
  cases hf : s.cache.find s.params (s.ipField 4) with
  | none =>
    cases exec_deterministic ht (exec_arpcRemove_of_none hf)
    split
    · subst k
      exact liveEntry_eq_none (find_none hf)
    · rfl
  | some we =>
    obtain ⟨w, e⟩ := we
    obtain ⟨hs, he⟩ := find_some hf
    cases exec_deterministic ht (exec_arpcRemove_of_some hf)
    exact liveEntry_removeWay hi hk hs he rfl k

/-- The disposition of a successful PROCESS_FRAME is one of the two that learn exactly for an ARP frame (R362, R363). -/
theorem frameDisposition_learns_iff (b : List Byte) (ourIp : BitVec 32) :
    (frameDisposition b ourIp = .arpLearned ∨ frameDisposition b ourIp = .arpReplied) ↔ be16 b 12 = 0x0806#16 := by
  by_cases harp : be16 b 12 = 0x0806#16
  · simp only [frameDisposition, etherClass, harp, if_true, iff_true]
    split <;> simp
  · have hclass : etherClass (be16 b 12) ≠ .arp := by
      unfold etherClass
      split_ifs <;> simp
    refine iff_of_false ?_ harp
    simp only [frameDisposition]
    split
    · simp
    · simp
    · contradiction
    · split_ifs <;> simp

theorem cache_of_inserted {i : Instr} {s t : State} {ip : BitVec 32} {mac : BitVec 48} (ht : exec i s = .next t)
    (hins : insertedBy i s t = some (ip, mac)) : t.cache = (s.insert ip mac).1 := by
  unfold insertedBy at hins
  split at hins
  case h_1 =>
    cases hins
    cases exec_deterministic ht (exec_arpcInsert s)
    rfl
  case h_2 =>
    split at hins
    · cases hins
    · rename_i hok
      cases hins
      obtain ⟨e, rfl, hcache⟩ := arpHandle_of_success ht (Bool.eq_false_iff.2 hok)
      rw [complete_cache, hcache]
      rfl
  case h_3 =>
    split at hins
    · rename_i hok
      cases hins
      obtain ⟨e, rfl, he⟩ := processFrame_of_success ht hok.1
      rw [complete_cache, he.cache ((frameDisposition_learns_iff _ _).2 hok.2), learnedCache, frameBody, be32_drop, be48_drop]
      rfl
    · cases hins
  all_goals cases hins

theorem cache_of_failed {i : Instr} {s t : State} (ht : exec i s = .next t) (hfail : t.status.fail = true) :
    t.cache = s.cache := by
  rcases exec_cases i s with ⟨e, he⟩ | ⟨e, he⟩
  · cases exec_deterministic ht he
    cases hfail
  · cases exec_deterministic ht he
    rfl

theorem cache_of_not_inserted {i : Instr} {s t : State} (ht : exec i s = .next t) (hins : insertedBy i s t = none)
    (hi : i ∉ [.arpcLookup, .arpcSweep, .arpcRemove]) : t.cache = s.cache := by
  by_cases hwrites : i ∈ [.arpcInsert, .arpcLookup, .arpcSweep, .arpcRemove, .arpHandle, .processFrame]
  · cases hfail : t.status.fail with
    | true => exact cache_of_failed ht hfail
    | false =>
      have hleft : i = .arpcInsert ∨ i = .arpHandle ∨ i = .processFrame := by
        simp only [List.mem_cons, List.not_mem_nil, or_false] at hwrites hi
        tauto
      rcases hleft with rfl | rfl | rfl
      · cases hins
      · simp [insertedBy, hfail] at hins
      · have harp : be16 (inputBytes s) 12 ≠ 0x0806#16 := by simpa [insertedBy, hfail] using hins
        obtain ⟨e, rfl, he⟩ := processFrame_of_success ht hfail
        have hno := mt (frameDisposition_learns_iff (inputBytes s) s.ourIp).1 harp
        rw [complete_cache, he.noCache (fun h => hno (.inl h)) fun h => hno (.inr h)]
        rfl
  · exact (commandFrames i s t ht).2.2.1 hwrites

/-- The first part of O45, from the cache's own invariant: a CMD write runs its command with BUSY = 1. -/
theorem agreesWith_afterCommand {i : Instr} {s t : State} {m : SourceMap} (hlegal : s.params.legal = true)
    (hi : CacheInv s.params s.cache) (h : AgreesWith s m) (ht : exec i s = .next t)
    (hcode : ∀ ip mac, insertedBy i s t = some (ip, mac) → s.insertCode ip mac ≠ 3) :
    AgreesWith t (m.afterCommand i s t) := by
  have hk := exec_keeps ht
  intro k
  rw [hk.now, hk.arpTimeout]
  unfold SourceMap.afterCommand
  cases hins : insertedBy i s t with
  | some x =>
    obtain ⟨ip, mac⟩ := x
    rw [liveEntry_insert hlegal hi hk (cache_of_inserted ht hins) (hcode ip mac hins), liveAt_insert, h k]
  | none =>
    by_cases hlookup : i = .arpcLookup
    · subst hlookup
      rw [liveEntry_arpcLookup hi ht, h k]
      simp only [if_true]
      split
      · rfl
      · rename_i hfound
        rw [liveAt_remove]
        split
        · subst k
          exact Option.not_isSome_iff_eq_none.1 hfound
        · rfl
    by_cases hsweep : i = .arpcSweep
    · subst hsweep
      rw [liveEntry_sweep hi hk (congrArg State.cache (exec_deterministic ht rfl)), h k]
      exact (liveAt_liveAt m _ _ k).symm
    by_cases hremove : i = .arpcRemove
    · subst hremove
      rw [liveEntry_arpcRemove hi ht, h k]
      exact (liveAt_remove m _ k _ _).symm
    · simp only [hlookup, hsweep, hremove, if_false]
      rw [← hk.now, ← hk.arpTimeout]
      exact agreesWith_of_same hi hk (cache_of_not_inserted ht hins (by simp [hlookup, hsweep, hremove])) h k

/-! ### The steps -/

/-- A host access other than the reset leaves the cache alone. -/
theorem hostAccess_keeps_cache {s t : State} {op : HostOp} (hop : op ≠ .reset) (ht : hostAccess op s = .next t) :
    t.params = s.params ∧ t.cache = s.cache := by
  cases op with
  | csrWrite n v =>
    cases ht
    obtain ⟨hparams, -, hcache, -⟩ := writeCsr_keeps s n v
    exact ⟨hparams, hcache⟩
  | csrRead n =>
    cases ht
    exact ⟨rfl, rfl⟩
  | pbufWrite a b =>
    simp only [hostAccess] at ht
    split at ht
    · cases ht
      exact ⟨rfl, rfl⟩
    · cases ht
  | pbufRead a =>
    simp only [hostAccess] at ht
    split at ht
    · cases ht
      exact ⟨rfl, rfl⟩
    · cases ht
  | tick =>
    cases ht
    exact ⟨rfl, rfl⟩
  | reset => exact absurd rfl hop

theorem slot_resetWith (p : Params) (set w : Nat) : (State.resetWith p).cache.slot set w = none := by
  cases hs : (State.resetWith p).cache.slot set w with
  | none => rfl
  | some e =>
    have hmem := mem_ways_of_slot hs
    have hset := (slot_some_bounds hs).1
    have hways : (State.resetWith p).cache.ways set = List.replicate p.arpWays none := List.eq_of_mem_replicate (ways_mem hset)
    rw [hways] at hmem
    cases List.eq_of_mem_replicate hmem

theorem agreesWith_reset (s : State) : AgreesWith s.resetEvent fun _ => none := by
  intro ip
  refine liveEntry_eq_none fun w e hs => ?_
  cases (slot_resetWith s.params _ w).symm.trans hs

theorem nextCommand_of_cmd {s : State} {v : Word} {rest : List HostOp} (h : s.pending = .csrWrite 0x020 v :: rest) :
    s.nextCommand = (decode (v.setWidth 32)).toOption := by
  simp [State.nextCommand, State.nextOp, h]

theorem nextCommand_of_access {s : State} {op : HostOp} {rest : List HostOp} (h : s.pending = op :: rest)
    (hop : ∀ v, op ≠ .csrWrite 0x020 v) : s.nextCommand = none := by
  simp only [State.nextCommand, State.nextOp, h, List.head?_cons]
  split
  · rename_i n v heq
    cases heq
    split
    · rename_i hn
      exact absurd (by rw [hn]) (hop v)
    · rfl
  · rfl

theorem agreesWith_afterStep {s t : State} {m : SourceMap} (hinv : MachineInv s) (h : AgreesWith s m)
    (ht : step s = .next t)
    (htime : s.nextOp ≠ some .reset → s.now.toNat ≤ t.now.toNat ∧ t.arpTimeout.toNat ≤ s.arpTimeout.toNat)
    (hcode : ∀ i ip mac, s.nextCommand = some i → insertedBy i s t = some (ip, mac) → s.insertCode ip mac ≠ 3) :
    AgreesWith t (m.afterStep s t) := by
  unfold SourceMap.afterStep
  rcases step_shape s with ⟨hp, hs⟩ | ⟨v, rest, hp, hs⟩ | ⟨op, rest, hp, hop, hs⟩
  · have hnext : s.nextOp = none := by rw [State.nextOp, hp]; rfl
    cases hs.symm.trans ht
    simpa [hnext, State.nextCommand] using h
  · have hnext : s.nextOp = some (.csrWrite 0x020 v) := by rw [State.nextOp, hp]; rfl
    rw [if_neg (by simp [hnext])]
    rcases command_cases v s.taken with ⟨i, hd, hc⟩ | ⟨hd, sub, hc⟩
    · have hi : s.nextCommand = some i := by rw [nextCommand_of_cmd hp, hd]; rfl
      rw [hi]
      exact agreesWith_afterCommand (s := s.taken.beginCommand v) hinv.legal hinv.cache h (hc ▸ hs ▸ ht)
        fun ip mac => hcode i ip mac hi
    · have hi : s.nextCommand = none := by
        rw [nextCommand_of_cmd hp]
        cases hdec : decode (v.setWidth 32) with
        | ok i => exact absurd hdec (hd i)
        | error e => rfl
      rw [hi]
      cases hc.symm.trans (hs.symm.trans ht)
      exact h
  · have hnext : s.nextOp = some op := by rw [State.nextOp, hp]; rfl
    rw [hnext] at htime ⊢
    rw [nextCommand_of_access hp hop]
    by_cases hreset : op = .reset
    · subst hreset
      cases hs.symm.trans ht
      exact agreesWith_reset s.taken
    · rw [if_neg (by simpa using hreset)]
      obtain ⟨hparams, hcache⟩ := hostAccess_keeps_cache hreset (hs.symm.trans ht)
      obtain ⟨hnow, htimeout⟩ := htime (by simpa using hreset)
      exact agreesWith_of_later hinv.cache hparams hcache hnow htimeout h

/-! ### The answers -/

theorem insertCode_le {s : State} (hlegal : s.params.legal = true) (hi : CacheInv s.params s.cache) (ip : BitVec 32)
    (mac : BitVec 48) : s.insertCode ip mac ≤ 3 := by
  obtain ⟨w, code, hv, -, hins, -⟩ := cacheInsert_spec hlegal hi s.arpTimeout s.now ip mac
  rw [State.insertCode, hins]
  rcases (victim_spec hlegal hi s.now s.arpTimeout ip _ w code rfl hv).2 with
    ⟨hc, -⟩ | ⟨-, ⟨hc, -⟩ | ⟨-, ⟨hc, -⟩ | ⟨hc, -⟩⟩⟩ <;> simp [hc]

theorem arpcInsert_answer {s t : State} (hlegal : s.params.legal = true) (hi : CacheInv s.params s.cache)
    (ht : exec .arpcInsert s = .next t) : t.reg 0 = 3 ↔ s.insertCode (s.ipField 4) (s.macField 5) = 3 := by
  cases exec_deterministic ht (exec_arpcInsert s)
  have hle := insertCode_le hlegal hi (s.ipField 4) (s.macField 5)
  have hreg : ∀ n c, (s.complete { regs := [(0, word64 n)], cache := c }).reg 0 = word64 n := by simp [reg_complete_lookup]
  have hcode : (s.insert (s.ipField 4) (s.macField 5)).2 = s.insertCode (s.ipField 4) (s.macField 5) := rfl
  rw [hreg, ← BitVec.toNat_inj, hcode, toNat_word64 (by omega)]
  rfl

theorem arpcLookup_answer {s t : State} (ht : exec .arpcLookup s = .next t) :
    (∀ mac ts, s.liveEntry (s.ipField 4) = some (mac, ts) → t.reg 0 = 1 ∧ t.reg 16 = mac.setWidth 64) ∧
      (s.liveEntry (s.ipField 4) = none → t.reg 0 = 0 ∧ t.reg 16 = 0) := by
  unfold State.liveEntry
  cases hf : s.cache.find s.params (s.ipField 4) with
  | none =>
    cases exec_deterministic ht (exec_arpcLookup_of_none hf)
    simp [reg_complete_lookup]
  | some we =>
    obtain ⟨w, e⟩ := we
    cases hl : e.live s.now s.arpTimeout with
    | true =>
      cases exec_deterministic ht (exec_arpcLookup_of_live hf hl)
      simp +contextual [reg_complete_lookup, hl, zext64]
    | false =>
      cases exec_deterministic ht (exec_arpcLookup_of_stale hf hl)
      simp [reg_complete_lookup, hl]

theorem arpcRemove_answer {s t : State} (ht : exec .arpcRemove s = .next t) :
    t.reg 0 = 1 ↔ (s.liveEntry (s.ipField 4)).isSome = true := by
  unfold State.liveEntry
  cases hf : s.cache.find s.params (s.ipField 4) with
  | none =>
    cases exec_deterministic ht (exec_arpcRemove_of_none hf)
    simp [reg_complete_lookup]
  | some we =>
    obtain ⟨w, e⟩ := we
    cases exec_deterministic ht (exec_arpcRemove_of_some hf)
    cases hl : e.live s.now s.arpTimeout <;> simp [reg_complete_lookup, hl]

/-- Settles O45: every command changes the live entries as the source's operation does, and time makes both fewer. -/
theorem cacheRefinesTheSourceMap : Obligations.CacheRefinesTheSourceMap := by
  unfold Obligations.CacheRefinesTheSourceMap
  refine ⟨fun i s t m hinv h ht hcode => agreesWith_afterCommand hinv.legal hinv.cache h ht hcode,
    fun s t m hinv h ht htime hcode => agreesWith_afterStep hinv h ht htime hcode, ?_⟩
  intro s t m hinv h found
  have hfound : s.liveEntry (s.ipField 4) = found := h _
  rw [← hfound]
  exact ⟨arpcInsert_answer hinv.legal hinv.cache, arpcLookup_answer, arpcRemove_answer⟩

end Sys2Proof.Machine
end
